-- ==== Sys2Proof/Word.lean ====
section
/-! DEFINITION. The two word types of the block: a byte of either memory, and a host register. -/

namespace Sys2Proof

/-- What one memory access moves (20_memory.md R90). -/
abbrev Byte := BitVec 8

/-- A host-visible register (10_state.md R44). -/
abbrev Word := BitVec 32

end Sys2Proof
end

