-- ==== Sys2Proof/Config.lean ====
section
/-! DEFINITION. The implementation parameters of 00_scope.md R7: the fixed ones as constants, the OPEN
ones (OUT_CAP, ADDR_W) as a structure of plain data that State carries and no step writes. -/

namespace Sys2Proof

/-- The largest `n` that one `GET_BITS` may request (R7, 40_bit_reader.md R171). -/
def Config.maxGetBits : Nat := 25

/-- The longest Huffman codeword, in bits (R7, 41_huffman.md R203). -/
def Config.maxCodeLen : Nat := 15

/-- Most symbols of a literal/length table (R7, 10_state.md R37). -/
def Config.llAlphaMax : Nat := 288

/-- Most symbols of a distance table (R7, 10_state.md R37). -/
def Config.distAlphaMax : Nat := 32

/-- Size of the code-length alphabet (R7). -/
def Config.clAlpha : Nat := 19

/-- Most entries of the dynamic length sequence (R7, 10_state.md R40). -/
def Config.maxLens : Nat := 320

/-- The two parameters that R7 leaves OPEN: the address width and the output capacity in bytes.
They are arguments of the model: State carries them, no step writes them, and statements hold for
every value of them (log 3). -/
structure Params where
  addrW  : Nat
  outCap : Nat
  deriving DecidableEq, Repr

/-- What R7 asks of the parameters: `ADDR_W` at least 17 and `OUT_CAP < 2^ADDR_W`. The bound 32 is
DEDUCED: R44 puts ADDR_W-bit fields into 32-bit registers (log 3). -/
def Params.Ok (p : Params) : Prop := 17 ≤ p.addrW ∧ p.addrW ≤ 32 ∧ p.outCap < 2 ^ p.addrW

/-- The parameters in the state after reset. DESIGN CHOICE (log 3): the widest address that fits the
host registers, and the largest capacity R7 allows with it. InvariantHoldsAtReset says that R7 allows the
pair; no other statement rests on these values. -/
def Config.resetParams : Params := { addrW := 32, outCap := 2 ^ 32 - 1 }

end Sys2Proof
end

