-- ==== Sys2Proof/Syntax.lean ====
section
/-! DEFINITION. The block's instructions: the elements of a DEFLATE stream and the host's START, one
constructor for each row of spec/opcode_table.json. -/

namespace Sys2Proof

/-- One row of the opcode table each, with the fields the table gives the row. The extra bits that
follow a codeword are no operand: the row's match and mask cover the decoded value alone, and the
state's rule reads the extra bits afterwards (30_encoding.md, preamble and R116 to R122; log 8). -/
inductive Instr where
  /-- BLOCK_type_STORED (R241): header of a stored block, BTYPE 00. -/
  | blockStored (bfinal : BitVec 1)
  /-- BLOCK_type_FIXED (R241, R242): header of a fixed block, BTYPE 01. -/
  | blockFixed (bfinal : BitVec 1)
  /-- BLOCK_type_DYNAMIC (R241): header of a dynamic block, BTYPE 10. -/
  | blockDynamic (bfinal : BitVec 1)
  /-- BLOCK_type_RESERVED (R241): the reserved BTYPE 11, illegal. -/
  | blockReserved (bfinal : BitVec 1)
  /-- STORED (R243): the LEN and NLEN fields of a stored block. -/
  | stored (len : BitVec 16) (nlen : BitVec 16)
  /-- STORED_BYTE (R244): one data byte of a stored block. -/
  | storedByte (b : Byte)
  /-- DYNHDR (R245): the counts of a dynamic header, as the registers hold them (field + 257, + 1, + 4). -/
  | dynhdr (hlit : BitVec 9) (hdist : BitVec 6) (hclen : BitVec 5)
  /-- CLLEN (R246): one code-length code length. -/
  | cllen (length : BitVec 3)
  /-- CL_v (R249): code-length symbol 0 to 15, one code length. -/
  | cl (v : BitVec 4)
  /-- CL16 (R250): repeat the previous length; 2 extra bits follow. -/
  | cl16
  /-- CL17 (R251): 3 to 10 zero lengths; 3 extra bits follow. -/
  | cl17
  /-- CL18 (R252): 11 to 138 zero lengths; 7 extra bits follow. -/
  | cl18
  /-- LIT_b (R291): literal byte. -/
  | lit (b : Byte)
  /-- EOB (R292): end of block, symbol 256. -/
  | eob
  /-- LSYM_257 (R293): length code 0, 0 bits after the codeword, match length 3. -/
  | lsym257
  /-- LSYM_258 (R293): length code 1, 0 bits after the codeword, match length 4. -/
  | lsym258
  /-- LSYM_259 (R293): length code 2, 0 bits after the codeword, match length 5. -/
  | lsym259
  /-- LSYM_260 (R293): length code 3, 0 bits after the codeword, match length 6. -/
  | lsym260
  /-- LSYM_261 (R293): length code 4, 0 bits after the codeword, match length 7. -/
  | lsym261
  /-- LSYM_262 (R293): length code 5, 0 bits after the codeword, match length 8. -/
  | lsym262
  /-- LSYM_263 (R293): length code 6, 0 bits after the codeword, match length 9. -/
  | lsym263
  /-- LSYM_264 (R293): length code 7, 0 bits after the codeword, match length 10. -/
  | lsym264
  /-- LSYM_265 (R293): length code 8, 1 bits after the codeword, match length 11-12. -/
  | lsym265
  /-- LSYM_266 (R293): length code 9, 1 bits after the codeword, match length 13-14. -/
  | lsym266
  /-- LSYM_267 (R293): length code 10, 1 bits after the codeword, match length 15-16. -/
  | lsym267
  /-- LSYM_268 (R293): length code 11, 1 bits after the codeword, match length 17-18. -/
  | lsym268
  /-- LSYM_269 (R293): length code 12, 2 bits after the codeword, match length 19-22. -/
  | lsym269
  /-- LSYM_270 (R293): length code 13, 2 bits after the codeword, match length 23-26. -/
  | lsym270
  /-- LSYM_271 (R293): length code 14, 2 bits after the codeword, match length 27-30. -/
  | lsym271
  /-- LSYM_272 (R293): length code 15, 2 bits after the codeword, match length 31-34. -/
  | lsym272
  /-- LSYM_273 (R293): length code 16, 3 bits after the codeword, match length 35-42. -/
  | lsym273
  /-- LSYM_274 (R293): length code 17, 3 bits after the codeword, match length 43-50. -/
  | lsym274
  /-- LSYM_275 (R293): length code 18, 3 bits after the codeword, match length 51-58. -/
  | lsym275
  /-- LSYM_276 (R293): length code 19, 3 bits after the codeword, match length 59-66. -/
  | lsym276
  /-- LSYM_277 (R293): length code 20, 4 bits after the codeword, match length 67-82. -/
  | lsym277
  /-- LSYM_278 (R293): length code 21, 4 bits after the codeword, match length 83-98. -/
  | lsym278
  /-- LSYM_279 (R293): length code 22, 4 bits after the codeword, match length 99-114. -/
  | lsym279
  /-- LSYM_280 (R293): length code 23, 4 bits after the codeword, match length 115-130. -/
  | lsym280
  /-- LSYM_281 (R293): length code 24, 5 bits after the codeword, match length 131-162. -/
  | lsym281
  /-- LSYM_282 (R293): length code 25, 5 bits after the codeword, match length 163-194. -/
  | lsym282
  /-- LSYM_283 (R293): length code 26, 5 bits after the codeword, match length 195-226. -/
  | lsym283
  /-- LSYM_284 (R293): length code 27, 5 bits after the codeword, match length 227-258. -/
  | lsym284
  /-- LSYM_285 (R293): length code 28, 0 bits after the codeword, match length 258. -/
  | lsym285
  /-- LSYM_286 (R294): invalid literal/length symbol. -/
  | lsym286
  /-- LSYM_287 (R294): invalid literal/length symbol. -/
  | lsym287
  /-- DSYM_0 (R295): distance code 0, 0 bits after the codeword, distance 1. -/
  | dsym0
  /-- DSYM_1 (R295): distance code 1, 0 bits after the codeword, distance 2. -/
  | dsym1
  /-- DSYM_2 (R295): distance code 2, 0 bits after the codeword, distance 3. -/
  | dsym2
  /-- DSYM_3 (R295): distance code 3, 0 bits after the codeword, distance 4. -/
  | dsym3
  /-- DSYM_4 (R295): distance code 4, 1 bits after the codeword, distance 5-6. -/
  | dsym4
  /-- DSYM_5 (R295): distance code 5, 1 bits after the codeword, distance 7-8. -/
  | dsym5
  /-- DSYM_6 (R295): distance code 6, 2 bits after the codeword, distance 9-12. -/
  | dsym6
  /-- DSYM_7 (R295): distance code 7, 2 bits after the codeword, distance 13-16. -/
  | dsym7
  /-- DSYM_8 (R295): distance code 8, 3 bits after the codeword, distance 17-24. -/
  | dsym8
  /-- DSYM_9 (R295): distance code 9, 3 bits after the codeword, distance 25-32. -/
  | dsym9
  /-- DSYM_10 (R295): distance code 10, 4 bits after the codeword, distance 33-48. -/
  | dsym10
  /-- DSYM_11 (R295): distance code 11, 4 bits after the codeword, distance 49-64. -/
  | dsym11
  /-- DSYM_12 (R295): distance code 12, 5 bits after the codeword, distance 65-96. -/
  | dsym12
  /-- DSYM_13 (R295): distance code 13, 5 bits after the codeword, distance 97-128. -/
  | dsym13
  /-- DSYM_14 (R295): distance code 14, 6 bits after the codeword, distance 129-192. -/
  | dsym14
  /-- DSYM_15 (R295): distance code 15, 6 bits after the codeword, distance 193-256. -/
  | dsym15
  /-- DSYM_16 (R295): distance code 16, 7 bits after the codeword, distance 257-384. -/
  | dsym16
  /-- DSYM_17 (R295): distance code 17, 7 bits after the codeword, distance 385-512. -/
  | dsym17
  /-- DSYM_18 (R295): distance code 18, 8 bits after the codeword, distance 513-768. -/
  | dsym18
  /-- DSYM_19 (R295): distance code 19, 8 bits after the codeword, distance 769-1024. -/
  | dsym19
  /-- DSYM_20 (R295): distance code 20, 9 bits after the codeword, distance 1025-1536. -/
  | dsym20
  /-- DSYM_21 (R295): distance code 21, 9 bits after the codeword, distance 1537-2048. -/
  | dsym21
  /-- DSYM_22 (R295): distance code 22, 10 bits after the codeword, distance 2049-3072. -/
  | dsym22
  /-- DSYM_23 (R295): distance code 23, 10 bits after the codeword, distance 3073-4096. -/
  | dsym23
  /-- DSYM_24 (R295): distance code 24, 11 bits after the codeword, distance 4097-6144. -/
  | dsym24
  /-- DSYM_25 (R295): distance code 25, 11 bits after the codeword, distance 6145-8192. -/
  | dsym25
  /-- DSYM_26 (R295): distance code 26, 12 bits after the codeword, distance 8193-12288. -/
  | dsym26
  /-- DSYM_27 (R295): distance code 27, 12 bits after the codeword, distance 12289-16384. -/
  | dsym27
  /-- DSYM_28 (R295): distance code 28, 13 bits after the codeword, distance 16385-24576. -/
  | dsym28
  /-- DSYM_29 (R295): distance code 29, 13 bits after the codeword, distance 24577-32768. -/
  | dsym29
  /-- DSYM_30 (R295): invalid distance code. -/
  | dsym30
  /-- DSYM_31 (R295): invalid distance code. -/
  | dsym31
  /-- START (R338): the host writes CTRL with bit 0 = 1. -/
  | start
  deriving DecidableEq, Repr

end Sys2Proof
end

