-- ==== Sys2Proof/WellFormed.lean ====
section
/-! DEFINITION. Which instructions are well formed: the operands a stream can encode. Every operand but
DYNHDR's is as wide as its field, so only DYNHDR has something to check (30_encoding.md R114). -/

namespace Sys2Proof

/-- R114: HLIT is 257 to 288, HDIST 1 to 32 and HCLEN 4 to 19; every other row admits every value of
its fields. -/
def Instr.wellFormed : Instr → Bool
  | .blockStored _ => true
  | .blockFixed _ => true
  | .blockDynamic _ => true
  | .blockReserved _ => true
  | .stored _ _ => true
  | .storedByte _ => true
  | .dynhdr hlit hdist hclen =>
    257 ≤ hlit.toNat && hlit.toNat ≤ 288 && 1 ≤ hdist.toNat && hdist.toNat ≤ 32 &&
      4 ≤ hclen.toNat && hclen.toNat ≤ 19
  | .cllen _ => true
  | .cl _ => true
  | .cl16 => true
  | .cl17 => true
  | .cl18 => true
  | .lit _ => true
  | .eob => true
  | .lsym257 => true
  | .lsym258 => true
  | .lsym259 => true
  | .lsym260 => true
  | .lsym261 => true
  | .lsym262 => true
  | .lsym263 => true
  | .lsym264 => true
  | .lsym265 => true
  | .lsym266 => true
  | .lsym267 => true
  | .lsym268 => true
  | .lsym269 => true
  | .lsym270 => true
  | .lsym271 => true
  | .lsym272 => true
  | .lsym273 => true
  | .lsym274 => true
  | .lsym275 => true
  | .lsym276 => true
  | .lsym277 => true
  | .lsym278 => true
  | .lsym279 => true
  | .lsym280 => true
  | .lsym281 => true
  | .lsym282 => true
  | .lsym283 => true
  | .lsym284 => true
  | .lsym285 => true
  | .lsym286 => true
  | .lsym287 => true
  | .dsym0 => true
  | .dsym1 => true
  | .dsym2 => true
  | .dsym3 => true
  | .dsym4 => true
  | .dsym5 => true
  | .dsym6 => true
  | .dsym7 => true
  | .dsym8 => true
  | .dsym9 => true
  | .dsym10 => true
  | .dsym11 => true
  | .dsym12 => true
  | .dsym13 => true
  | .dsym14 => true
  | .dsym15 => true
  | .dsym16 => true
  | .dsym17 => true
  | .dsym18 => true
  | .dsym19 => true
  | .dsym20 => true
  | .dsym21 => true
  | .dsym22 => true
  | .dsym23 => true
  | .dsym24 => true
  | .dsym25 => true
  | .dsym26 => true
  | .dsym27 => true
  | .dsym28 => true
  | .dsym29 => true
  | .dsym30 => true
  | .dsym31 => true
  | .start => true

end Sys2Proof
end

