-- ==== Sys2Proof/Decode.lean ====
section
/-! DEFINITION. The decoder: from a format and a value of that format to an instruction or a named
rejection, by the rows of spec/opcode_table.json; the encoder, from the same rows; and the stream
bits of an element (30_encoding.md). -/

namespace Sys2Proof

/-- The nine formats of the table's rows (30_encoding.md, preamble). The FSM state selects the
format of the next stream element (R127); `hostCtrlWrite` is the host's write to `CTRL`. -/
inductive Format where
  | blockHeader | storedHeader | storedData | dynamicHeader | clLength
  | clSymbol | litlenSymbol | distanceSymbol | hostCtrlWrite
  deriving DecidableEq, Repr

/-- How wide a value of the format is: the stream bits of a fixed field, the width of the alphabet
value that DECODE returns for a Huffman symbol, or the width of `CTRL` (R127, 10_state.md R37, R44). -/
def Format.bits : Format → Nat
  | .blockHeader => 3
  | .storedHeader => 32
  | .storedData => 8
  | .dynamicHeader => 14
  | .clLength => 3
  | .clSymbol => 5
  | .litlenSymbol => 9
  | .distanceSymbol => 5
  | .hostCtrlWrite => 32

/-- Why a value is no instruction: `tooWide`, it does not fit the format; `clSymbolAbove18`,
`litlenSymbolAbove287` and `startBitClear`, no row of the format matches it; `noRow`, no row of a
format whose rows cover every value (it does not arise). -/
inductive DecodeError where
  | tooWide | clSymbolAbove18 | litlenSymbolAbove287 | startBitClear | noRow
  deriving DecidableEq, Repr

/-- A row of the opcode table: its mask and match, and the instruction it stands for. -/
structure Row where
  mask    : Nat
  pattern : Nat
  make    : Nat → Instr

/-- The row matches the value. -/
def Row.hits (r : Row) (w : Nat) : Bool := w &&& r.mask == r.pattern

/-- Bits `hi` down to `lo` of `w`, zero-extended (00_scope.md R8). -/
def bitField (hi lo w : Nat) : Nat := (w >>> lo) % 2 ^ (hi - lo + 1)

/-- R111: value = BFINAL | BTYPE << 1. -/
def blockHeaderRows : List Row := [
  ⟨0x6, 0x0, fun w => .blockStored (BitVec.ofNat 1 (bitField 0 0 w))⟩,
  ⟨0x6, 0x2, fun w => .blockFixed (BitVec.ofNat 1 (bitField 0 0 w))⟩,
  ⟨0x6, 0x4, fun w => .blockDynamic (BitVec.ofNat 1 (bitField 0 0 w))⟩,
  ⟨0x6, 0x6, fun w => .blockReserved (BitVec.ofNat 1 (bitField 0 0 w))⟩]

/-- R112: LEN in bits 15:0, NLEN in bits 31:16. -/
def storedHeaderRows : List Row := [
  ⟨0x00000000, 0x00000000, fun w => .stored (BitVec.ofNat 16 (bitField 15 0 w)) (BitVec.ofNat 16 (bitField 31 16 w))⟩]

/-- R112: one data byte. -/
def storedDataRows : List Row := [
  ⟨0x00, 0x00, fun w => .storedByte (BitVec.ofNat 8 (bitField 7 0 w))⟩]

/-- R114: HLIT − 257 in bits 4:0, HDIST − 1 in bits 9:5, HCLEN − 4 in bits 13:10. -/
def dynamicHeaderRows : List Row := [
  ⟨0x0000, 0x0000, fun w => .dynhdr (BitVec.ofNat 9 (bitField 4 0 w + 257)) (BitVec.ofNat 6 (bitField 9 5 w + 1))
      (BitVec.ofNat 5 (bitField 13 10 w + 4))⟩]

/-- R114, R115: a 3-bit length. -/
def clLengthRows : List Row := [
  ⟨0x0, 0x0, fun w => .cllen (BitVec.ofNat 3 (bitField 2 0 w))⟩]

/-- R116: the value DECODE(CL) returned. -/
def clSymbolRows : List Row := [
  ⟨0x10, 0x00, fun w => .cl (BitVec.ofNat 4 (bitField 3 0 w))⟩,
  ⟨0x1F, 0x10, fun _ => .cl16⟩,
  ⟨0x1F, 0x11, fun _ => .cl17⟩,
  ⟨0x1F, 0x12, fun _ => .cl18⟩]

/-- R118: literals and end of block. -/
def literalRows : List Row := [
  ⟨0x100, 0x000, fun w => .lit (BitVec.ofNat 8 (bitField 7 0 w))⟩,
  ⟨0x1FF, 0x100, fun _ => .eob⟩]

/-- R118, R119: the length codes 257 to 285. -/
def lengthRows : List Row := [
  ⟨0x1FF, 0x101, fun _ => .lsym257⟩,
  ⟨0x1FF, 0x102, fun _ => .lsym258⟩,
  ⟨0x1FF, 0x103, fun _ => .lsym259⟩,
  ⟨0x1FF, 0x104, fun _ => .lsym260⟩,
  ⟨0x1FF, 0x105, fun _ => .lsym261⟩,
  ⟨0x1FF, 0x106, fun _ => .lsym262⟩,
  ⟨0x1FF, 0x107, fun _ => .lsym263⟩,
  ⟨0x1FF, 0x108, fun _ => .lsym264⟩,
  ⟨0x1FF, 0x109, fun _ => .lsym265⟩,
  ⟨0x1FF, 0x10A, fun _ => .lsym266⟩,
  ⟨0x1FF, 0x10B, fun _ => .lsym267⟩,
  ⟨0x1FF, 0x10C, fun _ => .lsym268⟩,
  ⟨0x1FF, 0x10D, fun _ => .lsym269⟩,
  ⟨0x1FF, 0x10E, fun _ => .lsym270⟩,
  ⟨0x1FF, 0x10F, fun _ => .lsym271⟩] ++ [
  ⟨0x1FF, 0x110, fun _ => .lsym272⟩,
  ⟨0x1FF, 0x111, fun _ => .lsym273⟩,
  ⟨0x1FF, 0x112, fun _ => .lsym274⟩,
  ⟨0x1FF, 0x113, fun _ => .lsym275⟩,
  ⟨0x1FF, 0x114, fun _ => .lsym276⟩,
  ⟨0x1FF, 0x115, fun _ => .lsym277⟩,
  ⟨0x1FF, 0x116, fun _ => .lsym278⟩,
  ⟨0x1FF, 0x117, fun _ => .lsym279⟩,
  ⟨0x1FF, 0x118, fun _ => .lsym280⟩,
  ⟨0x1FF, 0x119, fun _ => .lsym281⟩,
  ⟨0x1FF, 0x11A, fun _ => .lsym282⟩,
  ⟨0x1FF, 0x11B, fun _ => .lsym283⟩,
  ⟨0x1FF, 0x11C, fun _ => .lsym284⟩,
  ⟨0x1FF, 0x11D, fun _ => .lsym285⟩]

/-- R118: the invalid symbols 286 and 287. -/
def invalidLitlenRows : List Row := [
  ⟨0x1FF, 0x11E, fun _ => .lsym286⟩,
  ⟨0x1FF, 0x11F, fun _ => .lsym287⟩]

/-- R118: the value DECODE(LLSEL) returned. -/
def litlenRows : List Row := literalRows ++ lengthRows ++ invalidLitlenRows

/-- R121: the value DECODE(DTSEL) returned. -/
def distanceRows : List Row := [
  ⟨0x1F, 0x00, fun _ => .dsym0⟩,
  ⟨0x1F, 0x01, fun _ => .dsym1⟩,
  ⟨0x1F, 0x02, fun _ => .dsym2⟩,
  ⟨0x1F, 0x03, fun _ => .dsym3⟩,
  ⟨0x1F, 0x04, fun _ => .dsym4⟩,
  ⟨0x1F, 0x05, fun _ => .dsym5⟩,
  ⟨0x1F, 0x06, fun _ => .dsym6⟩,
  ⟨0x1F, 0x07, fun _ => .dsym7⟩,
  ⟨0x1F, 0x08, fun _ => .dsym8⟩,
  ⟨0x1F, 0x09, fun _ => .dsym9⟩,
  ⟨0x1F, 0x0A, fun _ => .dsym10⟩,
  ⟨0x1F, 0x0B, fun _ => .dsym11⟩,
  ⟨0x1F, 0x0C, fun _ => .dsym12⟩,
  ⟨0x1F, 0x0D, fun _ => .dsym13⟩,
  ⟨0x1F, 0x0E, fun _ => .dsym14⟩,
  ⟨0x1F, 0x0F, fun _ => .dsym15⟩] ++ [
  ⟨0x1F, 0x10, fun _ => .dsym16⟩,
  ⟨0x1F, 0x11, fun _ => .dsym17⟩,
  ⟨0x1F, 0x12, fun _ => .dsym18⟩,
  ⟨0x1F, 0x13, fun _ => .dsym19⟩,
  ⟨0x1F, 0x14, fun _ => .dsym20⟩,
  ⟨0x1F, 0x15, fun _ => .dsym21⟩,
  ⟨0x1F, 0x16, fun _ => .dsym22⟩,
  ⟨0x1F, 0x17, fun _ => .dsym23⟩,
  ⟨0x1F, 0x18, fun _ => .dsym24⟩,
  ⟨0x1F, 0x19, fun _ => .dsym25⟩,
  ⟨0x1F, 0x1A, fun _ => .dsym26⟩,
  ⟨0x1F, 0x1B, fun _ => .dsym27⟩,
  ⟨0x1F, 0x1C, fun _ => .dsym28⟩,
  ⟨0x1F, 0x1D, fun _ => .dsym29⟩,
  ⟨0x1F, 0x1E, fun _ => .dsym30⟩,
  ⟨0x1F, 0x1F, fun _ => .dsym31⟩]

/-- 10_state.md R44, 60_exceptions.md R338: bit 0 of a write to CTRL. -/
def hostCtrlRows : List Row := [
  ⟨0x1, 0x1, fun _ => .start⟩]

/-- The rows of a format, as spec/opcode_table.json lists them. -/
def Format.rows : Format → List Row
  | .blockHeader => blockHeaderRows
  | .storedHeader => storedHeaderRows
  | .storedData => storedDataRows
  | .dynamicHeader => dynamicHeaderRows
  | .clLength => clLengthRows
  | .clSymbol => clSymbolRows
  | .litlenSymbol => litlenRows
  | .distanceSymbol => distanceRows
  | .hostCtrlWrite => hostCtrlRows

/-- The name of the rejection of a value that no row of the format matches. -/
def Format.rejection : Format → DecodeError
  | .clSymbol => .clSymbolAbove18
  | .litlenSymbol => .litlenSymbolAbove287
  | .hostCtrlWrite => .startBitClear
  | .blockHeader => .noRow
  | .storedHeader => .noRow
  | .storedData => .noRow
  | .dynamicHeader => .noRow
  | .clLength => .noRow
  | .distanceSymbol => .noRow

/-- Decode a value of a format: the row that matches it. At most one row of a format matches. -/
def decode (f : Format) (w : Nat) : Except DecodeError Instr :=
  if 2 ^ f.bits ≤ w then .error .tooWide
  else
    match f.rows.find? (·.hits w) with
    | some r => .ok (r.make w)
    | none => .error f.rejection

/-- An encoded instruction: its format and its value in that format. -/
structure TableWord where
  fmt   : Format
  value : Nat
  deriving DecidableEq, Repr

/-- The word of an instruction, from the same rows: the row's match, and each field at its place. -/
def encode : Instr → TableWord
  | .blockStored bfinal => ⟨.blockHeader, bfinal.toNat⟩
  | .blockFixed bfinal => ⟨.blockHeader, bfinal.toNat + 2⟩
  | .blockDynamic bfinal => ⟨.blockHeader, bfinal.toNat + 4⟩
  | .blockReserved bfinal => ⟨.blockHeader, bfinal.toNat + 6⟩
  | .stored len nlen => ⟨.storedHeader, len.toNat + nlen.toNat <<< 16⟩
  | .storedByte b => ⟨.storedData, b.toNat⟩
  | .dynhdr hlit hdist hclen => ⟨.dynamicHeader, (hlit.toNat - 257) + (hdist.toNat - 1) <<< 5 + (hclen.toNat - 4) <<< 10⟩
  | .cllen length => ⟨.clLength, length.toNat⟩
  | .cl v => ⟨.clSymbol, v.toNat⟩
  | .cl16 => ⟨.clSymbol, 0x10⟩
  | .cl17 => ⟨.clSymbol, 0x11⟩
  | .cl18 => ⟨.clSymbol, 0x12⟩
  | .lit b => ⟨.litlenSymbol, b.toNat⟩
  | .eob => ⟨.litlenSymbol, 0x100⟩
  | .lsym257 => ⟨.litlenSymbol, 0x101⟩
  | .lsym258 => ⟨.litlenSymbol, 0x102⟩
  | .lsym259 => ⟨.litlenSymbol, 0x103⟩
  | .lsym260 => ⟨.litlenSymbol, 0x104⟩
  | .lsym261 => ⟨.litlenSymbol, 0x105⟩
  | .lsym262 => ⟨.litlenSymbol, 0x106⟩
  | .lsym263 => ⟨.litlenSymbol, 0x107⟩
  | .lsym264 => ⟨.litlenSymbol, 0x108⟩
  | .lsym265 => ⟨.litlenSymbol, 0x109⟩
  | .lsym266 => ⟨.litlenSymbol, 0x10A⟩
  | .lsym267 => ⟨.litlenSymbol, 0x10B⟩
  | .lsym268 => ⟨.litlenSymbol, 0x10C⟩
  | .lsym269 => ⟨.litlenSymbol, 0x10D⟩
  | .lsym270 => ⟨.litlenSymbol, 0x10E⟩
  | .lsym271 => ⟨.litlenSymbol, 0x10F⟩
  | .lsym272 => ⟨.litlenSymbol, 0x110⟩
  | .lsym273 => ⟨.litlenSymbol, 0x111⟩
  | .lsym274 => ⟨.litlenSymbol, 0x112⟩
  | .lsym275 => ⟨.litlenSymbol, 0x113⟩
  | .lsym276 => ⟨.litlenSymbol, 0x114⟩
  | .lsym277 => ⟨.litlenSymbol, 0x115⟩
  | .lsym278 => ⟨.litlenSymbol, 0x116⟩
  | .lsym279 => ⟨.litlenSymbol, 0x117⟩
  | .lsym280 => ⟨.litlenSymbol, 0x118⟩
  | .lsym281 => ⟨.litlenSymbol, 0x119⟩
  | .lsym282 => ⟨.litlenSymbol, 0x11A⟩
  | .lsym283 => ⟨.litlenSymbol, 0x11B⟩
  | .lsym284 => ⟨.litlenSymbol, 0x11C⟩
  | .lsym285 => ⟨.litlenSymbol, 0x11D⟩
  | .lsym286 => ⟨.litlenSymbol, 0x11E⟩
  | .lsym287 => ⟨.litlenSymbol, 0x11F⟩
  | .dsym0 => ⟨.distanceSymbol, 0x00⟩
  | .dsym1 => ⟨.distanceSymbol, 0x01⟩
  | .dsym2 => ⟨.distanceSymbol, 0x02⟩
  | .dsym3 => ⟨.distanceSymbol, 0x03⟩
  | .dsym4 => ⟨.distanceSymbol, 0x04⟩
  | .dsym5 => ⟨.distanceSymbol, 0x05⟩
  | .dsym6 => ⟨.distanceSymbol, 0x06⟩
  | .dsym7 => ⟨.distanceSymbol, 0x07⟩
  | .dsym8 => ⟨.distanceSymbol, 0x08⟩
  | .dsym9 => ⟨.distanceSymbol, 0x09⟩
  | .dsym10 => ⟨.distanceSymbol, 0x0A⟩
  | .dsym11 => ⟨.distanceSymbol, 0x0B⟩
  | .dsym12 => ⟨.distanceSymbol, 0x0C⟩
  | .dsym13 => ⟨.distanceSymbol, 0x0D⟩
  | .dsym14 => ⟨.distanceSymbol, 0x0E⟩
  | .dsym15 => ⟨.distanceSymbol, 0x0F⟩
  | .dsym16 => ⟨.distanceSymbol, 0x10⟩
  | .dsym17 => ⟨.distanceSymbol, 0x11⟩
  | .dsym18 => ⟨.distanceSymbol, 0x12⟩
  | .dsym19 => ⟨.distanceSymbol, 0x13⟩
  | .dsym20 => ⟨.distanceSymbol, 0x14⟩
  | .dsym21 => ⟨.distanceSymbol, 0x15⟩
  | .dsym22 => ⟨.distanceSymbol, 0x16⟩
  | .dsym23 => ⟨.distanceSymbol, 0x17⟩
  | .dsym24 => ⟨.distanceSymbol, 0x18⟩
  | .dsym25 => ⟨.distanceSymbol, 0x19⟩
  | .dsym26 => ⟨.distanceSymbol, 0x1A⟩
  | .dsym27 => ⟨.distanceSymbol, 0x1B⟩
  | .dsym28 => ⟨.distanceSymbol, 0x1C⟩
  | .dsym29 => ⟨.distanceSymbol, 0x1D⟩
  | .dsym30 => ⟨.distanceSymbol, 0x1E⟩
  | .dsym31 => ⟨.distanceSymbol, 0x1F⟩
  | .start => ⟨.hostCtrlWrite, 0x1⟩

/-- The length code c = symbol − 257 of a length symbol 257 to 285 (R119). -/
def Instr.lengthCode? (i : Instr) : Option Nat :=
  if (encode i).fmt = .litlenSymbol ∧ 257 ≤ (encode i).value ∧ (encode i).value ≤ 285 then
    some ((encode i).value - 257)
  else none

/-- The distance code c of a distance symbol 0 to 31 (R121). -/
def Instr.distanceCode? (i : Instr) : Option Nat :=
  if (encode i).fmt = .distanceSymbol then some (encode i).value else none

/-- A stream of bits from a fixed field: the first stream bit is bit 0 of the value (20_memory.md
R85, R86). -/
def fieldBits (n v : Nat) : List Bool := (List.range n).map fun i => v.testBit i

/-- The stream bits of an n-bit codeword: the first stream bit is its most significant bit
(20_memory.md R87). -/
def codeBits (n v : Nat) : List Bool := (fieldBits n v).reverse

/-- A byte from at most 8 stream bits, the first in bit 0 (20_memory.md R85). -/
def packByte (bits : List Bool) : Byte :=
  BitVec.ofNat 8 (bits.foldr (fun b acc => b.toNat + 2 * acc) 0)

/-- The first `k` bytes of a bit stream, filled up with zero bits (20_memory.md R85). -/
def packBytes : Nat → List Bool → List Byte
  | 0, _ => []
  | k + 1, bits => packByte (bits.take 8) :: packBytes k (bits.drop 8)

/-- `first(L)` of R117 for the code lengths `len`: the codeword of the first symbol of length `L`. -/
def firstCode (len : List Nat) : Nat → Nat
  | 0 => 0
  | 1 => 0
  | L + 2 => (firstCode len (L + 1) + len.count (L + 1)) <<< 1

/-- R117: the canonical codeword of symbol `s`, whose length is `len[s]`: `first(L) + j`, where `s` is
the j-th symbol of its length. -/
def codeword (len : List Nat) (s : Nat) : Nat :=
  firstCode len (len.getD s 0) + (len.take s).count (len.getD s 0)

/-- R123: the length and the codeword of a literal/length symbol under the fixed code. -/
def fixedLitlenCode (s : Nat) : Nat × Nat :=
  if s < 144 then (8, 0x30 + s)
  else if s < 256 then (9, 0x190 + (s - 144))
  else if s < 280 then (7, s - 256)
  else (8, 0xC0 + (s - 280))

/-- The stream bits of an element with value `w` of a format: its field bits (R111 to R116), its
codeword under the fixed codes (R123, R124), or, for a code-length symbol, its codeword under the
code that gives all 19 symbols length 5, which is the symbol itself (R117). -/
def streamBits : Format → Nat → List Bool
  | .blockHeader, w => fieldBits 3 w
  | .storedHeader, w => fieldBits 32 w
  | .storedData, w => fieldBits 8 w
  | .dynamicHeader, w => fieldBits 14 w
  | .clLength, w => fieldBits 3 w
  | .clSymbol, w => codeBits 5 w
  | .litlenSymbol, w => codeBits (fixedLitlenCode w).1 (fixedLitlenCode w).2
  | .distanceSymbol, w => codeBits 5 w
  | .hostCtrlWrite, _ => []

/-- The format in which a word of the host's question is read. Several formats share the words of one
byte and of two (the FSM state tells them apart, R127, and a word alone does not), so the model names
one format for each word. DESIGN CHOICE (log 6). -/
def tableFormat (nbits w : Nat) : Format :=
  if nbits = 32 then .storedHeader
  else if nbits = 16 then
    if w < 288 then .litlenSymbol else .dynamicHeader
  else if w = 1 then .hostCtrlWrite
  else if w < 8 ∧ w % 2 = 0 then .blockHeader
  else if 16 ≤ w ∧ w ≤ 18 then .clSymbol
  else if w < 32 then .distanceSymbol
  else .storedData

/-- The instruction the decoder reads from a word of `nbits` bits numbered as the opcode table numbers
them, in the format `tableFormat` names; none where the decoder rejects it. -/
def decodeTableWord (nbits w : Nat) : Option Instr :=
  (decode (tableFormat nbits w) w).toOption

end Sys2Proof
end

