-- ==== Sys2Proof/Machine/State.lean ====
section
/-! DEFINITION. The block's state, all of it (10_state.md R30), as plain data; why a step can stop; and
the state after reset (10_state.md R49, 70_reset_and_hazards.md R370). -/

namespace Sys2Proof.Machine

/-- `STATE` (10_state.md R31): all 16 values of the 4-bit register. No rule writes `unused15`. -/
inductive Fsm where
  | idle | hdr | storedHdr | storedCopy | dynHdr | dynClLen | dynClBuild | dynLens | dynBuild
  | sym | dist | copy | blockEnd | done | error | unused15
  deriving DecidableEq, Repr

/-- `ERR_CODE` by the names of 60_exceptions.md R331. Its codes 12 to 15 are reserved and never
written, and have no name here (log 10). -/
inductive ErrCode where
  | none | truncated | unknownBlockType | storedLenMismatch | invalidCode | invalidLitlenCode
  | invalidDistanceCode | invalidDynamicTree | noPreviousLength | distanceTooFar
  | bitRequestTooWide | outputOverflow
  deriving DecidableEq, Repr

/-- `TSEL` (10_state.md R36): 0 = FIXED, 1 = DYN. -/
inductive TSel where
  | fixed | dyn
  deriving DecidableEq, Repr

/-- The bit reader's state (40_bit_reader.md R170; 10_state.md R32, R33): `BR_POS`, `BR_BUF`,
`BR_CNT`. -/
structure BitReader where
  pos : Nat
  buf : BitVec 7
  cnt : BitVec 3
  deriving DecidableEq, Repr

/-- A Huffman table (10_state.md R37): `COUNT[0..15]` of `cw` bits each and `ORDER[0..n-1]` of `ow`
bits each. -/
structure HuffTable (cw ow n : Nat) where
  count : Vector (BitVec cw) 16
  order : Vector (BitVec ow) n
  deriving DecidableEq, Repr

/-- The widths of R37 for `LL` and `FLL`. -/
abbrev LLTable := HuffTable 9 9 Config.llAlphaMax
/-- The widths of R37 for `DT` and `FDT`. -/
abbrev DTTable := HuffTable 6 5 Config.distAlphaMax
/-- The widths of R37 for `CL`. -/
abbrev CLTable := HuffTable 5 5 Config.clAlpha

/-- A byte memory (20_memory.md R80): the bytes something has loaded or appended, by address, in rising
order. An address that is not listed holds no value (log 2). -/
abbrev Memory := List Host.Cell

/-- The canonical form of a memory: addresses strictly rising. (An unlisted address reads as no
value, so no entry can equal what it reads as.) -/
abbrev Memory.wf (m : Memory) : Prop := m.Pairwise fun c d => c.1 < d.1

/-- A move of the host between two block steps (log 4): `pass`, it does nothing and the block takes a
step; `write`, it writes a 32-bit value to the register at an offset (10_state.md R44); `load`, it
stores a byte into the input memory (70_reset_and_hazards.md R374); `reset`, it asserts reset (R370). -/
inductive HostAct where
  | pass
  | write (offset : Nat) (value : Word)
  | load (addr : Nat) (byte : Byte)
  | reset
  deriving DecidableEq, Repr

/-- The machine's state: every register and memory of 10_state.md R30 under its own name, the OPEN
parameters of 00_scope.md R7, and the host's pending moves (the model's own field). The ROM tables
`FLL` and `FDT` are constants (log 13). -/
structure State where
  /-- `ADDR_W` and `OUT_CAP` (00_scope.md R7); no step writes them. -/
  params  : Params
  /-- The host's pending moves, oldest first (log 4). -/
  host    : List HostAct
  /-- `STATE` (R31). -/
  fsm     : Fsm
  /-- `BR_POS`, `BR_BUF`, `BR_CNT` (R32, R33). -/
  br      : BitReader
  /-- `BFINAL` (R35). -/
  bfinal  : BitVec 1
  /-- `BTYPE` (R35). -/
  btype   : BitVec 2
  /-- `TSEL` (R36). -/
  tsel    : TSel
  /-- `LL` (R37). -/
  ll      : LLTable
  /-- `DT` (R37). -/
  dt      : DTTable
  /-- `CL` (R37). -/
  cl      : CLTable
  /-- `HLIT` (R39). -/
  hlit    : BitVec 9
  /-- `HDIST` (R39). -/
  hdist   : BitVec 6
  /-- `HCLEN` (R39). -/
  hclen   : BitVec 5
  /-- `CL_IDX` (R39). -/
  clIdx   : BitVec 5
  /-- `CL_LENS[0..18]` (R39). -/
  clLens  : Vector (BitVec 3) 19
  /-- `LENS[0..319]` (R40). -/
  lens    : Vector (BitVec 4) 320
  /-- `LK` (R40). -/
  lk      : BitVec 9
  /-- `ST_REM` (R41). -/
  stRem   : BitVec 16
  /-- `M_LEN` (R42). -/
  mLen    : BitVec 9
  /-- `M_DIST` (R42). -/
  mDist   : BitVec 16
  /-- `M_REM` (R42). -/
  mRem    : BitVec 9
  /-- `OUT_LEN` (R43). -/
  outLen  : Nat
  /-- `IN_LEN` (R43). -/
  inLen   : Nat
  /-- `ERR_CODE` (R46). -/
  errCode : ErrCode
  /-- The input memory `IN` (20_memory.md R81). -/
  inMem   : Memory
  /-- The output memory `OUT` (20_memory.md R83). -/
  outMem  : Memory
  deriving DecidableEq, Repr

/-- Why the MODEL stops where the spec names no behaviour. Each is raised only in a state or by a host
move that the spec excludes ("a fault of the model", 10_state.md R31 and R49, or the operand line of a
rule), and each is SAFE: the model stops where the hardware is not described (log 9, log 2, log 14).
The machine's own errors are not faults: they are taken (60_exceptions.md R332). -/
inductive Fault where
  /-- A step met `STATE` value 15 (R31, U8). Raised by blockStep. Safe. -/
  | unusedFsmState
  /-- InByte of an address below `IN_LEN` that nothing has loaded (R49). Raised by inByte. Safe. -/
  | inputByteNotLoaded
  /-- OutRead of an address below `OUT_LEN` that holds no value (R49). Raised by outRead. Safe. -/
  | outputByteNotWritten
  /-- OutRead outside its precondition `a < OUT_LEN`, or COPY with `M_DIST` outside 1 to `OUT_LEN`
  (R83, R297). Raised by outRead and copyStep. Safe. -/
  | outReadOutOfRange
  /-- COPY with `M_REM` = 0 (its operand line says 1 to 258, R297). Raised by copyStep. Safe. -/
  | copyCountZero
  /-- STORED_COPY with `ST_REM` = 0 (its operand line says 1 to 65535, R244). Raised by execStoredByte. Safe. -/
  | storedCountZero
  /-- DYN_CLLEN with `CL_IDX` above 18, where PERM has no entry (R115, R246). Raised by execCllen. Safe. -/
  | clIndexOutOfRange
  /-- A write or read of `LENS` at an index outside 0 to 319 (R40). Raised by putLens and lensAt. Safe. -/
  | lensIndexOutOfRange
  /-- DYN_BUILD with `HLIT` above 288 or `HDIST` above 32 (R39, R201). Raised by dynBuildStep. Safe. -/
  | dynCountsOutOfRange
  /-- DECODE met an index of `ORDER` outside the array (R203 shows none arises). Raised by decodeSym. Safe. -/
  | orderIndexOutOfRange
  /-- DECODE(CL) returned 19 to 31, for which R248 has no branch. Raised by fetch. Safe. -/
  | undecodableElement
  /-- A host access to an offset that is no register of R44. Raised by hostWrite. Safe. -/
  | noSuchHostRegister
  /-- A host load at an address that `ADDR_W` bits cannot hold (R7). Raised by hostLoad. Safe. -/
  | noSuchInputAddress
  deriving DecidableEq, Repr

/-- Why a step has no meaning. -/
inductive Refusal where
  /-- Raised by exec's arm of an instruction that has no meaning yet; no arm is left so. Safe. -/
  | notModelled (mnemonic : String)
  /-- Raised by hostLoad: the host loads the input memory while BUSY, and "the model gives the host no
  step that writes them" (20_memory.md R93; U16 "refuse"). Safe. -/
  | hostLoadWhileBusy
  deriving DecidableEq, Repr

/-- A table RAM at reset: the spec leaves it unspecified, the model holds zeros. DESIGN CHOICE (log 1). -/
def HuffTable.zero (cw ow n : Nat) : HuffTable cw ow n :=
  { count := Vector.replicate 16 0, order := Vector.replicate n 0 }

/-- The bit reader holding no bits, at input address 0 (10_state.md R49, 70_reset_and_hazards.md R372). -/
def BitReader.empty : BitReader := { pos := 0, buf := 0, cnt := 0 }

/-- The state after reset (10_state.md R49). `STATE`, the bit reader, `ERR_CODE`, `OUT_LEN` and `IN_LEN`
hold the values R49 gives; both memories hold no value anywhere (log 2). The registers R49 leaves
unspecified hold zeros, the parameters are `Config.resetParams` and no host move is pending: DESIGN
CHOICES (log 1, log 3, log 4). Of these, one statement rests on the parameters (InvariantHoldsAtReset)
and none on the zeros or the empty list. -/
def State.reset : State where
  params  := Config.resetParams
  host    := []
  fsm     := .idle
  br      := BitReader.empty
  bfinal  := 0
  btype   := 0
  tsel    := .fixed
  ll      := HuffTable.zero 9 9 Config.llAlphaMax
  dt      := HuffTable.zero 6 5 Config.distAlphaMax
  cl      := HuffTable.zero 5 5 Config.clAlpha
  hlit    := 0
  hdist   := 0
  hclen   := 0
  clIdx   := 0
  clLens  := Vector.replicate 19 0
  lens    := Vector.replicate 320 0
  lk      := 0
  stRem   := 0
  mLen    := 0
  mDist   := 0
  mRem    := 0
  outLen  := 0
  inLen   := 0
  errCode := .none
  inMem   := []
  outMem  := []

end Sys2Proof.Machine
end

