-- ==== Sys2Proof/Machine/Flags.lean ====
section
/-! DEFINITION. The condition flags and what is computed from STATE: `BFINAL` and `BTYPE` (10_state.md
R35), `TSEL` (R36), `STATUS.RUN` and the level outputs (R45). No operation writes a flag as a side
effect (R35). -/

namespace Sys2Proof.Machine

/-- HDR's write of the header flags (42_block_fsm.md R241). -/
def State.setHeader (s : State) (bfinal : BitVec 1) (btype : BitVec 2) : State :=
  { s with bfinal := bfinal, btype := btype }

/-- The write of `TSEL` (10_state.md R36), by HDR for BTYPE 01 and by DYN_BUILD. -/
def State.setTsel (s : State) (t : TSel) : State := { s with tsel := t }

/-- The three values of `STATE` in which the block waits for START (42_block_fsm.md R240, 60_exceptions.md
R344). -/
def Fsm.waiting : Fsm → Bool
  | .idle => true
  | .done => true
  | .error => true
  | .hdr => false
  | .storedHdr => false
  | .storedCopy => false
  | .dynHdr => false
  | .dynClLen => false
  | .dynClBuild => false
  | .dynLens => false
  | .dynBuild => false
  | .sym => false
  | .dist => false
  | .copy => false
  | .blockEnd => false
  | .unused15 => false

/-- `STATUS.RUN` (10_state.md R45): 0 IDLE, 2 DONE, 3 ERROR, and 1 (BUSY) for every other value. -/
def Fsm.run (f : Fsm) : BitVec 2 :=
  if f = .idle then 0 else if f = .done then 2 else if f = .error then 3 else 1

/-- The level output `busy` (R45). -/
def State.busy (s : State) : Bool := s.fsm.run == 1

/-- The level output `done` (R45). -/
def State.doneLevel (s : State) : Bool := s.fsm.run == 2

/-- The level output `error` (R45). -/
def State.errorLevel (s : State) : Bool := s.fsm.run == 3

end Sys2Proof.Machine
end

