-- ==== Sys2Proof/Machine/Operands.lean ====
section
/-! DEFINITION. The operand computations of the stream elements: the order of the code-length lengths,
the length and distance functions with their extra-bit counts, the complement of NLEN, and the counts
of the code-length repeats (30_encoding.md R112 to R121). -/

namespace Sys2Proof.Machine

/-- `PERM[0..18]` (30_encoding.md R115). -/
def perm : List Nat := [16, 17, 18, 0, 8, 7, 9, 6, 10, 5, 11, 4, 12, 3, 13, 2, 14, 1, 15]

/-- `LEN_EXTRA(c)` (R119): the number of extra bits after length code `c`. -/
def lenExtra (c : Nat) : Nat := if c < 8 ∨ c = 28 then 0 else c / 4 - 1

/-- `LEN_OF(c, x)` (R119): the match length of length code `c` with extra bits `x`. -/
def lenOf (c x : Nat) : Nat :=
  if c < 8 then c + 3
  else if c = 28 then 258
  else (x ||| ((c % 4 + 4) <<< lenExtra c)) + 3

/-- `DIST_EXTRA(c)` (R121): the number of extra bits after distance code `c`. -/
def distExtra (c : Nat) : Nat := if c < 4 then 0 else c / 2 - 1

/-- `DIST_OF(c, x)` (R121): the distance of distance code `c` with extra bits `x`. -/
def distOf (c x : Nat) : Nat :=
  if c < 4 then c + 1 else (x ||| ((c % 2 + 2) <<< distExtra c)) + 1

/-- `~16 v` (00_scope.md R8). -/
def complement16 (v : BitVec 16) : BitVec 16 := ~~~v

/-- R116, R250: how often CL symbol 16 repeats the previous length, from its 2 extra bits. -/
def repeatCount16 (x : Nat) : Nat := x + 3

/-- R116, R251: how many zero lengths CL symbol 17 writes, from its 3 extra bits. -/
def zeroCount17 (x : Nat) : Nat := x + 3

/-- R116, R252: how many zero lengths CL symbol 18 writes, from its 7 extra bits. -/
def zeroCount18 (x : Nat) : Nat := x + 11

/-- The numeric value of an `ERR_CODE` (60_exceptions.md R331). -/
def errNumber : ErrCode → Nat
  | .none => 0
  | .truncated => 1
  | .unknownBlockType => 2
  | .storedLenMismatch => 3
  | .invalidCode => 4
  | .invalidLitlenCode => 5
  | .invalidDistanceCode => 6
  | .invalidDynamicTree => 7
  | .noPreviousLength => 8
  | .distanceTooFar => 9
  | .bitRequestTooWide => 10
  | .outputOverflow => 11

/-- The 4-bit value of `STATE` (10_state.md R31). -/
def fsmNumber : Fsm → Nat
  | .idle => 0
  | .hdr => 1
  | .storedHdr => 2
  | .storedCopy => 3
  | .dynHdr => 4
  | .dynClLen => 5
  | .dynClBuild => 6
  | .dynLens => 7
  | .dynBuild => 8
  | .sym => 9
  | .dist => 10
  | .copy => 11
  | .blockEnd => 12
  | .done => 13
  | .error => 14
  | .unused15 => 15

end Sys2Proof.Machine
end

