-- ==== Sys2Proof/Machine/Ops.lean ====
section
/-! DEFINITION. The shared operations: the two memories (20_memory.md), the bit reader (40_bit_reader.md),
error entry (60_exceptions.md R332) and RUN_INIT (70_reset_and_hazards.md R372). -/

namespace Sys2Proof.Machine

/-- What ends a step early: the machine raises an error of its own (60_exceptions.md R331), or the model
stops (a `Fault`). -/
inductive Stop where
  | raise (e : ErrCode)
  | fault (f : Fault)
  deriving DecidableEq, Repr

/-- A primitive's answer: a value, or the stop that ends the step at once (00_scope.md R9). -/
abbrev Result (α : Type) := Except Stop α

/-! ## Memories -/

/-- The byte at an address; `none` where nothing has put a value (log 2). -/
def Memory.read? : Memory → Nat → Option Byte
  | [], _ => none
  | (x, v) :: m, a => if x = a then some v else Memory.read? m a

/-- Put a byte at an address, keeping the addresses strictly rising. -/
def Memory.write : Memory → Nat → Byte → Memory
  | [], a, b => [(a, b)]
  | (x, v) :: m, a, b =>
    if a < x then (a, b) :: (x, v) :: m
    else if a = x then (a, b) :: m
    else (x, v) :: Memory.write m a b

/-- Put bytes at consecutive addresses from `a`. -/
def Memory.writeBytes : Memory → Nat → List Byte → Memory
  | m, _, [] => m
  | m, a, b :: bs => Memory.writeBytes (m.write a b) (a + 1) bs

/-- `InByte(a)` (20_memory.md R81). Its callers have tested `a < IN_LEN`. -/
def inByte (mem : Memory) (a : Nat) : Result Byte :=
  match mem.read? a with
  | some b => .ok b
  | none => .error (.fault .inputByteNotLoaded)

/-- `OutRead(a)` (20_memory.md R83), with its precondition `a < OUT_LEN`. -/
def outRead (s : State) (a : Nat) : Result Byte :=
  if a < s.outLen then
    match s.outMem.read? a with
    | some b => .ok b
    | none => .error (.fault .outputByteNotWritten)
  else .error (.fault .outReadOutOfRange)

/-- The two writes of `OutAppend` (20_memory.md R84): `OUT[OUT_LEN] <- v` and `OUT_LEN <- OUT_LEN + 1`. -/
def State.pushByte (s : State) (v : Byte) : State :=
  { s with outMem := s.outMem.write s.outLen v, outLen := s.outLen + 1 }

/-- `OutAppend(v)` (20_memory.md R84). -/
def outAppend (v : Byte) (s : State) : Result State :=
  if s.outLen = s.params.outCap then .error (.raise .outputOverflow) else .ok (s.pushByte v)

/-! ## Bit reader -/

/-- The loop of `GET_BITS` (40_bit_reader.md R171): while fewer than `n` bits are held, pull the byte at
`pos`. The first argument bounds the rounds; each adds 8 bits, so `n` rounds always suffice. -/
def refill (mem : Memory) (len n : Nat) : Nat → Nat → Nat → Nat → Result (Nat × Nat × Nat)
  | 0, acc, held, pos => .ok (acc, held, pos)
  | rounds + 1, acc, held, pos =>
    if held < n then
      if len ≤ pos then .error (.raise .truncated)
      else
        match inByte mem pos with
        | .ok b => refill mem len n rounds (acc ||| (b.toNat <<< held)) (held + 8) (pos + 1)
        | .error e => .error e
    else .ok (acc, held, pos)

/-- The leftover bits, with the bits at and above `BR_CNT` masked off (R171, 70_reset_and_hazards.md R380). -/
def BitReader.leftover (r : BitReader) : Nat := r.buf.toNat &&& ((1 <<< r.cnt.toNat) - 1)

/-- `GET_BITS(n)` (40_bit_reader.md R171, R172) on the input memory `mem` of `len` = IN_LEN bytes: the
value, and the reader after it. -/
def getBits (mem : Memory) (len n : Nat) (r : BitReader) : Result (Nat × BitReader) :=
  if Config.maxGetBits < n then .error (.raise .bitRequestTooWide)
  else
    match refill mem len n n r.leftover r.cnt.toNat r.pos with
    | .ok (acc, held, pos) =>
      .ok (acc &&& ((1 <<< n) - 1),
        { pos := pos, buf := BitVec.ofNat 7 (acc >>> n), cnt := BitVec.ofNat 3 (held - n) })
    | .error e => .error e

/-- `GET_BIT()` (R173). -/
def getBit (mem : Memory) (len : Nat) (r : BitReader) : Result (Nat × BitReader) :=
  match getBits mem len 1 r with
  | .ok (v, r') => .ok (if v ≠ 0 then 1 else 0, r')
  | .error e => .error e

/-- `DROP_ALIGN()` (R174). -/
def dropAlign (r : BitReader) : BitReader := { r with buf := 0, cnt := 0 }

/-- `READ_BYTE()` (R175). -/
def readByte (mem : Memory) (len : Nat) (r : BitReader) : Result (Byte × BitReader) :=
  if len ≤ r.pos then .error (.raise .truncated)
  else
    match inByte mem r.pos with
    | .ok b => .ok (b, { r with pos := r.pos + 1 })
    | .error e => .error e

/-- `READ_U16LE()` (R176): two READ_BYTEs, the low byte first. -/
def readU16le (mem : Memory) (len : Nat) (r : BitReader) : Result (Nat × BitReader) :=
  match readByte mem len r with
  | .error e => .error e
  | .ok (lo, r1) =>
    match readByte mem len r1 with
    | .error e => .error e
    | .ok (hi, r2) => .ok (lo.toNat ||| (hi.toNat <<< 8), r2)

/-- `GET_BITS(n)` on a state's own input and reader. -/
def State.getBits (s : State) (n : Nat) : Result (Nat × BitReader) :=
  Machine.getBits s.inMem s.inLen n s.br

/-! ## Register writes shared by the rules -/

/-- The bit reader's registers after an operation. -/
def State.setBr (s : State) (r : BitReader) : State := { s with br := r }

/-- `STATE <- f` (00_scope.md R9). -/
def State.goto (s : State) (f : Fsm) : State := { s with fsm := f }

/-- The pending moves of the host after one is taken (log 4). -/
def State.setHost (s : State) (h : List HostAct) : State := { s with host := h }

/-! ## Error entry, and the way out of it -/

/-- Error entry (60_exceptions.md R332): exactly two writes. -/
def State.raiseError (s : State) (e : ErrCode) : State := { s with errCode := e, fsm := .error }

/-- How a stop ends a step in state `s`: an error of the machine is taken (R332), a fault stops the
model. -/
def stop (s : State) : Stop → Host.Outcome State Fault Refusal
  | .raise e => .next (s.raiseError e)
  | .fault f => .fault f

/-- The end of a meaning: its next state, or the stop, taken in the state the meaning began in. -/
def finish (s : State) : Result State → Host.Outcome State Fault Refusal
  | .ok t => .next t
  | .error e => stop s e

/-- The atomic commit of a step that began in `s` (00_scope.md R10, 60_exceptions.md R332): where the
element's meaning ended in `ERROR`, only `ERR_CODE` and `STATE` are committed, so the bits the step
had taken from the stream are given back. -/
def commit (s : State) : Host.Outcome State Fault Refusal → Host.Outcome State Fault Refusal
  | .next t => if t.fsm = .error then .next (s.raiseError t.errCode) else .next t
  | .fault f => .fault f
  | .refused r => .refused r

/-- `RUN_INIT()` (70_reset_and_hazards.md R372). It is also the only way out of `ERROR` but reset
(60_exceptions.md R335): nothing of the failed run is resumed. -/
def State.runInit (s : State) : State :=
  { s with br := BitReader.empty, outLen := 0, errCode := .none, fsm := .hdr }

/-- Reset in any state (70_reset_and_hazards.md R370, R371): every piece of state takes its value after
reset. The parameters and the host's later moves are no state of the block and stay (log 15). -/
def State.doReset (s : State) : State := { State.reset with params := s.params, host := s.host }

end Sys2Proof.Machine
end

