-- ==== Sys2Proof/Machine/Huffman.lean ====
section
/-! DEFINITION. The canonical_huffman_decoder (41_huffman.md): BUILD, DECODE and the two ROM tables. -/

namespace Sys2Proof.Machine

/-! ## BUILD -/

/-- Step (a) of BUILD (R201): `COUNT[L]` is the number of symbols of length `L`, for L = 0 to 15. -/
def countLengths (cw : Nat) (len : List Nat) : Vector (BitVec cw) 16 :=
  ⟨((List.range 16).map fun L => BitVec.ofNat cw (len.count L)).toArray, by simp⟩

/-- Step (b) of BUILD (R201): `offs[1] = 0`, `offs[L+1] = offs[L] + COUNT[L]`. -/
def bucketStart (len : List Nat) : Nat → Nat
  | 0 => 0
  | 1 => 0
  | L + 2 => bucketStart len (L + 1) + len.count (L + 1)

/-- Step (c) of BUILD (R201): the symbols from `s` on, in index order, each placed at the next free
offset of its length's bucket; a symbol of length 0 is not placed. -/
def placeSymbols {ow n : Nat} : Nat → List Nat → List Nat → Vector (BitVec ow) n → Vector (BitVec ow) n
  | _, [], _, order => order
  | s, l :: len, offs, order =>
    if l = 0 then placeSymbols (s + 1) len offs order
    else
      placeSymbols (s + 1) len (offs.set l (offs.getD l 0 + 1))
        (order.setIfInBounds (offs.getD l 0) (BitVec.ofNat ow s))

/-- `BUILD(T, len, n)` (R201), where `n` is the length of the list. It never fails (R202). Entries of
`ORDER` past the placed symbols keep their values (log 12). -/
def HuffTable.build {cw ow n : Nat} (t : HuffTable cw ow n) (len : List Nat) : HuffTable cw ow n :=
  { count := countLengths cw len
    order := placeSymbols 0 len ((List.range 16).map (bucketStart len)) t.order }

/-! ## DECODE -/

/-- `T.COUNT[L]` as a natural number. -/
def HuffTable.countOf {cw ow n : Nat} (t : HuffTable cw ow n) (L : Nat) : Nat :=
  (t.count[L]?.getD 0).toNat

/-- `T.ORDER[i]`, within the array. -/
def HuffTable.orderAt {cw ow n : Nat} (t : HuffTable cw ow n) (i : Nat) : Result Nat :=
  match t.order[i]? with
  | some s => .ok s.toNat
  | none => .error (.fault .orderIndexOutOfRange)

/-- The loop of DECODE (R203), for `k` more code lengths, the next of which is `L`. -/
def decodeLoop {cw ow n : Nat} (t : HuffTable cw ow n) (mem : Memory) (len : Nat) :
    Nat → Nat → Nat → Nat → BitReader → Result (Nat × BitReader)
  | 0, _, _, _, _ => .error (.raise .invalidCode)
  | k + 1, L, acc, pos, r =>
    match getBit mem len r with
    | .error e => .error e
    | .ok (b, r') =>
      if ((acc <<< 1) ||| b) < t.countOf L then
        match t.orderAt (pos + ((acc <<< 1) ||| b)) with
        | .ok s => .ok (s, r')
        | .error e => .error e
      else decodeLoop t mem len k (L + 1) (((acc <<< 1) ||| b) - t.countOf L) (pos + t.countOf L) r'

/-- `DECODE(T)` (R203 to R205): one codeword, most significant bit first, at most 15 bits. -/
def decodeSym {cw ow n : Nat} (t : HuffTable cw ow n) (mem : Memory) (len : Nat) (r : BitReader) :
    Result (Nat × BitReader) :=
  decodeLoop t mem len Config.maxCodeLen 1 0 0 r

/-! ## The ROM tables -/

/-- `FLL` (R209): COUNT[7] = 24, COUNT[8] = 152, COUNT[9] = 112, and the symbols 256 to 279, 0 to 143,
280 to 287, 144 to 255 in this order. A constant: no rule writes it (R211). -/
def fll : LLTable :=
  { count := ⟨#[0, 0, 0, 0, 0, 0, 0, 24, 152, 112, 0, 0, 0, 0, 0, 0], rfl⟩
    order := ⟨((List.range' 256 24 ++ List.range' 0 144 ++ List.range' 280 8 ++ List.range' 144 112).map
      (BitVec.ofNat 9)).toArray, by simp [Config.llAlphaMax]⟩ }

/-- `FDT` (R210): COUNT[5] = 32 and ORDER[i] = i. A constant: no rule writes it (R211). -/
def fdt : DTTable :=
  { count := ⟨#[0, 0, 0, 0, 0, 32, 0, 0, 0, 0, 0, 0, 0, 0, 0, 0], rfl⟩
    order := ⟨((List.range 32).map (BitVec.ofNat 5)).toArray, by simp [Config.distAlphaMax]⟩ }

/-- The code lengths from which R209 says BUILD makes `FLL`. -/
def fixedLitlenLengths : List Nat :=
  List.replicate 144 8 ++ List.replicate 112 9 ++ List.replicate 24 7 ++ List.replicate 8 8

/-- The code lengths from which R210 says BUILD makes `FDT`. -/
def fixedDistLengths : List Nat := List.replicate 32 5

/-- `LLSEL` (10_state.md R36): the literal/length table `TSEL` selects. -/
def State.llSel (s : State) : LLTable :=
  match s.tsel with
  | .fixed => fll
  | .dyn => s.ll

/-- `DTSEL` (10_state.md R36): the distance table `TSEL` selects. -/
def State.dtSel (s : State) : DTTable :=
  match s.tsel with
  | .fixed => fdt
  | .dyn => s.dt

end Sys2Proof.Machine
end

