-- ==== Sys2Proof/Machine/Place.lean ====
section
/-! DEFINITION. How a single element is put where the next step reads it (log 5): the FSM state that reads
its format, its stream bits at input address 0, and what else that state needs to read it. -/

namespace Sys2Proof.Machine

/-- How many input bytes a placed element is given: its own bits and zero bits after them, enough for a
codeword of 15 bits with 13 extra bits, or for a stored header. -/
def placedBytes : Nat := 8

/-- The FSM state that reads a format (30_encoding.md R127; 42_block_fsm.md R240). -/
def stateReading : Format → Fsm
  | .blockHeader => .hdr
  | .storedHeader => .storedHdr
  | .storedData => .storedCopy
  | .dynamicHeader => .dynHdr
  | .clLength => .dynClLen
  | .clSymbol => .dynLens
  | .litlenSymbol => .sym
  | .distanceSymbol => .dist
  | .hostCtrlWrite => .idle

/-- The payload of a placed element loaded at input address 0, with the reader at its first bit, no host
move pending and STATE at the state that reads it. -/
def State.loadElement (s : State) (f : Format) (w : Nat) : State :=
  { s with
    host := []
    br := BitReader.empty
    inMem := s.inMem.writeBytes 0 (packBytes placedBytes (streamBits f w))
    inLen := placedBytes
    fsm := stateReading f }

/-- Put the element with value `w` of format `f` where the next step reads it. STORED_COPY is entered
only with `ST_REM` at least 1 (R243), so one byte is left to copy; DYN_LENS needs the table `CL`, here the one
that gives all 19 symbols length 5, and the counts of a header; the literal/length and distance symbols
are read with the fixed tables. START is placed as the host's next move. -/
def State.place (s : State) (f : Format) (w : Nat) : State :=
  match f with
  | .blockHeader => s.loadElement f w
  | .storedHeader => s.loadElement f w
  | .storedData => { s.loadElement f w with stRem := 1 }
  | .dynamicHeader => s.loadElement f w
  | .clLength => s.loadElement f w
  | .clSymbol =>
    { s.loadElement f w with cl := s.cl.build (List.replicate 19 5), hlit := 257, hdist := 1 }
  | .litlenSymbol => { s.loadElement f w with tsel := .fixed }
  | .distanceSymbol => { s.loadElement f w with tsel := .fixed }
  | .hostCtrlWrite => { s with host := [.write 0x00 (BitVec.ofNat 32 w)] }

end Sys2Proof.Machine
end

