-- ==== Sys2Proof/Machine/BlockHeader.lean ====
section
/-! DEFINITION. The meanings of the block headers and of a stored block's elements (42_block_fsm.md R241
to R244), and the FSM step BLOCK_END (R256). Each meaning begins where the element's bits have been
taken from the stream (log 8). -/

namespace Sys2Proof.Machine

/-- BLOCK_type_STORED (R241, BTYPE 00). -/
def execBlockStored (bfinal : BitVec 1) (s : State) : Host.Outcome State Fault Refusal :=
  .next ((s.setHeader bfinal 0b00).goto .storedHdr)

/-- BLOCK_type_FIXED (R241, R242, BTYPE 01). -/
def execBlockFixed (bfinal : BitVec 1) (s : State) : Host.Outcome State Fault Refusal :=
  .next (((s.setHeader bfinal 0b01).setTsel .fixed).goto .sym)

/-- BLOCK_type_DYNAMIC (R241, BTYPE 10). -/
def execBlockDynamic (bfinal : BitVec 1) (s : State) : Host.Outcome State Fault Refusal :=
  .next ((s.setHeader bfinal 0b10).goto .dynHdr)

/-- BLOCK_type_RESERVED (R241, BTYPE 11): raises UNKNOWN_BLOCK_TYPE. The raise commits neither
BFINAL nor BTYPE (00_scope.md R10). -/
def execBlockReserved (_bfinal : BitVec 1) (s : State) : Host.Outcome State Fault Refusal :=
  finish s (.error (.raise .unknownBlockType))

/-- STORED (R243), after DROP_ALIGN and the two READ_U16LE. -/
def execStored (len nlen : BitVec 16) (s : State) : Host.Outcome State Fault Refusal :=
  finish s
    (if len ≠ complement16 nlen then .error (.raise .storedLenMismatch)
    else .ok ({ s with stRem := len }.goto (if len = 0 then .blockEnd else .storedCopy)))

/-- The count of STORED_COPY (R244): `ST_REM <- ST_REM - 1`, and BLOCK_END when it reaches 0. -/
def State.countStored (s : State) : State :=
  { s with stRem := s.stRem - 1, fsm := if s.stRem - 1 = 0 then .blockEnd else s.fsm }

/-- STORED_BYTE (R244), after READ_BYTE. Its operand line gives `ST_REM` as 1 to 65535 (log 9). -/
def execStoredByte (b : Byte) (s : State) : Host.Outcome State Fault Refusal :=
  finish s
    (if s.stRem = 0 then .error (.fault .storedCountZero)
    else
      match outAppend b s with
      | .ok t => .ok t.countStored
      | .error e => .error e)

/-- BLOCK_END (R256). -/
def blockEndStep (s : State) : State :=
  if s.bfinal = 1 then s.goto .done else s.goto .hdr

end Sys2Proof.Machine
end

