-- ==== Sys2Proof/Machine/DynHeader.lean ====
section
/-! DEFINITION. The meanings of the dynamic header's elements (42_block_fsm.md R245, R246, R248 to R254),
and the FSM steps DYN_CLBUILD (R247) and DYN_BUILD (R255). Each meaning begins where the element's
field or codeword has been taken from the stream; the extra bits of a code-length symbol are read
inside the meaning, in the order of the rule's checks (log 8). -/

namespace Sys2Proof.Machine

/-- DYNHDR (R245). -/
def execDynhdr (hlit : BitVec 9) (hdist : BitVec 6) (hclen : BitVec 5) (s : State) :
    Host.Outcome State Fault Refusal :=
  .next ({ s with
    hlit := hlit, hdist := hdist, hclen := hclen,
    clLens := Vector.replicate 19 0, clIdx := 0 }.goto .dynClLen)

/-- CLLEN (R246). `PERM` has no entry at or above 19 (log 9). -/
def execCllen (length : BitVec 3) (s : State) : Host.Outcome State Fault Refusal :=
  finish s
    (match perm[s.clIdx.toNat]? with
    | some v =>
      .ok { s with
        clLens := s.clLens.setIfInBounds v length
        clIdx := s.clIdx + 1
        fsm := if s.clIdx + 1 = s.hclen then .dynClBuild else s.fsm }
    | none => .error (.fault .clIndexOutOfRange))

/-- DYN_CLBUILD (R247). -/
def dynClBuildStep (s : State) : State :=
  { s with cl := s.cl.build (s.clLens.toList.map BitVec.toNat), lk := 0 }.goto .dynLens

/-! ## The length sequence -/

/-- `total` of R248: HLIT + HDIST. -/
def State.totalLens (s : State) : Nat := s.hlit.toNat + s.hdist.toNat

/-- `LENS[i]` within the array. -/
def State.lensAt (s : State) (i : Nat) : Result (BitVec 4) :=
  match s.lens[i]? with
  | some v => .ok v
  | none => .error (.fault .lensIndexOutOfRange)

/-- `for i in 0..r-1: LENS[at + i] <- v` (R249 to R252). -/
def fillLens (lens : Vector (BitVec 4) 320) (start : Nat) (v : BitVec 4) : Nat → Vector (BitVec 4) 320
  | 0 => lens
  | r + 1 => (fillLens lens start v r).setIfInBounds (start + r) v

/-- The writes of R249 to R252 and of DYN_LENS (R248): `r` entries `v` from `LK` on, `LK <- LK + r`, and
DYN_BUILD when `LK` reaches `total`; otherwise STATE stays. -/
def putLens (v : BitVec 4) (r : Nat) (s : State) : Result State :=
  if 320 < s.lk.toNat + r then .error (.fault .lensIndexOutOfRange)
  else
    .ok { s with
      lens := fillLens s.lens s.lk.toNat v r
      lk := BitVec.ofNat 9 (s.lk.toNat + r)
      fsm := if s.lk.toNat + r = s.totalLens then .dynBuild else s.fsm }

/-- `CHECK_FIT(r)` (R253), then the writes. -/
def fitLens (v : BitVec 4) (r : Nat) (s : State) : Result State :=
  if s.totalLens < s.lk.toNat + r then .error (.raise .invalidDynamicTree) else putLens v r s

/-- `ZEROS(r)` with `r` from `n` extra bits (R251, R252). -/
def zeroLens (n : Nat) (count : Nat → Nat) (s : State) : Result State :=
  match s.getBits n with
  | .ok (x, r') => fitLens 0 (count x) (s.setBr r')
  | .error e => .error e

/-- `REPEAT_PREV()` (R250): the check of `LK` before the extra bits, the fit after them. -/
def repeatPrev (s : State) : Result State :=
  if s.lk = 0 then .error (.raise .noPreviousLength)
  else
    match s.getBits 2 with
    | .ok (x, r') =>
      match s.lensAt (s.lk.toNat - 1) with
      | .ok v => fitLens v (repeatCount16 x) (s.setBr r')
      | .error e => .error e
    | .error e => .error e

/-- CL_v (R249): `LIT_LEN(v)`. -/
def execCl (v : BitVec 4) (s : State) : Host.Outcome State Fault Refusal :=
  finish s (putLens v 1 s)

/-- CL16 (R250). -/
def execCl16 (s : State) : Host.Outcome State Fault Refusal :=
  finish s (repeatPrev s)

/-- CL17 (R251): 3 extra bits, 3 to 10 zero lengths. -/
def execCl17 (s : State) : Host.Outcome State Fault Refusal :=
  finish s (zeroLens 3 zeroCount17 s)

/-- CL18 (R252): 7 extra bits, 11 to 138 zero lengths. -/
def execCl18 (s : State) : Host.Outcome State Fault Refusal :=
  finish s (zeroLens 7 zeroCount18 s)

/-- The literal/length lengths `LENS[0 .. HLIT-1]` (R255). -/
def State.litlenLengths (s : State) : List Nat :=
  (s.lens.toList.map BitVec.toNat).take s.hlit.toNat

/-- The distance lengths `LENS[HLIT .. HLIT+HDIST-1]` (R255). -/
def State.distLengths (s : State) : List Nat :=
  ((s.lens.toList.map BitVec.toNat).drop s.hlit.toNat).take s.hdist.toNat

/-- DYN_BUILD (R255). BUILD's operand line bounds `n` by 288 for `LL` and by 32 for `DT` (R201; log 9). -/
def dynBuildStep (s : State) : Result State :=
  if Config.llAlphaMax < s.hlit.toNat ∨ Config.distAlphaMax < s.hdist.toNat then
    .error (.fault .dynCountsOutOfRange)
  else
    .ok (({ s with
      ll := s.ll.build s.litlenLengths
      dt := s.dt.build s.distLengths }.setTsel .dyn).goto .sym)

end Sys2Proof.Machine
end

