-- ==== Sys2Proof/Machine/HostCtrl.lean ====
section
/-! DEFINITION. The meaning of START (60_exceptions.md R338, R339), and what the host reads: the registers
of 10_state.md R44 and the result of a run (60_exceptions.md R340). -/

namespace Sys2Proof.Machine

/-- START (R338): RUN_INIT in IDLE, DONE or ERROR; ignored otherwise (R339). -/
def execStart (s : State) : Host.Outcome State Fault Refusal :=
  if s.fsm.waiting then .next s.runInit else .next s

/-- A read of the register at an offset (10_state.md R44); `none` where the map has no register. Reserved
bits and the bits at and above ADDR_W read 0. A read has no side effect. -/
def hostRead (s : State) (offset : Nat) : Option Word :=
  if offset = 0x00 then some 0
  else if offset = 0x04 then some (s.fsm.run.setWidth 32)
  else if offset = 0x08 then some (BitVec.ofNat 32 (errNumber s.errCode))
  else if offset = 0x0C then some (BitVec.ofNat 32 (s.inLen % 2 ^ s.params.addrW))
  else if offset = 0x10 then some (BitVec.ofNat 32 (s.br.pos % 2 ^ s.params.addrW))
  else if offset = 0x14 then some (BitVec.ofNat 32 (s.outLen % 2 ^ s.params.addrW))
  else none

/-- A write of the `INLEN` register (R44): the field is bits ADDR_W−1:0, the bits above it are reserved;
ignored while BUSY. -/
def State.writeInLen (s : State) (v : Word) : State :=
  if s.busy then s else { s with inLen := v.toNat % 2 ^ s.params.addrW }

/-- The bytes `OUT[0 .. OUT_LEN-1]`, where every one of them holds a value. -/
def State.outBytes (s : State) : Option (List Byte) :=
  (List.range s.outLen).mapM s.outMem.read?

/-- The result of a run (60_exceptions.md R340): the decompressed bytes when `STATUS.RUN` = DONE; none in
any other state, `ERROR` included. -/
def State.result (s : State) : Option (List Byte) :=
  if s.fsm = .done then s.outBytes else none

/-- A host load of one byte of the payload (70_reset_and_hazards.md R374). The host has no such move while
BUSY (20_memory.md R93; log 14), and no address that ADDR_W bits cannot hold (00_scope.md R7). -/
def hostLoad (a : Nat) (b : Byte) (s : State) : Host.Outcome State Fault Refusal :=
  if s.busy then .refused .hostLoadWhileBusy
  else if 2 ^ s.params.addrW ≤ a then .fault .noSuchInputAddress
  else .next { s with inMem := s.inMem.write a b }

end Sys2Proof.Machine
end

