-- ==== Sys2Proof/Machine/Lz77.lean ====
section
/-! DEFINITION. The meanings of the literal/length and distance symbols (43_lz77.md R290 to R296), and the
FSM step COPY (R297). Each meaning begins where the codeword has been taken from the stream; the extra
bits are read inside the meaning, in the order of the rule's checks (log 8). -/

namespace Sys2Proof.Machine

/-! ## Shared operations -/

/-- R293: length code `c` reads its extra bits and fixes `M_LEN`; STATE goes to DIST. -/
def lengthSymbol (c : Nat) (s : State) : Result State :=
  match s.getBits (lenExtra c) with
  | .ok (x, r) => .ok ({ s.setBr r with mLen := BitVec.ofNat 9 (lenOf c x) }.goto .dist)
  | .error e => .error e

/-- R294: an invalid literal/length symbol. -/
def invalidLitlen : Result State := .error (.raise .invalidLitlenCode)

/-- The writes of DIST (R295): the distance and the count of bytes to copy; STATE goes to COPY. -/
def State.setMatch (s : State) (d : Nat) : State :=
  { s with mDist := BitVec.ofNat 16 d, mRem := s.mLen }.goto .copy

/-- R295, R296: distance code `c`: the code's check, the extra bits, the distance's check, the writes. -/
def distanceSymbol (c : Nat) (s : State) : Result State :=
  if 30 ≤ c then .error (.raise .invalidDistanceCode)
  else
    match s.getBits (distExtra c) with
    | .ok (x, r) =>
      if s.outLen < distOf c x then .error (.raise .distanceTooFar)
      else .ok ((s.setBr r).setMatch (distOf c x))
    | .error e => .error e

/-- The count of COPY (R297): `M_REM <- M_REM - 1`, and SYM when it reaches 0. -/
def State.countCopy (s : State) : State :=
  { s with mRem := s.mRem - 1, fsm := if s.mRem - 1 = 0 then .sym else s.fsm }

/-- COPY (R297): the byte at `OUT_LEN - M_DIST` is appended. Its operand line gives `M_DIST` as 1 to
`OUT_LEN` and `M_REM` as 1 to 258 (log 9). -/
def copyStep (s : State) : Result State :=
  if s.mRem = 0 then .error (.fault .copyCountZero)
  else if s.outLen < s.mDist.toNat then .error (.fault .outReadOutOfRange)
  else
    match outRead s (s.outLen - s.mDist.toNat) with
    | .ok b =>
      match outAppend b s with
      | .ok t => .ok t.countCopy
      | .error e => .error e
    | .error e => .error e

/-! ## Literals and end of block -/

/-- LIT_b (R291). -/
def execLit (b : Byte) (s : State) : Host.Outcome State Fault Refusal := finish s (outAppend b s)

/-- EOB (R292). -/
def execEob (s : State) : Host.Outcome State Fault Refusal := .next (s.goto .blockEnd)

/-! ## Length symbols -/

/-- LSYM_257 (R293): length code 0. -/
def execLsym257 (s : State) : Host.Outcome State Fault Refusal := finish s (lengthSymbol 0 s)

/-- LSYM_258 (R293): length code 1. -/
def execLsym258 (s : State) : Host.Outcome State Fault Refusal := finish s (lengthSymbol 1 s)

/-- LSYM_259 (R293): length code 2. -/
def execLsym259 (s : State) : Host.Outcome State Fault Refusal := finish s (lengthSymbol 2 s)

/-- LSYM_260 (R293): length code 3. -/
def execLsym260 (s : State) : Host.Outcome State Fault Refusal := finish s (lengthSymbol 3 s)

/-- LSYM_261 (R293): length code 4. -/
def execLsym261 (s : State) : Host.Outcome State Fault Refusal := finish s (lengthSymbol 4 s)

/-- LSYM_262 (R293): length code 5. -/
def execLsym262 (s : State) : Host.Outcome State Fault Refusal := finish s (lengthSymbol 5 s)

/-- LSYM_263 (R293): length code 6. -/
def execLsym263 (s : State) : Host.Outcome State Fault Refusal := finish s (lengthSymbol 6 s)

/-- LSYM_264 (R293): length code 7. -/
def execLsym264 (s : State) : Host.Outcome State Fault Refusal := finish s (lengthSymbol 7 s)

/-- LSYM_265 (R293): length code 8. -/
def execLsym265 (s : State) : Host.Outcome State Fault Refusal := finish s (lengthSymbol 8 s)

/-- LSYM_266 (R293): length code 9. -/
def execLsym266 (s : State) : Host.Outcome State Fault Refusal := finish s (lengthSymbol 9 s)

/-- LSYM_267 (R293): length code 10. -/
def execLsym267 (s : State) : Host.Outcome State Fault Refusal := finish s (lengthSymbol 10 s)

/-- LSYM_268 (R293): length code 11. -/
def execLsym268 (s : State) : Host.Outcome State Fault Refusal := finish s (lengthSymbol 11 s)

/-- LSYM_269 (R293): length code 12. -/
def execLsym269 (s : State) : Host.Outcome State Fault Refusal := finish s (lengthSymbol 12 s)

/-- LSYM_270 (R293): length code 13. -/
def execLsym270 (s : State) : Host.Outcome State Fault Refusal := finish s (lengthSymbol 13 s)

/-- LSYM_271 (R293): length code 14. -/
def execLsym271 (s : State) : Host.Outcome State Fault Refusal := finish s (lengthSymbol 14 s)

/-- LSYM_272 (R293): length code 15. -/
def execLsym272 (s : State) : Host.Outcome State Fault Refusal := finish s (lengthSymbol 15 s)

/-- LSYM_273 (R293): length code 16. -/
def execLsym273 (s : State) : Host.Outcome State Fault Refusal := finish s (lengthSymbol 16 s)

/-- LSYM_274 (R293): length code 17. -/
def execLsym274 (s : State) : Host.Outcome State Fault Refusal := finish s (lengthSymbol 17 s)

/-- LSYM_275 (R293): length code 18. -/
def execLsym275 (s : State) : Host.Outcome State Fault Refusal := finish s (lengthSymbol 18 s)

/-- LSYM_276 (R293): length code 19. -/
def execLsym276 (s : State) : Host.Outcome State Fault Refusal := finish s (lengthSymbol 19 s)

/-- LSYM_277 (R293): length code 20. -/
def execLsym277 (s : State) : Host.Outcome State Fault Refusal := finish s (lengthSymbol 20 s)

/-- LSYM_278 (R293): length code 21. -/
def execLsym278 (s : State) : Host.Outcome State Fault Refusal := finish s (lengthSymbol 21 s)

/-- LSYM_279 (R293): length code 22. -/
def execLsym279 (s : State) : Host.Outcome State Fault Refusal := finish s (lengthSymbol 22 s)

/-- LSYM_280 (R293): length code 23. -/
def execLsym280 (s : State) : Host.Outcome State Fault Refusal := finish s (lengthSymbol 23 s)

/-- LSYM_281 (R293): length code 24. -/
def execLsym281 (s : State) : Host.Outcome State Fault Refusal := finish s (lengthSymbol 24 s)

/-- LSYM_282 (R293): length code 25. -/
def execLsym282 (s : State) : Host.Outcome State Fault Refusal := finish s (lengthSymbol 25 s)

/-- LSYM_283 (R293): length code 26. -/
def execLsym283 (s : State) : Host.Outcome State Fault Refusal := finish s (lengthSymbol 26 s)

/-- LSYM_284 (R293): length code 27. -/
def execLsym284 (s : State) : Host.Outcome State Fault Refusal := finish s (lengthSymbol 27 s)

/-- LSYM_285 (R293): length code 28. -/
def execLsym285 (s : State) : Host.Outcome State Fault Refusal := finish s (lengthSymbol 28 s)

/-- LSYM_286 (R294). -/
def execLsym286 (s : State) : Host.Outcome State Fault Refusal := finish s invalidLitlen

/-- LSYM_287 (R294). -/
def execLsym287 (s : State) : Host.Outcome State Fault Refusal := finish s invalidLitlen

/-! ## Distance symbols -/

/-- DSYM_0 (R295): distance code 0. -/
def execDsym0 (s : State) : Host.Outcome State Fault Refusal := finish s (distanceSymbol 0 s)

/-- DSYM_1 (R295): distance code 1. -/
def execDsym1 (s : State) : Host.Outcome State Fault Refusal := finish s (distanceSymbol 1 s)

/-- DSYM_2 (R295): distance code 2. -/
def execDsym2 (s : State) : Host.Outcome State Fault Refusal := finish s (distanceSymbol 2 s)

/-- DSYM_3 (R295): distance code 3. -/
def execDsym3 (s : State) : Host.Outcome State Fault Refusal := finish s (distanceSymbol 3 s)

/-- DSYM_4 (R295): distance code 4. -/
def execDsym4 (s : State) : Host.Outcome State Fault Refusal := finish s (distanceSymbol 4 s)

/-- DSYM_5 (R295): distance code 5. -/
def execDsym5 (s : State) : Host.Outcome State Fault Refusal := finish s (distanceSymbol 5 s)

/-- DSYM_6 (R295): distance code 6. -/
def execDsym6 (s : State) : Host.Outcome State Fault Refusal := finish s (distanceSymbol 6 s)

/-- DSYM_7 (R295): distance code 7. -/
def execDsym7 (s : State) : Host.Outcome State Fault Refusal := finish s (distanceSymbol 7 s)

/-- DSYM_8 (R295): distance code 8. -/
def execDsym8 (s : State) : Host.Outcome State Fault Refusal := finish s (distanceSymbol 8 s)

/-- DSYM_9 (R295): distance code 9. -/
def execDsym9 (s : State) : Host.Outcome State Fault Refusal := finish s (distanceSymbol 9 s)

/-- DSYM_10 (R295): distance code 10. -/
def execDsym10 (s : State) : Host.Outcome State Fault Refusal := finish s (distanceSymbol 10 s)

/-- DSYM_11 (R295): distance code 11. -/
def execDsym11 (s : State) : Host.Outcome State Fault Refusal := finish s (distanceSymbol 11 s)

/-- DSYM_12 (R295): distance code 12. -/
def execDsym12 (s : State) : Host.Outcome State Fault Refusal := finish s (distanceSymbol 12 s)

/-- DSYM_13 (R295): distance code 13. -/
def execDsym13 (s : State) : Host.Outcome State Fault Refusal := finish s (distanceSymbol 13 s)

/-- DSYM_14 (R295): distance code 14. -/
def execDsym14 (s : State) : Host.Outcome State Fault Refusal := finish s (distanceSymbol 14 s)

/-- DSYM_15 (R295): distance code 15. -/
def execDsym15 (s : State) : Host.Outcome State Fault Refusal := finish s (distanceSymbol 15 s)

/-- DSYM_16 (R295): distance code 16. -/
def execDsym16 (s : State) : Host.Outcome State Fault Refusal := finish s (distanceSymbol 16 s)

/-- DSYM_17 (R295): distance code 17. -/
def execDsym17 (s : State) : Host.Outcome State Fault Refusal := finish s (distanceSymbol 17 s)

/-- DSYM_18 (R295): distance code 18. -/
def execDsym18 (s : State) : Host.Outcome State Fault Refusal := finish s (distanceSymbol 18 s)

/-- DSYM_19 (R295): distance code 19. -/
def execDsym19 (s : State) : Host.Outcome State Fault Refusal := finish s (distanceSymbol 19 s)

/-- DSYM_20 (R295): distance code 20. -/
def execDsym20 (s : State) : Host.Outcome State Fault Refusal := finish s (distanceSymbol 20 s)

/-- DSYM_21 (R295): distance code 21. -/
def execDsym21 (s : State) : Host.Outcome State Fault Refusal := finish s (distanceSymbol 21 s)

/-- DSYM_22 (R295): distance code 22. -/
def execDsym22 (s : State) : Host.Outcome State Fault Refusal := finish s (distanceSymbol 22 s)

/-- DSYM_23 (R295): distance code 23. -/
def execDsym23 (s : State) : Host.Outcome State Fault Refusal := finish s (distanceSymbol 23 s)

/-- DSYM_24 (R295): distance code 24. -/
def execDsym24 (s : State) : Host.Outcome State Fault Refusal := finish s (distanceSymbol 24 s)

/-- DSYM_25 (R295): distance code 25. -/
def execDsym25 (s : State) : Host.Outcome State Fault Refusal := finish s (distanceSymbol 25 s)

/-- DSYM_26 (R295): distance code 26. -/
def execDsym26 (s : State) : Host.Outcome State Fault Refusal := finish s (distanceSymbol 26 s)

/-- DSYM_27 (R295): distance code 27. -/
def execDsym27 (s : State) : Host.Outcome State Fault Refusal := finish s (distanceSymbol 27 s)

/-- DSYM_28 (R295): distance code 28. -/
def execDsym28 (s : State) : Host.Outcome State Fault Refusal := finish s (distanceSymbol 28 s)

/-- DSYM_29 (R295): distance code 29. -/
def execDsym29 (s : State) : Host.Outcome State Fault Refusal := finish s (distanceSymbol 29 s)

/-- DSYM_30 (R295): distance code 30. -/
def execDsym30 (s : State) : Host.Outcome State Fault Refusal := finish s (distanceSymbol 30 s)

/-- DSYM_31 (R295): distance code 31. -/
def execDsym31 (s : State) : Host.Outcome State Fault Refusal := finish s (distanceSymbol 31 s)

end Sys2Proof.Machine
end

