-- ==== Sys2Proof/Machine/Dispatch.lean ====
section
/-! DEFINITION. One arm for each instruction, each one call of its meaning. -/

namespace Sys2Proof.Machine

def exec (i : Instr) (s : State) : Host.Outcome State Fault Refusal :=
  match i with
  | .blockStored bfinal => Sys2Proof.Machine.execBlockStored bfinal s
  | .blockFixed bfinal => Sys2Proof.Machine.execBlockFixed bfinal s
  | .blockDynamic bfinal => Sys2Proof.Machine.execBlockDynamic bfinal s
  | .blockReserved bfinal => Sys2Proof.Machine.execBlockReserved bfinal s
  | .stored len nlen => Sys2Proof.Machine.execStored len nlen s
  | .storedByte b => Sys2Proof.Machine.execStoredByte b s
  | .dynhdr hlit hdist hclen => Sys2Proof.Machine.execDynhdr hlit hdist hclen s
  | .cllen length => Sys2Proof.Machine.execCllen length s
  | .cl v => Sys2Proof.Machine.execCl v s
  | .cl16 => Sys2Proof.Machine.execCl16 s
  | .cl17 => Sys2Proof.Machine.execCl17 s
  | .cl18 => Sys2Proof.Machine.execCl18 s
  | .lit b => Sys2Proof.Machine.execLit b s
  | .eob => Sys2Proof.Machine.execEob s
  | .lsym257 => Sys2Proof.Machine.execLsym257 s
  | .lsym258 => Sys2Proof.Machine.execLsym258 s
  | .lsym259 => Sys2Proof.Machine.execLsym259 s
  | .lsym260 => Sys2Proof.Machine.execLsym260 s
  | .lsym261 => Sys2Proof.Machine.execLsym261 s
  | .lsym262 => Sys2Proof.Machine.execLsym262 s
  | .lsym263 => Sys2Proof.Machine.execLsym263 s
  | .lsym264 => Sys2Proof.Machine.execLsym264 s
  | .lsym265 => Sys2Proof.Machine.execLsym265 s
  | .lsym266 => Sys2Proof.Machine.execLsym266 s
  | .lsym267 => Sys2Proof.Machine.execLsym267 s
  | .lsym268 => Sys2Proof.Machine.execLsym268 s
  | .lsym269 => Sys2Proof.Machine.execLsym269 s
  | .lsym270 => Sys2Proof.Machine.execLsym270 s
  | .lsym271 => Sys2Proof.Machine.execLsym271 s
  | .lsym272 => Sys2Proof.Machine.execLsym272 s
  | .lsym273 => Sys2Proof.Machine.execLsym273 s
  | .lsym274 => Sys2Proof.Machine.execLsym274 s
  | .lsym275 => Sys2Proof.Machine.execLsym275 s
  | .lsym276 => Sys2Proof.Machine.execLsym276 s
  | .lsym277 => Sys2Proof.Machine.execLsym277 s
  | .lsym278 => Sys2Proof.Machine.execLsym278 s
  | .lsym279 => Sys2Proof.Machine.execLsym279 s
  | .lsym280 => Sys2Proof.Machine.execLsym280 s
  | .lsym281 => Sys2Proof.Machine.execLsym281 s
  | .lsym282 => Sys2Proof.Machine.execLsym282 s
  | .lsym283 => Sys2Proof.Machine.execLsym283 s
  | .lsym284 => Sys2Proof.Machine.execLsym284 s
  | .lsym285 => Sys2Proof.Machine.execLsym285 s
  | .lsym286 => Sys2Proof.Machine.execLsym286 s
  | .lsym287 => Sys2Proof.Machine.execLsym287 s
  | .dsym0 => Sys2Proof.Machine.execDsym0 s
  | .dsym1 => Sys2Proof.Machine.execDsym1 s
  | .dsym2 => Sys2Proof.Machine.execDsym2 s
  | .dsym3 => Sys2Proof.Machine.execDsym3 s
  | .dsym4 => Sys2Proof.Machine.execDsym4 s
  | .dsym5 => Sys2Proof.Machine.execDsym5 s
  | .dsym6 => Sys2Proof.Machine.execDsym6 s
  | .dsym7 => Sys2Proof.Machine.execDsym7 s
  | .dsym8 => Sys2Proof.Machine.execDsym8 s
  | .dsym9 => Sys2Proof.Machine.execDsym9 s
  | .dsym10 => Sys2Proof.Machine.execDsym10 s
  | .dsym11 => Sys2Proof.Machine.execDsym11 s
  | .dsym12 => Sys2Proof.Machine.execDsym12 s
  | .dsym13 => Sys2Proof.Machine.execDsym13 s
  | .dsym14 => Sys2Proof.Machine.execDsym14 s
  | .dsym15 => Sys2Proof.Machine.execDsym15 s
  | .dsym16 => Sys2Proof.Machine.execDsym16 s
  | .dsym17 => Sys2Proof.Machine.execDsym17 s
  | .dsym18 => Sys2Proof.Machine.execDsym18 s
  | .dsym19 => Sys2Proof.Machine.execDsym19 s
  | .dsym20 => Sys2Proof.Machine.execDsym20 s
  | .dsym21 => Sys2Proof.Machine.execDsym21 s
  | .dsym22 => Sys2Proof.Machine.execDsym22 s
  | .dsym23 => Sys2Proof.Machine.execDsym23 s
  | .dsym24 => Sys2Proof.Machine.execDsym24 s
  | .dsym25 => Sys2Proof.Machine.execDsym25 s
  | .dsym26 => Sys2Proof.Machine.execDsym26 s
  | .dsym27 => Sys2Proof.Machine.execDsym27 s
  | .dsym28 => Sys2Proof.Machine.execDsym28 s
  | .dsym29 => Sys2Proof.Machine.execDsym29 s
  | .dsym30 => Sys2Proof.Machine.execDsym30 s
  | .dsym31 => Sys2Proof.Machine.execDsym31 s
  | .start => Sys2Proof.Machine.execStart s

end Sys2Proof.Machine
end

