-- ==== Sys2Proof/Machine/Fetch.lean ====
section
/-! DEFINITION. How a step takes its next element from the stream: the format the FSM state selects, the
bits or the codeword it reads (30_encoding.md R127), and the decoder. -/

namespace Sys2Proof.Machine

/-- Decode the value `w` of a format that was read up to reader `r`. A value no row matches stops with
`e`. -/
def element (f : Format) (e : Stop) (w : Nat) (r : BitReader) : Result (Instr × BitReader) :=
  match decode f w with
  | .ok i => .ok (i, r)
  | .error _ => .error e

/-- HDR's element (42_block_fsm.md R241): `GET_BITS(1)`, then `GET_BITS(2)`; value BFINAL | BTYPE << 1
(30_encoding.md R111). -/
def fetchHeader (s : State) : Result (Instr × BitReader) :=
  match getBits s.inMem s.inLen 1 s.br with
  | .error e => .error e
  | .ok (f, r1) =>
    match getBits s.inMem s.inLen 2 r1 with
    | .error e => .error e
    | .ok (t, r2) => element .blockHeader (.fault .undecodableElement) (f ||| (t <<< 1)) r2

/-- STORED_HDR's element (R243): DROP_ALIGN, LEN and NLEN by READ_U16LE. -/
def fetchStoredHeader (s : State) : Result (Instr × BitReader) :=
  match readU16le s.inMem s.inLen (dropAlign s.br) with
  | .error e => .error e
  | .ok (len, r1) =>
    match readU16le s.inMem s.inLen r1 with
    | .error e => .error e
    | .ok (nlen, r2) =>
      element .storedHeader (.fault .undecodableElement) (len ||| (nlen <<< 16)) r2

/-- STORED_COPY's element (R244): READ_BYTE. -/
def fetchStoredByte (s : State) : Result (Instr × BitReader) :=
  match readByte s.inMem s.inLen s.br with
  | .error e => .error e
  | .ok (b, r) => element .storedData (.fault .undecodableElement) b.toNat r

/-- DYN_HDR's element (R245): `GET_BITS(5)`, `GET_BITS(5)`, `GET_BITS(4)`. -/
def fetchDynHeader (s : State) : Result (Instr × BitReader) :=
  match getBits s.inMem s.inLen 5 s.br with
  | .error e => .error e
  | .ok (a, r1) =>
    match getBits s.inMem s.inLen 5 r1 with
    | .error e => .error e
    | .ok (b, r2) =>
      match getBits s.inMem s.inLen 4 r2 with
      | .error e => .error e
      | .ok (c, r3) =>
        element .dynamicHeader (.fault .undecodableElement) (a ||| (b <<< 5) ||| (c <<< 10)) r3

/-- DYN_CLLEN's element (R246): `GET_BITS(3)`. -/
def fetchClLength (s : State) : Result (Instr × BitReader) :=
  match getBits s.inMem s.inLen 3 s.br with
  | .error e => .error e
  | .ok (l, r) => element .clLength (.fault .undecodableElement) l r

/-- DYN_LENS's element (R248): `DECODE(CL)`. R248 has no branch for a value above 18 (log 9). -/
def fetchClSymbol (s : State) : Result (Instr × BitReader) :=
  match decodeSym s.cl s.inMem s.inLen s.br with
  | .error e => .error e
  | .ok (v, r) => element .clSymbol (.fault .undecodableElement) v r

/-- SYM's element (43_lz77.md R290): `DECODE(LLSEL)`. A value above 287 takes R290's last branch. -/
def fetchLitlen (s : State) : Result (Instr × BitReader) :=
  match decodeSym s.llSel s.inMem s.inLen s.br with
  | .error e => .error e
  | .ok (v, r) => element .litlenSymbol (.raise .invalidLitlenCode) v r

/-- DIST's element (43_lz77.md R295): `DECODE(DTSEL)`. -/
def fetchDistance (s : State) : Result (Instr × BitReader) :=
  match decodeSym s.dtSel s.inMem s.inLen s.br with
  | .error e => .error e
  | .ok (v, r) => element .distanceSymbol (.raise .invalidDistanceCode) v r

/-- The next stream element and the reader after it, in a state that reads one; `none` in a state that
reads none (42_block_fsm.md R240). -/
def fetch (s : State) : Option (Result (Instr × BitReader)) :=
  match s.fsm with
  | .hdr => some (fetchHeader s)
  | .storedHdr => some (fetchStoredHeader s)
  | .storedCopy => some (fetchStoredByte s)
  | .dynHdr => some (fetchDynHeader s)
  | .dynClLen => some (fetchClLength s)
  | .dynLens => some (fetchClSymbol s)
  | .sym => some (fetchLitlen s)
  | .dist => some (fetchDistance s)
  | .idle => none
  | .dynClBuild => none
  | .dynBuild => none
  | .copy => none
  | .blockEnd => none
  | .done => none
  | .error => none
  | .unused15 => none

end Sys2Proof.Machine
end

