-- ==== Sys2Proof/Machine/Run.lean ====
section
/-! DEFINITION. One step of the block (42_block_fsm.md R240), and one move of the host (10_state.md R44,
60_exceptions.md R338, 70_reset_and_hazards.md R370, R374). -/

namespace Sys2Proof.Machine

/-- A step that reads an element: its meaning runs on the state whose reader is past the element's field
or codeword, and the step commits whole or not at all (00_scope.md R10). -/
def runElement (s : State) : Result (Instr × BitReader) → Host.Outcome State Fault Refusal
  | .ok (i, r) => commit s (exec i (s.setBr r))
  | .error e => stop s e

/-- A step in a state that reads no element: the waiting states take no step (R240; log 7), the others
run their rule. STATE 15 is a fault of the model (10_state.md R31). -/
def internalStep (s : State) : Host.Outcome State Fault Refusal :=
  match s.fsm with
  | .dynClBuild => .next (dynClBuildStep s)
  | .dynBuild => finish s (dynBuildStep s)
  | .copy => finish s (copyStep s)
  | .blockEnd => .next (blockEndStep s)
  | .unused15 => .fault .unusedFsmState
  | .idle => .next s
  | .done => .next s
  | .error => .next s
  | .hdr => .next s
  | .storedHdr => .next s
  | .storedCopy => .next s
  | .dynHdr => .next s
  | .dynClLen => .next s
  | .dynLens => .next s
  | .sym => .next s
  | .dist => .next s

/-- One step of the block. -/
def blockStep (s : State) : Host.Outcome State Fault Refusal :=
  match fetch s with
  | some r => runElement s r
  | none => internalStep s

/-- A host write to the register at an offset (10_state.md R44): CTRL with bit 0 = 1 is START, with bit
0 = 0 it does nothing (60_exceptions.md R338); INLEN takes the value unless BUSY; the read-only
registers keep their values (log 14). -/
def hostWrite (offset : Nat) (v : Word) (s : State) : Host.Outcome State Fault Refusal :=
  if offset = 0x00 then
    match decode .hostCtrlWrite v.toNat with
    | .ok i => exec i s
    | .error _ => .next s
  else if offset = 0x0C then .next (s.writeInLen v)
  else if offset = 0x04 ∨ offset = 0x08 ∨ offset = 0x10 ∨ offset = 0x14 then .next s
  else .fault .noSuchHostRegister

/-- One move of the host (log 4). -/
def hostStep (a : HostAct) (s : State) : Host.Outcome State Fault Refusal :=
  match a with
  | .pass => blockStep s
  | .write offset v => hostWrite offset v s
  | .load addr b => hostLoad addr b s
  | .reset => .next s.doReset

end Sys2Proof.Machine
end

