-- ==== Sys2Proof/Machine/Step.lean ====
section
/-! DEFINITION. The step of the machine: the host's next move where one is pending, a step of the block
otherwise (log 4). -/

namespace Sys2Proof.Machine

/-- One step. -/
def step (s : State) : Host.Outcome State Fault Refusal :=
  match s.host with
  | [] => blockStep s
  | a :: rest => hostStep a (s.setHost rest)

/-- `s` with the instruction that `decodeTableWord` reads from a word placed where `step` takes its next
one (log 5, log 6). -/
def State.withFetchWord (s : State) (nbits w : Nat) : State := s.place (tableFormat nbits w) w

end Sys2Proof.Machine
end

