-- ==== Sys2Proof/Safety.lean ====
section
/-! DEFINITION. What the statements are made of: the stream as the input memory holds it, tables whose
indices stay in bounds, the invariant of the machine, and what a safe run is. -/

namespace Sys2Proof.Machine

/-! ## The input as a bit stream -/

/-- The host has loaded every byte of the payload (70_reset_and_hazards.md R374). -/
def InputLoaded (s : State) : Prop := ∀ a, a < s.inLen → (s.inMem.read? a).isSome = true

/-- Stream bit `i`: bit `i % 8` of input byte `i / 8` (20_memory.md R85). -/
def streamBit? (mem : Memory) (i : Nat) : Option Bool :=
  (mem.read? (i / 8)).map fun b => b.getLsbD (i % 8)

/-- The stream position: `8 × BR_POS − BR_CNT` bits have been consumed or discarded (10_state.md R47,
40_bit_reader.md R180). -/
def BitReader.streamPos (r : BitReader) : Nat := 8 * r.pos - r.cnt.toNat

/-- How many stream bits are left to a reader of an input of `len` bytes. -/
def BitReader.bitsAhead (len : Nat) (r : BitReader) : Nat := r.cnt.toNat + 8 * (len - r.pos)

/-- 40_bit_reader.md R179: `BR_BUF < 2^BR_CNT`. -/
def BitReader.Clean (r : BitReader) : Prop := r.buf.toNat < 2 ^ r.cnt.toNat

/-- 10_state.md R33: bit i of `BR_BUF`, for i < `BR_CNT`, is the (i+1)-th not-yet-consumed bit of the
stream. -/
def BitReader.Agrees (mem : Memory) (r : BitReader) : Prop :=
  r.cnt.toNat ≤ 8 * r.pos ∧
  ∀ k, k < r.cnt.toNat → streamBit? mem (r.streamPos + k) = some (r.buf.getLsbD k)

/-- Reading `bits` one by one with GET_BIT leads from reader `r` to reader `r'`. -/
def TakesBits (mem : Memory) (len : Nat) : List Bool → BitReader → BitReader → Prop
  | [], r, r' => r = r'
  | b :: bits, r, r' => ∃ r1, getBit mem len r = .ok (b.toNat, r1) ∧ TakesBits mem len bits r1 r'

/-- Reading `ns` bits call by call with GET_BITS: the concatenation of the results, each placed at its
offset, and the reader after the last call (40_bit_reader.md R178). -/
def readPlan (mem : Memory) (len : Nat) : List Nat → BitReader → Result (Nat × BitReader)
  | [], r => .ok (0, r)
  | n :: ns, r =>
    match getBits mem len n r with
    | .error e => .error e
    | .ok (v, r1) =>
      match readPlan mem len ns r1 with
      | .error e => .error e
      | .ok (w, r2) => .ok (v ||| (w <<< n), r2)

/-! ## Control flow -/

/-- The next states of 42_block_fsm.md R240, but for ERROR, which any step may enter: a waiting state
takes no step. -/
def Fsm.successors : Fsm → List Fsm
  | .hdr => [.storedHdr, .sym, .dynHdr]
  | .storedHdr => [.storedCopy, .blockEnd]
  | .storedCopy => [.storedCopy, .blockEnd]
  | .dynHdr => [.dynClLen]
  | .dynClLen => [.dynClLen, .dynClBuild]
  | .dynClBuild => [.dynLens]
  | .dynLens => [.dynLens, .dynBuild]
  | .dynBuild => [.sym]
  | .sym => [.sym, .dist, .blockEnd]
  | .dist => [.copy]
  | .copy => [.copy, .sym]
  | .blockEnd => [.hdr, .done]
  | .idle => [.idle]
  | .done => [.done]
  | .error => [.error]
  | .unused15 => []

/-! ## Tables -/

/-- The number of symbols a table gives a codeword: `COUNT[1] + … + COUNT[15]`. -/
def HuffTable.assigned {cw ow n : Nat} (t : HuffTable cw ow n) : Nat :=
  ((List.range' 1 15).map t.countOf).sum

/-- DECODE's index into `ORDER` stays inside the array (41_huffman.md R203). -/
def HuffTable.InBounds {cw ow n : Nat} (t : HuffTable cw ow n) : Prop := t.assigned ≤ n

/-- Every symbol with a codeword is below `m` (R203). The entries of `ORDER` past them may hold any value
(93_implementation_defined.md U13). -/
def HuffTable.SymbolsBelow {cw ow n : Nat} (t : HuffTable cw ow n) (m : Nat) : Prop :=
  ∀ (i : Nat) (s : BitVec ow), i < t.assigned → t.order[i]? = some s → s.toNat < m

/-- The code lengths form a complete or under-subscribed prefix code: the Kraft sum is at most 1
(41_huffman.md R206, R207). -/
def KraftAtMostOne (len : List Nat) : Prop :=
  ((List.range' 1 15).map fun L => len.count L * 2 ^ (15 - L)).sum ≤ 2 ^ 15

/-- The symbols with a code length, shorter codes first, ties by symbol index (10_state.md R37). -/
def symbolsInOrder (len : List Nat) : List Nat :=
  (List.range' 1 15).flatMap fun L => (List.range len.length).filter fun s => len.getD s 0 = L

/-! ## The invariant -/

/-- What holds of the machine between any two steps, whatever the host does. Each clause keeps an
operand inside the bounds that the rule of the state that reads it gives. -/
structure Inv (s : State) : Prop where
  /-- 00_scope.md R7. -/
  params     : s.params.Ok
  /-- The memories are in canonical form. -/
  inWf       : s.inMem.wf
  outWf      : s.outMem.wf
  /-- 00_scope.md R7: `IN_LEN < 2^ADDR_W`. -/
  inLen      : s.inLen < 2 ^ s.params.addrW
  /-- 20_memory.md R84: the output never exceeds its capacity. -/
  outLen     : s.outLen ≤ s.params.outCap
  /-- 20_memory.md R83: every byte below `OUT_LEN` has been written. -/
  outWritten : ∀ a, a < s.outLen → (s.outMem.read? a).isSome = true
  /-- 10_state.md R31: no rule writes the value 15. -/
  fsm        : s.fsm ≠ .unused15
  /-- 10_state.md R46: `ERR_CODE` is 0 exactly while no error has occurred. -/
  errCode    : s.fsm = .error ↔ s.errCode ≠ .none
  /-- 40_bit_reader.md R179. -/
  clean      : s.br.Clean
  /-- 10_state.md R32, R33, during a run. -/
  reader     : s.fsm.waiting = false → s.br.pos ≤ s.inLen ∧ s.br.Agrees s.inMem
  /-- 42_block_fsm.md R244. -/
  stored     : s.fsm = .storedCopy → s.stRem ≠ 0 ∧ s.br.cnt = 0
  /-- 42_block_fsm.md R245: the counts of the dynamic header, until the tables are built. -/
  header     : s.fsm = .dynClLen ∨ s.fsm = .dynClBuild ∨ s.fsm = .dynLens ∨ s.fsm = .dynBuild →
    257 ≤ s.hlit.toNat ∧ s.hlit.toNat ≤ 288 ∧ 1 ≤ s.hdist.toNat ∧ s.hdist.toNat ≤ 32 ∧
      4 ≤ s.hclen.toNat ∧ s.hclen.toNat ≤ 19
  /-- 42_block_fsm.md R246. -/
  clIdx      : s.fsm = .dynClLen → s.clIdx.toNat < s.hclen.toNat
  /-- 42_block_fsm.md R248: DYN_LENS runs only while `LK < total`. -/
  lk         : s.fsm = .dynLens → s.lk.toNat < s.totalLens
  /-- 42_block_fsm.md R248: `CL` was built with n = 19. -/
  clBounds   : s.fsm = .dynLens → s.cl.InBounds
  clSymbols  : s.fsm = .dynLens → s.cl.SymbolsBelow 19
  /-- 41_huffman.md R203, for the tables a dynamic block's body reads. -/
  tables     : s.fsm = .sym ∨ s.fsm = .dist ∨ s.fsm = .copy → s.tsel = .dyn →
    s.ll.InBounds ∧ s.dt.InBounds
  /-- 10_state.md R42: a length is 3 to 258. -/
  mLen       : s.fsm = .dist → 3 ≤ s.mLen.toNat ∧ s.mLen.toNat ≤ 258
  /-- 43_lz77.md R297: the operands of COPY. -/
  copy       : s.fsm = .copy →
    1 ≤ s.mRem.toNat ∧ s.mRem.toNat ≤ 258 ∧ 1 ≤ s.mDist.toNat ∧ s.mDist.toNat ≤ s.outLen

/-! ## Runs -/

/-- The run has come to its end (00_scope.md R11 "run"). -/
def State.ended (s : State) : Prop := s.fsm = .done ∨ s.fsm = .error

/-- A state that the host may start a run from, with nothing more to do itself: the block waits, the
payload is loaded, no host move is pending (70_reset_and_hazards.md R374). -/
structure Startable (s : State) : Prop where
  inv     : Inv s
  waiting : s.fsm.waiting = true
  loaded  : InputLoaded s
  silent  : s.host = []

/-- A safe run: every number of steps from `s` ends in a next state, with no fault and no refusal. -/
def SafeRun (s : State) : Prop := ∀ k, ∃ t, core.run k s = .next t

end Sys2Proof.Machine
end

