-- ==== Sys2Proof/Certificates/Slice0/Obligations.lean ====
section
/-! DEFINITION. The statements for the provers. A next state is written out as the state before with the
fields that change, so each such statement is also the instruction's frame. `exec i s` stands where the
element's field or codeword has been taken from the stream (log 8), and a step takes the host's next move
first (log 4). -/

open Sys2Proof Sys2Proof.Machine

/-! ## Encoding -/

/-- Decoding the encoding of a well-formed instruction gives it back (opcode_table.json; 30_encoding.md
sections 2 to 6). -/
def Obligations.EncodeThenDecodeGivesInstr : Prop :=
  ∀ i : Instr, i.wellFormed = true → decode (encode i).fmt (encode i).value = .ok i

/-- A stream value has one meaning: what it decodes to is well formed and encodes back to the same
format and value. A write to CTRL is left out, since its bits 31:1 are ignored (R44). -/
def Obligations.DecodedInstrEncodesBack : Prop :=
  ∀ (f : Format) (w : Nat) (i : Instr), f ≠ .hostCtrlWrite → decode f w = .ok i →
    i.wellFormed = true ∧ encode i = { fmt := f, value := w }

/-- Every value has one meaning or a named rejection: no value matches two rows of one format; code-length
values 19 to 31, literal/length values 288 to 511, a CTRL write with bit 0 clear, and a value too wide
for its format are rejected, each by its name. That these values have no row is the table's and the
spec's (R116, R118, R338); that the decoder rejects each by a name is the model's form (logs 9 and 17). -/
def Obligations.ValuesHaveOneRowOrARejection : Prop :=
  (∀ (f : Format) (w : Nat), (f.rows.filter fun r => r.hits w).length ≤ 1) ∧
  (∀ w, 19 ≤ w → w < 32 → decode .clSymbol w = .error .clSymbolAbove18) ∧
  (∀ w, 288 ≤ w → w < 512 → decode .litlenSymbol w = .error .litlenSymbolAbove287) ∧
  (∀ w, w % 2 = 0 → w < 2 ^ 32 → decode .hostCtrlWrite w = .error .startBitClear) ∧
  (∀ f w, 2 ^ f.bits ≤ w → decode f w = .error .tooWide)

/-- Words written out from the spec's own examples decode to the elements they stand for (R241, R243,
R246 and P3 of 95_test_vectors.md among them). -/
def Obligations.SpecWordsDecode : Prop :=
  decode .blockHeader 0b011 = .ok (.blockFixed 1) ∧
  decode .storedHeader 0xFFFA0005 = .ok (.stored 5 0xFFFA) ∧
  decode .storedData 0x6F = .ok (.storedByte 0x6F) ∧
  decode .dynamicHeader 0b11100001000100 = .ok (.dynhdr 261 3 18) ∧
  decode .clLength 0b010 = .ok (.cllen 2) ∧
  decode .clSymbol 0b10010 = .ok .cl18 ∧
  decode .litlenSymbol 72 = .ok (.lit 0x48) ∧
  decode .litlenSymbol 284 = .ok .lsym284 ∧
  decode .distanceSymbol 29 = .ok .dsym29 ∧
  decode .hostCtrlWrite 1 = .ok .start

/-! ## Steps -/

/-- A step runs the element it fetched: exec on the state whose reader is past the element's field or
codeword (where exec begins is the model's choice, log 8), committed whole or not at all (R10, R332). That
the host's moves stand in a list, and that a `pass` in it lets the block take the same step, is the
model's choice, log 4. -/
def Obligations.StepRunsFetchedInstr : Prop :=
  (∀ (s : State) (i : Instr) (r : BitReader), s.host = [] → fetch s = some (.ok (i, r)) →
    step s = commit s (exec i { s with br := r })) ∧
  (∀ (s : State) (rest : List HostAct), s.host = .pass :: rest →
    step s = blockStep { s with host := rest }) ∧
  (∀ s : State, s.host = [] → step s = blockStep s)

/-- The FSM state selects the format of the element a step takes, and what is fetched is well formed
(R127). -/
def Obligations.FsmSelectsTheFormat : Prop :=
  ∀ (s : State) (i : Instr) (r : BitReader), fetch s = some (.ok (i, r)) →
    i.wellFormed = true ∧ stateReading (encode i).fmt = s.fsm

/-- R332: a step that raises commits `ERR_CODE` and `STATE`, and nothing else. -/
def Obligations.FailingStepCommitsOnlyError : Prop :=
  ∀ s t : State, s.host = [] → s.fsm ≠ .error → step s = .next t → t.fsm = .error →
    t.errCode ≠ .none ∧ t = { s with errCode := t.errCode, fsm := .error }

/-- R240: the transitions of the FSM, with ERROR possible from any state; IDLE, DONE and ERROR take no step
(that waiting is a step that changes nothing is the model's form, log 7), and START leads from each of
them to HDR. -/
def Obligations.FsmFollowsTransitionTable : Prop :=
  (∀ s t : State, s.host = [] → step s = .next t → t.fsm = .error ∨ t.fsm ∈ s.fsm.successors) ∧
  (∀ s : State, s.host = [] → s.fsm.waiting = true → step s = .next s) ∧
  (∀ (s : State) (v : Word) (rest : List HostAct), s.host = .write 0x00 v :: rest → v.toNat % 2 = 1 →
    s.fsm.waiting = true → ∃ t, step s = .next t ∧ t.fsm = .hdr)

/-- Which states write which registers (10_state.md sections 2 to 7): in every other state a step of the
block leaves the register alone. `CL` is written by DYN_CLBUILD alone, `LL` and `DT` by DYN_BUILD alone;
`BR_POS` never decreases, and the steps that read no element leave the reader alone. The input memory,
its length, the parameters and the host's list are never written by the block. -/
def Obligations.RegistersKeepTheirWriters : Prop :=
  ∀ s t : State, blockStep s = .next t →
    (s.fsm ≠ .hdr → t.bfinal = s.bfinal ∧ t.btype = s.btype) ∧
    (s.fsm ≠ .hdr → s.fsm ≠ .dynBuild → t.tsel = s.tsel) ∧
    (s.fsm ≠ .dynHdr → t.hlit = s.hlit ∧ t.hdist = s.hdist ∧ t.hclen = s.hclen) ∧
    (s.fsm ≠ .dynHdr → s.fsm ≠ .dynClLen → t.clIdx = s.clIdx ∧ t.clLens = s.clLens) ∧
    (s.fsm ≠ .dynLens → t.lens = s.lens) ∧
    (s.fsm ≠ .dynLens → s.fsm ≠ .dynClBuild → t.lk = s.lk) ∧
    (s.fsm ≠ .storedHdr → s.fsm ≠ .storedCopy → t.stRem = s.stRem) ∧
    (s.fsm ≠ .sym → t.mLen = s.mLen) ∧
    (s.fsm ≠ .dist → t.mDist = s.mDist) ∧
    (s.fsm ≠ .dist → s.fsm ≠ .copy → t.mRem = s.mRem) ∧
    (s.fsm ≠ .dynClBuild → t.cl = s.cl) ∧ (s.fsm ≠ .dynBuild → t.ll = s.ll ∧ t.dt = s.dt) ∧
    s.br.pos ≤ t.br.pos ∧
    (s.fsm = .dynClBuild ∨ s.fsm = .dynBuild ∨ s.fsm = .copy ∨ s.fsm = .blockEnd ∨
      s.fsm.waiting = true → t.br = s.br) ∧
    (t.fsm ≠ .error → t.errCode = s.errCode) ∧
    (t.params = s.params ∧ t.host = s.host ∧ t.inLen = s.inLen ∧ t.inMem = s.inMem)

/-- The output is only ever appended to (R84): a block step leaves `OUT_LEN` and every byte as they were,
or adds 1 to `OUT_LEN` and changes the byte at the old `OUT_LEN` alone, and only STORED_COPY, SYM and
COPY do so. -/
def Obligations.OutputIsAppendOnly : Prop :=
  ∀ s t : State, blockStep s = .next t →
    (t.outLen = s.outLen ∧ t.outMem = s.outMem) ∨
    ((s.fsm = .storedCopy ∨ s.fsm = .sym ∨ s.fsm = .copy) ∧ t.outLen = s.outLen + 1 ∧
      (t.outMem.read? s.outLen).isSome = true ∧
      ∀ a, a ≠ s.outLen → t.outMem.read? a = s.outMem.read? a)

/-! ## Bit reader -/

/-- R172: a request of more than 25 bits is refused before any bit is read, and no step of the block
makes one. -/
def Obligations.WideRequestIsRefused : Prop :=
  (∀ (mem : Memory) (len n : Nat) (r : BitReader), 25 < n →
    getBits mem len n r = .error (.raise .bitRequestTooWide)) ∧
  (∀ s t : State, s.errCode ≠ .bitRequestTooWide → blockStep s = .next t →
    t.errCode ≠ .bitRequestTooWide)

/-- R85: GET_BITS returns the next n stream bits, the first in bit 0, where stream bit i is bit i % 8 of
input byte i / 8. The leftover bits are the next stream bits before the call and after it, and the
stream position moves by n. -/
def Obligations.GetBitsReadsTheStream : Prop :=
  ∀ (mem : Memory) (len n v : Nat) (r r' : BitReader), r.Agrees mem →
    getBits mem len n r = .ok (v, r') →
    v < 2 ^ n ∧ (∀ k, k < n → streamBit? mem (r.streamPos + k) = some (v.testBit k)) ∧
    r'.streamPos = r.streamPos + n ∧ r'.Agrees mem ∧ r'.Clean

/-- On a loaded input, GET_BITS of at most 25 bits succeeds exactly when that many bits are left, and
raises TRUNCATED otherwise (R171, R177). -/
def Obligations.GetBitsSucceedsIffBitsRemain : Prop :=
  ∀ (mem : Memory) (len n : Nat) (r : BitReader), n ≤ 25 →
    (∀ a, a < len → (mem.read? a).isSome = true) →
    (n ≤ r.bitsAhead len → ∃ v r', getBits mem len n r = .ok (v, r') ∧ v < 2 ^ n ∧
      r'.bitsAhead len + n = r.bitsAhead len) ∧
    (r.bitsAhead len < n → getBits mem len n r = .error (.raise .truncated))

/-- GET_BITS pulls a byte only while fewer than n bits are held: afterwards `BR_POS` has moved by the
least number of bytes that brings n bits (R177), and at most 7 bits are left over (R179). -/
def Obligations.GetBitsPullsLazily : Prop :=
  ∀ (mem : Memory) (len n v : Nat) (r r' : BitReader), getBits mem len n r = .ok (v, r') →
    r'.pos = r.pos + (n - r.cnt.toNat + 7) / 8 ∧
    r'.cnt.toNat + n = r.cnt.toNat + 8 * (r'.pos - r.pos) ∧ r'.Clean

/-- R178: any two ways of splitting a read into GET_BITS calls of at most 25 bits give the same
concatenation of bits, the same reader and the same outcome, truncation included; one call of the total
is one of the ways while the total is at most 25. -/
def Obligations.ChunkedReadsAreAssociative : Prop :=
  ∀ (mem : Memory) (len : Nat) (r : BitReader) (ns ms : List Nat), ns ≠ [] → ms ≠ [] →
    (∀ n, n ∈ ns → n ≤ 25) → (∀ m, m ∈ ms → m ≤ 25) → ns.sum = ms.sum →
    readPlan mem len ns r = readPlan mem len ms r

/-- R175: READ_BYTE returns the byte at `BR_POS` and moves past it, or raises TRUNCATED at the end of the
input; with no leftover bits it does what GET_BITS(8) does. -/
def Obligations.ReadByteIsGetBitsEight : Prop :=
  (∀ (mem : Memory) (len : Nat) (r : BitReader), len ≤ r.pos →
    readByte mem len r = .error (.raise .truncated)) ∧
  (∀ (mem : Memory) (len : Nat) (r : BitReader) (b : Byte), r.pos < len → mem.read? r.pos = some b →
    readByte mem len r = .ok (b, { r with pos := r.pos + 1 })) ∧
  (∀ (mem : Memory) (len : Nat) (r : BitReader), r.Clean → r.cnt = 0 →
    getBits mem len 8 r = (readByte mem len r).map fun p => (p.1.toNat, p.2))

/-- R174, R176: DROP_ALIGN empties the leftover bits and leaves `BR_POS` (with none held it changes
nothing); READ_U16LE reads two bytes, the low one first, and raises TRUNCATED if either is missing. -/
def Obligations.AlignedReads : Prop :=
  (∀ r : BitReader, dropAlign r = { pos := r.pos, buf := 0, cnt := 0 }) ∧
  (∀ r : BitReader, r.Clean → r.cnt = 0 → dropAlign r = r) ∧
  (∀ (mem : Memory) (len : Nat) (r : BitReader) (lo hi : Byte), r.pos + 1 < len →
    mem.read? r.pos = some lo → mem.read? (r.pos + 1) = some hi →
    readU16le mem len r = .ok (lo.toNat + 256 * hi.toNat, { r with pos := r.pos + 2 })) ∧
  (∀ (mem : Memory) (len : Nat) (r : BitReader), (∀ a, a < len → (mem.read? a).isSome = true) →
    len ≤ r.pos + 1 → readU16le mem len r = .error (.raise .truncated))

/-! ## Huffman tables -/

/-- R209, R210: `FLL` and `FDT` are the tables BUILD makes from the fixed code lengths, with the contents
the rules list; the canonical codewords of those lengths are those of R123 and R124. -/
def Obligations.FixedTablesAreBuilt : Prop :=
  fll = (HuffTable.zero 9 9 Config.llAlphaMax).build fixedLitlenLengths ∧
  (∀ L, L < 16 → fll.countOf L = if L = 7 then 24 else if L = 8 then 152 else if L = 9 then 112 else 0) ∧
  (∀ i, i < 24 → fll.orderAt i = .ok (256 + i)) ∧ (∀ i, i < 144 → fll.orderAt (24 + i) = .ok i) ∧
  (∀ i, i < 8 → fll.orderAt (168 + i) = .ok (280 + i)) ∧
  (∀ i, i < 112 → fll.orderAt (176 + i) = .ok (144 + i)) ∧
  fdt = (HuffTable.zero 6 5 Config.distAlphaMax).build fixedDistLengths ∧
  (∀ L, L < 16 → fdt.countOf L = if L = 5 then 32 else 0) ∧
  (∀ i, i < 32 → fdt.orderAt i = .ok i) ∧
  (∀ s, s < 288 →
    fixedLitlenCode s = (fixedLitlenLengths.getD s 0, codeword fixedLitlenLengths s)) ∧
  (∀ c, c < 32 → fixedDistLengths.getD c 0 = 5 ∧ codeword fixedDistLengths c = c)

/-- R201: BUILD counts the symbols of each length, 0 included, and writes to ORDER the symbols that have a
length, shorter lengths first, ties by symbol index, from ORDER[0] on and within the array. That the
entries of ORDER past the placed symbols keep their old values, where U13 allows any value, is the
model's reading, log 12 (COUNT[0] is as R201 and 90_conflicts.md C4 have it). -/
def Obligations.BuildSortsSymbols : Prop :=
  ∀ (cw ow n : Nat) (t : HuffTable cw ow n) (len : List Nat),
    len.length ≤ n → n < 2 ^ cw → n ≤ 2 ^ ow → (∀ l, l ∈ len → l ≤ 15) →
    (∀ L, L ≤ 15 → (t.build len).countOf L = len.count L) ∧
    ((t.build len).order.toList.map BitVec.toNat).take (symbolsInOrder len).length = symbolsInOrder len ∧
    (symbolsInOrder len).length ≤ n ∧
    ∀ i : Nat, (symbolsInOrder len).length ≤ i → (t.build len).order[i]? = t.order[i]?

/-- BUILD never lets DECODE index outside `ORDER`, and every symbol that has a codeword is below its `n`,
whatever the old table held (R201, R203). -/
def Obligations.BuildKeepsIndicesInBounds : Prop :=
  ∀ (cw ow n : Nat) (t : HuffTable cw ow n) (len : List Nat), len.length ≤ n → n < 2 ^ cw →
    (t.build len).InBounds ∧
    ∀ (i : Nat) (x : BitVec ow), i < (t.build len).assigned → (t.build len).order[i]? = some x →
      x.toNat < len.length

/-- DECODE on a table that stays in bounds, on a loaded input: it returns an entry of `ORDER`
below `COUNT[1] + … + COUNT[15]`, never a stale one, and consumes 1 to 15 bits, or it raises INVALID_CODE
with at least 15 bits left, or TRUNCATED with fewer than 15 (R203 to R205). After a BUILD the symbol is
then below its `n` (BuildKeepsIndicesInBounds). -/
def Obligations.DecodeOutcomes : Prop :=
  ∀ (cw ow n len : Nat) (t : HuffTable cw ow n) (mem : Memory) (r : BitReader), t.InBounds →
    (∀ a, a < len → (mem.read? a).isSome = true) →
    (∃ v r', decodeSym t mem len r = .ok (v, r') ∧
      (∃ i : Nat, ∃ x : BitVec ow, i < t.assigned ∧ t.order[i]? = some x ∧ x.toNat = v) ∧
      r'.bitsAhead len < r.bitsAhead len ∧ r.bitsAhead len ≤ r'.bitsAhead len + 15) ∨
    (15 ≤ r.bitsAhead len ∧ decodeSym t mem len r = .error (.raise .invalidCode)) ∨
    (r.bitsAhead len < 15 ∧ decodeSym t mem len r = .error (.raise .truncated))

/-- R206: on a complete or under-subscribed code, DECODE of the canonical codeword of a symbol, fed most
significant bit first, returns the symbol and consumes exactly the codeword. -/
def Obligations.CanonicalCodewordsDecode : Prop :=
  ∀ (cw ow n : Nat) (t : HuffTable cw ow n) (len : List Nat) (mem : Memory) (inLen sym : Nat)
    (r r' : BitReader),
    len.length ≤ n → n < 2 ^ cw → n ≤ 2 ^ ow → (∀ l, l ∈ len → l ≤ 15) → KraftAtMostOne len →
    sym < len.length → len.getD sym 0 ≠ 0 →
    TakesBits mem inLen (codeBits (len.getD sym 0) (codeword len sym)) r r' →
    decodeSym (t.build len) mem inLen r = .ok (sym, r')

/-! ## Block headers and stored blocks -/

/-- R241: HDR reads GET_BITS(1) and GET_BITS(2), writes `BFINAL` and `BTYPE` and dispatches on BTYPE; BTYPE 11
raises UNKNOWN_BLOCK_TYPE, and a failing read raises its error, with neither flag written. -/
def Obligations.HeaderStepDispatches : Prop :=
  ∀ s : State, s.host = [] → s.fsm = .hdr →
    (∀ f r1 t r2, getBits s.inMem s.inLen 1 s.br = .ok (f, r1) →
      getBits s.inMem s.inLen 2 r1 = .ok (t, r2) →
      (t = 0b00 → step s = .next { s with
        br := r2, bfinal := BitVec.ofNat 1 f, btype := 0b00, fsm := .storedHdr }) ∧
      (t = 0b01 → step s = .next { s with
        br := r2, bfinal := BitVec.ofNat 1 f, btype := 0b01, tsel := .fixed, fsm := .sym }) ∧
      (t = 0b10 → step s = .next { s with
        br := r2, bfinal := BitVec.ofNat 1 f, btype := 0b10, fsm := .dynHdr }) ∧
      (t = 0b11 → step s = .next { s with errCode := .unknownBlockType, fsm := .error })) ∧
    (∀ e, getBits s.inMem s.inLen 1 s.br = .error (.raise e) →
      step s = .next { s with errCode := e, fsm := .error }) ∧
    (∀ f r1 e, getBits s.inMem s.inLen 1 s.br = .ok (f, r1) →
      getBits s.inMem s.inLen 2 r1 = .error (.raise e) →
      step s = .next { s with errCode := e, fsm := .error })

/-- The block headers complete in every state, and the reserved one takes its error (R241, R242). -/
def Obligations.BlockHeadersComplete : Prop :=
  ∀ (f : BitVec 1) (s : State),
    exec (.blockStored f) s = .next { s with bfinal := f, btype := 0b00, fsm := .storedHdr } ∧
    exec (.blockFixed f) s =
      .next { s with bfinal := f, btype := 0b01, tsel := .fixed, fsm := .sym } ∧
    exec (.blockDynamic f) s = .next { s with bfinal := f, btype := 0b10, fsm := .dynHdr } ∧
    exec (.blockReserved f) s = .next { s with errCode := .unknownBlockType, fsm := .error }

/-- R243: STORED_HDR aligns, reads LEN and NLEN, raises STORED_LEN_MISMATCH unless NLEN is the 16-bit
complement of LEN, and otherwise sets `ST_REM` and goes to STORED_COPY, or to BLOCK_END for LEN = 0. -/
def Obligations.StoredHeaderStep : Prop :=
  ∀ s : State, s.host = [] → s.fsm = .storedHdr →
    (∀ len r1 nlen r2, readU16le s.inMem s.inLen { pos := s.br.pos, buf := 0, cnt := 0 } = .ok (len, r1) →
      readU16le s.inMem s.inLen r1 = .ok (nlen, r2) →
      (len ≠ 0xFFFF - nlen → step s = .next { s with errCode := .storedLenMismatch, fsm := .error }) ∧
      (len = 0xFFFF - nlen → step s = .next { s with
        br := r2, stRem := BitVec.ofNat 16 len,
        fsm := if len = 0 then .blockEnd else .storedCopy })) ∧
    (∀ e, readU16le s.inMem s.inLen { pos := s.br.pos, buf := 0, cnt := 0 } = .error (.raise e) →
      step s = .next { s with errCode := e, fsm := .error }) ∧
    (∀ len r1 e, readU16le s.inMem s.inLen { pos := s.br.pos, buf := 0, cnt := 0 } = .ok (len, r1) →
      readU16le s.inMem s.inLen r1 = .error (.raise e) →
      step s = .next { s with errCode := e, fsm := .error })

/-- R244: STORED_COPY appends the byte at `BR_POS` and counts `ST_REM` down, to BLOCK_END at 0; it raises
TRUNCATED at the end of the input, and OUTPUT_OVERFLOW when the output is full. -/
def Obligations.StoredCopyStep : Prop :=
  ∀ s : State, s.host = [] → s.fsm = .storedCopy → 1 ≤ s.stRem.toNat →
    (∀ b, s.br.pos < s.inLen → s.inMem.read? s.br.pos = some b → s.outLen ≠ s.params.outCap →
      step s = .next { s with
        br := { s.br with pos := s.br.pos + 1 },
        outMem := s.outMem.write s.outLen b, outLen := s.outLen + 1,
        stRem := BitVec.ofNat 16 (s.stRem.toNat - 1),
        fsm := if s.stRem.toNat = 1 then .blockEnd else .storedCopy }) ∧
    (s.inLen ≤ s.br.pos → step s = .next { s with errCode := .truncated, fsm := .error }) ∧
    (∀ b, s.br.pos < s.inLen → s.inMem.read? s.br.pos = some b → s.outLen = s.params.outCap →
      step s = .next { s with errCode := .outputOverflow, fsm := .error })

/-- The elements of a stored block complete: the header with NLEN the complement of LEN, and a data byte
while one is left to copy and the output has room; a mismatch and a full output take their errors. -/
def Obligations.StoredElementsComplete : Prop :=
  (∀ (len nlen : BitVec 16) (s : State), len.toNat + nlen.toNat = 0xFFFF →
    exec (.stored len nlen) s = .next { s with
      stRem := len, fsm := if len.toNat = 0 then .blockEnd else .storedCopy }) ∧
  (∀ (len nlen : BitVec 16) (s : State), len.toNat + nlen.toNat ≠ 0xFFFF →
    exec (.stored len nlen) s = .next { s with errCode := .storedLenMismatch, fsm := .error }) ∧
  (∀ (b : Byte) (s : State), 1 ≤ s.stRem.toNat → s.outLen ≠ s.params.outCap →
    exec (.storedByte b) s = .next { s with
      outMem := s.outMem.write s.outLen b, outLen := s.outLen + 1,
      stRem := BitVec.ofNat 16 (s.stRem.toNat - 1),
      fsm := if s.stRem.toNat = 1 then .blockEnd else s.fsm }) ∧
  (∀ (b : Byte) (s : State), 1 ≤ s.stRem.toNat → s.outLen = s.params.outCap →
    exec (.storedByte b) s = .next { s with errCode := .outputOverflow, fsm := .error })

/-- What a completed LIT_b or STORED_BYTE does to the memories, read byte by byte (R84): the address
`OUT_LEN` of the output holds the byte, every other address of the output and every address of the input
reads as before, and `OUT_LEN` grows by 1. -/
def Obligations.AppendingElementsStoreOneByte : Prop :=
  ∀ (b : Byte) (s t : State),
    exec (.lit b) s = .next t ∨ exec (.storedByte b) s = .next t → t.fsm ≠ .error →
    t.outLen = s.outLen + 1 ∧ t.outMem.read? s.outLen = some b ∧
      (∀ a, a ≠ s.outLen → t.outMem.read? a = s.outMem.read? a) ∧
      (∀ a, t.inMem.read? a = s.inMem.read? a)

/-! ## Dynamic header -/

/-- R245: DYN_HDR reads 5, 5 and 4 bits, sets HLIT, HDIST and HCLEN to them plus 257, 1 and 4, zeroes
CL_LENS and CL_IDX, and goes to DYN_CLLEN; a failing read raises its error. -/
def Obligations.DynHeaderStep : Prop :=
  ∀ s : State, s.host = [] → s.fsm = .dynHdr →
    (∀ a r1 b r2 c r3, getBits s.inMem s.inLen 5 s.br = .ok (a, r1) →
      getBits s.inMem s.inLen 5 r1 = .ok (b, r2) → getBits s.inMem s.inLen 4 r2 = .ok (c, r3) →
      step s = .next { s with
        br := r3, hlit := BitVec.ofNat 9 (a + 257), hdist := BitVec.ofNat 6 (b + 1),
        hclen := BitVec.ofNat 5 (c + 4), clLens := Vector.replicate 19 0, clIdx := 0,
        fsm := .dynClLen }) ∧
    (∀ e, (getBits s.inMem s.inLen 5 s.br = .error (.raise e) ∨
        (∃ a r1, getBits s.inMem s.inLen 5 s.br = .ok (a, r1) ∧
          getBits s.inMem s.inLen 5 r1 = .error (.raise e)) ∨
        (∃ a r1 b r2, getBits s.inMem s.inLen 5 s.br = .ok (a, r1) ∧
          getBits s.inMem s.inLen 5 r1 = .ok (b, r2) ∧
          getBits s.inMem s.inLen 4 r2 = .error (.raise e))) →
      step s = .next { s with errCode := e, fsm := .error })

/-- R246: DYN_CLLEN writes 3 bits to `CL_LENS[PERM[CL_IDX]]` and adds 1 to CL_IDX, to DYN_CLBUILD when it
reaches HCLEN; a failing read raises its error. PERM is the order that R115 lists. -/
def Obligations.ClLenStep : Prop :=
  perm = [16, 17, 18, 0, 8, 7, 9, 6, 10, 5, 11, 4, 12, 3, 13, 2, 14, 1, 15] ∧
  ∀ s : State, s.host = [] → s.fsm = .dynClLen → s.clIdx.toNat < s.hclen.toNat → s.hclen.toNat ≤ 19 →
    (∀ l r, getBits s.inMem s.inLen 3 s.br = .ok (l, r) →
      step s = .next { s with
        br := r,
        clLens := s.clLens.setIfInBounds (perm.getD s.clIdx.toNat 0) (BitVec.ofNat 3 l),
        clIdx := BitVec.ofNat 5 (s.clIdx.toNat + 1),
        fsm := if s.clIdx.toNat + 1 = s.hclen.toNat then .dynClBuild else .dynClLen }) ∧
    (∀ e, getBits s.inMem s.inLen 3 s.br = .error (.raise e) →
      step s = .next { s with errCode := e, fsm := .error })

/-- The dynamic header's fixed fields complete: the counts in every state, a code-length length while
CL_IDX is below 19 (R245, R246). -/
def Obligations.DynHeaderElementsComplete : Prop :=
  (∀ (a : BitVec 9) (b : BitVec 6) (c : BitVec 5) (s : State),
    exec (.dynhdr a b c) s = .next { s with
      hlit := a, hdist := b, hclen := c, clLens := Vector.replicate 19 0, clIdx := 0,
      fsm := .dynClLen }) ∧
  (∀ (l : BitVec 3) (s : State), s.clIdx.toNat < 19 →
    exec (.cllen l) s = .next { s with
      clLens := s.clLens.setIfInBounds (perm.getD s.clIdx.toNat 0) l,
      clIdx := BitVec.ofNat 5 (s.clIdx.toNat + 1),
      fsm := if s.clIdx.toNat + 1 = s.hclen.toNat then .dynClBuild else s.fsm })

/-- R247, R255, R256: DYN_CLBUILD builds CL from CL_LENS and zeroes LK; DYN_BUILD builds LL from the first
HLIT entries of LENS and DT from the next HDIST, and selects them; BLOCK_END goes to DONE after the
last block and to HDR after any other. None of them reads a stream bit. -/
def Obligations.BuildAndBlockEndSteps : Prop :=
  (∀ s : State, s.host = [] → s.fsm = .dynClBuild →
    step s = .next { s with
      cl := s.cl.build ((List.range 19).map fun i => (s.clLens[i]?.getD 0).toNat),
      lk := 0, fsm := .dynLens }) ∧
  (∀ s : State, s.host = [] → s.fsm = .dynBuild → s.hlit.toNat ≤ 288 → s.hdist.toNat ≤ 32 →
    step s = .next { s with
      ll := s.ll.build ((List.range s.hlit.toNat).map fun i => (s.lens[i]?.getD 0).toNat),
      dt := s.dt.build
        ((List.range s.hdist.toNat).map fun i => (s.lens[s.hlit.toNat + i]?.getD 0).toNat),
      tsel := .dyn, fsm := .sym }) ∧
  (∀ s : State, s.host = [] → s.fsm = .blockEnd →
    step s = .next { s with fsm := if s.bfinal = 1 then .done else .hdr })

/-- R248, R250, R333: DYN_LENS decodes one symbol from CL and runs it, its meaning committed whole or not
at all. A failing codeword raises its error; 16 with no length before it raises NO_PREVIOUS_LENGTH, and the
missing extra bits of a 16 with one, a 17 or an 18 raise their error. -/
def Obligations.DynLensStep : Prop :=
  ∀ s : State, s.host = [] → s.fsm = .dynLens →
    (∀ e, decodeSym s.cl s.inMem s.inLen s.br = .error (.raise e) →
      step s = .next { s with errCode := e, fsm := .error }) ∧
    (∀ v r i, decodeSym s.cl s.inMem s.inLen s.br = .ok (v, r) → decode .clSymbol v = .ok i →
      step s = commit s (exec i { s with br := r })) ∧
    (∀ r, decodeSym s.cl s.inMem s.inLen s.br = .ok (16, r) → s.lk = 0 →
      step s = .next { s with errCode := .noPreviousLength, fsm := .error }) ∧
    (∀ v r n e, decodeSym s.cl s.inMem s.inLen s.br = .ok (v, r) →
      (v = 16 ∧ s.lk ≠ 0 ∧ n = 2 ∨ v = 17 ∧ n = 3 ∨ v = 18 ∧ n = 7) →
      getBits s.inMem s.inLen n r = .error (.raise e) →
      step s = .next { s with errCode := e, fsm := .error })

/-- R249 to R252: a code-length symbol completes wherever its extra bits are read and the lengths they
give fit: it writes r copies of the value from LENS[LK] on, leaves every other length, adds r to LK, and
goes to DYN_BUILD when LK reaches HLIT + HDIST. (When the extra bits can be read is
GetBitsSucceedsIffBitsRemain.) -/
def Obligations.ClSymbolsComplete : Prop :=
  ∀ (i : Instr) (s : State) (n base x : Nat) (r : BitReader), s.totalLens ≤ 320 →
    ((∃ v, i = .cl v) ∧ n = 0 ∧ base = 1 ∨ i = .cl16 ∧ s.lk ≠ 0 ∧ n = 2 ∧ base = 3 ∨
      i = .cl17 ∧ n = 3 ∧ base = 3 ∨ i = .cl18 ∧ n = 7 ∧ base = 11) →
    (n = 0 ∧ x = 0 ∧ r = s.br ∨ n ≠ 0 ∧ getBits s.inMem s.inLen n s.br = .ok (x, r)) →
    s.lk.toNat + (x + base) ≤ s.totalLens →
    ∃ v lens, (∀ w, i = .cl w → v = w) ∧ (i = .cl16 → s.lens[s.lk.toNat - 1]? = some v) ∧
      (i = .cl17 ∨ i = .cl18 → v = 0) ∧
      (∀ j : Nat, j < 320 → lens[j]? =
        if s.lk.toNat ≤ j ∧ j < s.lk.toNat + (x + base) then some v else s.lens[j]?) ∧
      exec i s = .next { s with
        br := r, lens := lens, lk := BitVec.ofNat 9 (s.lk.toNat + (x + base)),
        fsm := if s.lk.toNat + (x + base) = s.totalLens then .dynBuild else s.fsm }

/-- R250, R253: CL symbol 16 with no previous length raises NO_PREVIOUS_LENGTH before its extra bits are
read, whatever the input still holds. A repeat (16 with a previous length, 17 or 18) that would pass
HLIT + HDIST raises INVALID_DYNAMIC_TREE and writes no length; one that ends exactly there goes to
DYN_BUILD. -/
def Obligations.RepeatsAreChecked : Prop :=
  (∀ s : State, s.lk = 0 →
    exec .cl16 s = .next { s with errCode := .noPreviousLength, fsm := .error }) ∧
  ∀ (i : Instr) (s : State) (n base x : Nat) (r : BitReader), s.totalLens ≤ 320 → s.lk.toNat ≤ s.totalLens →
    (i = .cl16 ∧ s.lk ≠ 0 ∧ n = 2 ∧ base = 3 ∨ i = .cl17 ∧ n = 3 ∧ base = 3 ∨
      i = .cl18 ∧ n = 7 ∧ base = 11) →
    getBits s.inMem s.inLen n s.br = .ok (x, r) →
    (s.totalLens < s.lk.toNat + (x + base) →
      exec i s = .next { s with errCode := .invalidDynamicTree, fsm := .error }) ∧
    (s.lk.toNat + (x + base) = s.totalLens →
      ∃ t, exec i s = .next t ∧ t.fsm = .dynBuild ∧ t.lk.toNat = s.totalLens)

/-! ## Literal/length and distance symbols, and the copy -/

/-- R290 to R294: SYM decodes one symbol from the table TSEL selects. A literal is appended; 256 ends the
block; 257 to 285 read their extra bits and fix the match length; any other symbol raises
INVALID_LITLEN_CODE. A failing codeword or extra-bit read raises its error. -/
def Obligations.LitlenStep : Prop :=
  ∀ s : State, s.host = [] → s.fsm = .sym →
    (∀ v r, decodeSym (if s.tsel = .fixed then fll else s.ll) s.inMem s.inLen s.br = .ok (v, r) →
      (v ≤ 255 → s.outLen ≠ s.params.outCap → step s = .next { s with
        br := r, outMem := s.outMem.write s.outLen (BitVec.ofNat 8 v), outLen := s.outLen + 1 }) ∧
      (v ≤ 255 → s.outLen = s.params.outCap →
        step s = .next { s with errCode := .outputOverflow, fsm := .error }) ∧
      (v = 256 → step s = .next { s with br := r, fsm := .blockEnd }) ∧
      (257 ≤ v → v ≤ 285 →
        (∀ x r2, getBits s.inMem s.inLen (lenExtra (v - 257)) r = .ok (x, r2) →
          step s = .next { s with
            br := r2, mLen := BitVec.ofNat 9 (lenOf (v - 257) x), fsm := .dist }) ∧
        (∀ e, getBits s.inMem s.inLen (lenExtra (v - 257)) r = .error (.raise e) →
          step s = .next { s with errCode := e, fsm := .error })) ∧
      (286 ≤ v → step s = .next { s with errCode := .invalidLitlenCode, fsm := .error })) ∧
    (∀ e, decodeSym (if s.tsel = .fixed then fll else s.ll) s.inMem s.inLen s.br = .error (.raise e) →
      step s = .next { s with errCode := e, fsm := .error })

/-- R291, R292: a literal completes while the output has room and takes OUTPUT_OVERFLOW when it is full;
end of block completes in every state. -/
def Obligations.LiteralAndEndComplete : Prop :=
  ∀ (b : Byte) (s : State),
    (s.outLen ≠ s.params.outCap → exec (.lit b) s = .next { s with
      outMem := s.outMem.write s.outLen b, outLen := s.outLen + 1 }) ∧
    (s.outLen = s.params.outCap →
      exec (.lit b) s = .next { s with errCode := .outputOverflow, fsm := .error }) ∧
    exec .eob s = .next { s with fsm := .blockEnd }

/-- R293: on a loaded input with its extra bits left, every length symbol 257 to 285 completes: it takes
its extra bits, fixes `M_LEN` by R119 and goes to DIST. -/
def Obligations.LengthSymbolsComplete : Prop :=
  ∀ (i : Instr) (c : Nat) (s : State), i.lengthCode? = some c → InputLoaded s →
    lenExtra c ≤ s.br.bitsAhead s.inLen →
    ∃ x r, x < 2 ^ lenExtra c ∧ getBits s.inMem s.inLen (lenExtra c) s.br = .ok (x, r) ∧
      exec i s = .next { s with br := r, mLen := BitVec.ofNat 9 (lenOf c x), fsm := .dist }

/-- R119 and R121: the length and distance functions, as the rules' tables give them: the number of extra
bits and the base value of every code. The extra bits count up from the base; every length is 3 to 258,
and every distance of a code below 30 is 1 to 32768. -/
def Obligations.LengthAndDistanceTables : Prop :=
  ((List.range 29).map fun c => (lenExtra c, lenOf c 0)) =
    [(0, 3), (0, 4), (0, 5), (0, 6), (0, 7), (0, 8), (0, 9), (0, 10), (1, 11), (1, 13), (1, 15), (1, 17),
      (2, 19), (2, 23), (2, 27), (2, 31), (3, 35), (3, 43), (3, 51), (3, 59), (4, 67), (4, 83), (4, 99),
      (4, 115), (5, 131), (5, 163), (5, 195), (5, 227), (0, 258)] ∧
  (∀ c x, c ≤ 28 → x < 2 ^ lenExtra c → lenOf c x = lenOf c 0 + x ∧ 3 ≤ lenOf c x ∧ lenOf c x ≤ 258) ∧
  ((List.range 30).map fun c => (distExtra c, distOf c 0)) =
    [(0, 1), (0, 2), (0, 3), (0, 4), (1, 5), (1, 7), (2, 9), (2, 13), (3, 17), (3, 25), (4, 33), (4, 49),
      (5, 65), (5, 97), (6, 129), (6, 193), (7, 257), (7, 385), (8, 513), (8, 769), (9, 1025), (9, 1537),
      (10, 2049), (10, 3073), (11, 4097), (11, 6145), (12, 8193), (12, 12289), (13, 16385), (13, 24577)] ∧
  (∀ c x, c < 30 → x < 2 ^ distExtra c →
    distOf c x = distOf c 0 + x ∧ 1 ≤ distOf c x ∧ distOf c x ≤ 32768)

/-- R295, R296: DIST decodes one code from the table TSEL selects; 30 and 31 raise INVALID_DISTANCE_CODE
before any extra bit; a distance above OUT_LEN raises DISTANCE_TOO_FAR; otherwise `M_DIST` and `M_REM`
are set and STATE goes to COPY. A failing codeword or extra-bit read raises its error. -/
def Obligations.DistanceStep : Prop :=
  ∀ s : State, s.host = [] → s.fsm = .dist →
    (∀ c r, decodeSym (if s.tsel = .fixed then fdt else s.dt) s.inMem s.inLen s.br = .ok (c, r) →
      (30 ≤ c → step s = .next { s with errCode := .invalidDistanceCode, fsm := .error }) ∧
      (c < 30 →
        (∀ x r2, getBits s.inMem s.inLen (distExtra c) r = .ok (x, r2) →
          (distOf c x ≤ s.outLen → step s = .next { s with
            br := r2, mDist := BitVec.ofNat 16 (distOf c x), mRem := s.mLen, fsm := .copy }) ∧
          (s.outLen < distOf c x →
            step s = .next { s with errCode := .distanceTooFar, fsm := .error })) ∧
        (∀ e, getBits s.inMem s.inLen (distExtra c) r = .error (.raise e) →
          step s = .next { s with errCode := e, fsm := .error }))) ∧
    (∀ e, decodeSym (if s.tsel = .fixed then fdt else s.dt) s.inMem s.inLen s.br = .error (.raise e) →
      step s = .next { s with errCode := e, fsm := .error })

/-- R295: on a loaded input with its extra bits left, every distance symbol 0 to 29 completes where no
distance of its range exceeds OUT_LEN: it takes its extra bits, sets `M_DIST` by R121 and `M_REM` to
`M_LEN`, and goes to COPY. -/
def Obligations.DistanceSymbolsComplete : Prop :=
  ∀ (i : Instr) (c : Nat) (s : State), i.distanceCode? = some c → c < 30 → InputLoaded s →
    distExtra c ≤ s.br.bitsAhead s.inLen → distOf c (2 ^ distExtra c - 1) ≤ s.outLen →
    ∃ x r, x < 2 ^ distExtra c ∧ getBits s.inMem s.inLen (distExtra c) s.br = .ok (x, r) ∧
      exec i s = .next { s with
        br := r, mDist := BitVec.ofNat 16 (distOf c x), mRem := s.mLen, fsm := .copy }

/-- R294, R295: the literal/length symbols 286 and 287 and the distance codes 30 and 31 take their error in
every state, before any extra bit is read. -/
def Obligations.InvalidSymbolsRaise : Prop :=
  ∀ s : State,
    exec .lsym286 s = .next { s with errCode := .invalidLitlenCode, fsm := .error } ∧
    exec .lsym287 s = .next { s with errCode := .invalidLitlenCode, fsm := .error } ∧
    exec .dsym30 s = .next { s with errCode := .invalidDistanceCode, fsm := .error } ∧
    exec .dsym31 s = .next { s with errCode := .invalidDistanceCode, fsm := .error }

/-- R297: COPY appends the byte at `OUT_LEN − M_DIST` and counts `M_REM` down, to SYM at 0; it raises
OUTPUT_OVERFLOW when the output is full. No stream bit is consumed. -/
def Obligations.CopyStep : Prop :=
  ∀ (s : State) (b : Byte), s.host = [] → s.fsm = .copy → 1 ≤ s.mRem.toNat → 1 ≤ s.mDist.toNat →
    s.mDist.toNat ≤ s.outLen → s.outMem.read? (s.outLen - s.mDist.toNat) = some b →
    (s.outLen ≠ s.params.outCap → step s = .next { s with
      outMem := s.outMem.write s.outLen b, outLen := s.outLen + 1,
      mRem := BitVec.ofNat 9 (s.mRem.toNat - 1),
      fsm := if s.mRem.toNat = 1 then .sym else .copy }) ∧
    (s.outLen = s.params.outCap →
      step s = .next { s with errCode := .outputOverflow, fsm := .error })

/-- R298: a back-reference of length L and distance D that starts at OUT_LEN = N writes
OUT[N + i] = OUT[N − D + (i mod D)] for every i below L, where the output has room for it; then STATE is
SYM. -/
def Obligations.OverlappingCopyRepeats : Prop :=
  ∀ s : State, Inv s → s.host = [] → s.fsm = .copy → s.outLen + s.mRem.toNat ≤ s.params.outCap →
    ∃ t, core.run s.mRem.toNat s = .next t ∧ t.fsm = .sym ∧ t.outLen = s.outLen + s.mRem.toNat ∧
      (∀ i, i < s.mRem.toNat → t.outMem.read? (s.outLen + i) =
        s.outMem.read? (s.outLen - s.mDist.toNat + i % s.mDist.toNat)) ∧
      (∀ a, a < s.outLen → t.outMem.read? a = s.outMem.read? a)

/-! ## Host control, reset and errors -/

/-- R338, R339, R372: a write of CTRL with bit 0 = 1 starts a run in IDLE, DONE or ERROR, with exactly the
writes of RUN_INIT; it is ignored in any other state, and a write with bit 0 = 0 does nothing. -/
def Obligations.StartWriteBeginsARun : Prop :=
  ∀ (s : State) (v : Word) (rest : List HostAct), s.host = .write 0x00 v :: rest →
    (v.toNat % 2 = 1 → s.fsm = .idle ∨ s.fsm = .done ∨ s.fsm = .error → step s = .next { s with
      host := rest, br := { pos := 0, buf := 0, cnt := 0 }, outLen := 0, errCode := .none, fsm := .hdr }) ∧
    (v.toNat % 2 = 1 → s.fsm ≠ .idle → s.fsm ≠ .done → s.fsm ≠ .error →
      step s = .next { s with host := rest }) ∧
    (v.toNat % 2 = 0 → step s = .next { s with host := rest })

/-- START completes in every state (R338, R339). -/
def Obligations.StartCompletes : Prop :=
  ∀ s : State,
    (s.fsm = .idle ∨ s.fsm = .done ∨ s.fsm = .error → exec .start s = .next { s with
      br := { pos := 0, buf := 0, cnt := 0 }, outLen := 0, errCode := .none, fsm := .hdr }) ∧
    (s.fsm ≠ .idle → s.fsm ≠ .done → s.fsm ≠ .error → exec .start s = .next s)

/-- The host's other moves (R44, R374): INLEN takes the low ADDR_W bits of the value while the block waits
and is ignored while BUSY; a load stores one byte of the input memory while the block waits and leaves
every other byte and every register. That a write to a read-only register changes nothing, and that a
load while BUSY is refused (R93: the host has no such move), are the model's readings (log 14). -/
def Obligations.OtherHostMoves : Prop :=
  ∀ (s : State) (v : Word) (rest : List HostAct),
    (s.host = .write 0x0C v :: rest → s.fsm.waiting = true →
      step s = .next { s with host := rest, inLen := v.toNat % 2 ^ s.params.addrW }) ∧
    (s.host = .write 0x0C v :: rest → s.fsm.waiting = false → step s = .next { s with host := rest }) ∧
    (∀ offset, offset = 0x04 ∨ offset = 0x08 ∨ offset = 0x10 ∨ offset = 0x14 →
      s.host = .write offset v :: rest → step s = .next { s with host := rest }) ∧
    (∀ a b, s.host = .load a b :: rest → s.fsm.waiting = true → a < 2 ^ s.params.addrW →
      ∃ m, step s = .next { s with host := rest, inMem := m } ∧
        m.read? a = some b ∧ ∀ x, x ≠ a → m.read? x = s.inMem.read? x) ∧
    (∀ a b, s.host = .load a b :: rest → s.fsm.waiting = false → step s = .refused .hostLoadWhileBusy)

/-- What the host reads (R44, R45): CTRL reads 0; STATUS gives 0, 2, 3 in IDLE, DONE, ERROR and 1 (BUSY) in
every other state, with the level outputs; ERR gives the error's number of R331, each error its own;
INLEN, INPOS and OUTLEN give their fields; no register stands at another offset. -/
def Obligations.HostRegisterReads : Prop :=
  ([ErrCode.none, .truncated, .unknownBlockType, .storedLenMismatch, .invalidCode, .invalidLitlenCode,
      .invalidDistanceCode, .invalidDynamicTree, .noPreviousLength, .distanceTooFar,
      .bitRequestTooWide, .outputOverflow].map errNumber = List.range 12) ∧
  (∀ e e' : ErrCode, errNumber e = errNumber e' → e = e') ∧
  ∀ s : State, s.params.Ok → s.inLen < 2 ^ s.params.addrW → s.br.pos < 2 ^ s.params.addrW →
    s.outLen < 2 ^ s.params.addrW →
    hostRead s 0x00 = some 0 ∧
    (∃ w, hostRead s 0x04 = some w ∧
      w.toNat = (if s.fsm = .idle then 0 else if s.fsm = .done then 2
        else if s.fsm = .error then 3 else 1)) ∧
    (∃ w, hostRead s 0x08 = some w ∧ w.toNat = errNumber s.errCode) ∧
    (∃ w, hostRead s 0x0C = some w ∧ w.toNat = s.inLen) ∧
    (∃ w, hostRead s 0x10 = some w ∧ w.toNat = s.br.pos) ∧
    (∃ w, hostRead s 0x14 = some w ∧ w.toNat = s.outLen) ∧
    (s.busy = true ↔ s.fsm ≠ .idle ∧ s.fsm ≠ .done ∧ s.fsm ≠ .error) ∧
    (s.doneLevel = true ↔ s.fsm = .done) ∧ (s.errorLevel = true ↔ s.fsm = .error) ∧
    (∀ offset, offset ∉ [0x00, 0x04, 0x08, 0x0C, 0x10, 0x14] → hostRead s offset = none)

/-- R370, R371: reset from any state gives every register that the rule names its value, the level
outputs are all 0 and there is no result. That the block's waiting is a step that changes nothing is
log 7's reading, and that reset keeps the parameters and the host's later moves is the model's choice,
log 15. -/
def Obligations.ResetFromAnyState : Prop :=
  ∀ (s : State) (rest : List HostAct), s.host = .reset :: rest →
    ∃ t, step s = .next t ∧ t.fsm = .idle ∧ t.br = { pos := 0, buf := 0, cnt := 0 } ∧ t.errCode = .none ∧
      t.outLen = 0 ∧ t.inLen = 0 ∧ t.params = s.params ∧ t.host = rest ∧ t.fsm.run = 0 ∧
      t.busy = false ∧ t.doneLevel = false ∧ t.errorLevel = false ∧ t.result = none ∧
      blockStep t = .next t

/-! ## Memory, invariant and runs -/

/-- Two memories in canonical form that read the same at every address are the same data. The canonical
form, and that an unlisted address holds no value, is the model's choice, log 2. -/
def Obligations.EqualReadsAreEqualMemories : Prop :=
  ∀ m m' : Memory, m.wf → m'.wf → (∀ a, m.read? a = m'.read? a) → m = m'

/-- R340: in DONE the result is `OUT[0..OUT_LEN−1]`; in any other state there is none. -/
def Obligations.ResultIsTheOutputBytes : Prop :=
  (∀ s : State, s.fsm ≠ .done → s.result = none) ∧
  (∀ s : State, Inv s → s.fsm = .done → ∃ bytes, s.result = some bytes ∧ bytes.length = s.outLen ∧
    ∀ i, i < s.outLen → bytes[i]? = s.outMem.read? i)

/-- The invariant holds in the state after reset. That the parameters are in range there and that the
memories list nothing is the model's choice (logs 3 and 2); the values of log 1 play no part. -/
def Obligations.InvariantHoldsAtReset : Prop := Inv State.reset

/-- Every step keeps the invariant, whatever the host does. The host's moves and what reset does to the
parameters and the memories are the model's choices (logs 4, 14, 15 and 2); the values that reset gives
the unspecified registers (log 1) play no part. -/
def Obligations.EveryStepKeepsInvariant : Prop :=
  ∀ s t : State, Inv s → step s = .next t → Inv t

/-- On a loaded input the block never stops with a fault of the model (logs 2, 9, 10): no index and no
counter leaves its bounds, no byte without a value is read, and STATE is never 15 (R31, R83, R201,
R203). -/
def Obligations.LoadedRunsNeverFault : Prop :=
  ∀ s : State, Inv s → InputLoaded s → s.host = [] → SafeRun s

/-- R383: a run started with IN_LEN = n reaches DONE or ERROR within 1048 × n + 1 steps, its output never
exceeds 1032 × n bytes, and with an OUT_CAP of at least that no step raises OUTPUT_OVERFLOW. -/
def Obligations.EveryRunTerminates : Prop :=
  ∀ s : State, Startable s →
    (∃ k t, k ≤ 1048 * s.inLen + 1 ∧ core.run k s.runInit = .next t ∧ t.ended) ∧
    (∀ k t, core.run k s.runInit = .next t → t.outLen ≤ 1032 * s.inLen) ∧
    (1032 * s.inLen ≤ s.params.outCap →
      ∀ k t, core.run k s.runInit = .next t → t.errCode ≠ .outputOverflow)

/-- R373: two runs on the same IN_LEN and input bytes (and the same OUT_CAP) go through the same STATE,
ERR_CODE, bit reader, OUT_LEN and output bytes, whatever ran before them. -/
def Obligations.RunsAreIndependent : Prop :=
  ∀ s s' : State, Startable s → Startable s' → s.inLen = s'.inLen → s.params.outCap = s'.params.outCap →
    (∀ a, a < s.inLen → s.inMem.read? a = s'.inMem.read? a) →
    ∀ k t t', core.run k s.runInit = .next t → core.run k s'.runInit = .next t' →
      t.fsm = t'.fsm ∧ t.errCode = t'.errCode ∧ t.br = t'.br ∧ t.outLen = t'.outLen ∧
      ∀ a, a < t.outLen → t.outMem.read? a = t'.outMem.read? a

/-- A step of the block that raises no error, so does not end in ERROR, does not depend on the input bytes
at or after the `BR_POS` it leaves: no such byte has been read (R82, R98, R260). A step that raises gives
its bits back (R332), so of it nothing is said here. -/
def Obligations.BytesPastTheReaderAreNotRead : Prop :=
  ∀ (s t : State) (m : Memory), blockStep s = .next t → t.fsm ≠ .error →
    (∀ a, a < t.br.pos → m.read? a = s.inMem.read? a) →
    blockStep { s with inMem := m } = .next { t with inMem := m }
end

