-- ==== Sys2Proof/Laws/Memory.lean ====
section
/-! SUPPORT. What a write does to a memory (read after write, canonical form), and that every operation
that writes a memory keeps the canonical form. -/

namespace Sys2Proof.Machine

@[simp] theorem Memory.read?_nil (a : Nat) : Memory.read? [] a = none := rfl

/-- A memory whose listed addresses all lie above `a` holds no value at `a`. -/
theorem Memory.read?_eq_none_of_lt {m : Memory} {a : Nat} (h : ∀ c ∈ m, a < c.1) : m.read? a = none := by
  induction m with
  | nil => rfl
  | cons c m ih =>
    obtain ⟨x, v⟩ := c
    have hx : a < x := h _ (List.mem_cons_self ..)
    rw [Memory.read?, if_neg (by omega)]
    exact ih fun c hc => h c (List.mem_cons_of_mem _ hc)

theorem Memory.wf_nil : Memory.wf [] := List.Pairwise.nil

/-- Read after write, at the address written and at every other. No form is asked of the memory. -/
@[simp] theorem Memory.read?_write (m : Memory) (a x : Nat) (b : Byte) :
    (m.write a b).read? x = if x = a then some b else m.read? x := by
  induction m with
  | nil => by_cases h : a = x <;> simp [Memory.write, Memory.read?, h, eq_comm]
  | cons c m ih =>
    obtain ⟨y, v⟩ := c
    rw [Memory.write]
    split
    · by_cases h : a = x
      · subst h; simp [Memory.read?]
      · simp [Memory.read?, h, Ne.symm h]
    · split
      · rename_i _ h1
        subst h1
        by_cases h : a = x
        · subst h; simp [Memory.read?]
        · simp [Memory.read?, h, Ne.symm h]
      · rename_i _ h1
        rw [Memory.read?, ih, Memory.read?]
        by_cases h : y = x
        · subst h; simp [Ne.symm h1]
        · simp [h]

/-- Every address listed after a write was listed before it or is the address written. -/
theorem Memory.mem_write {m : Memory} {a : Nat} {b : Byte} {c : Host.Cell} (h : c ∈ m.write a b) :
    c = (a, b) ∨ c ∈ m := by
  induction m with
  | nil => simpa [Memory.write] using h
  | cons d m ih =>
    obtain ⟨y, v⟩ := d
    rw [Memory.write] at h
    split at h
    · simpa using h
    · split at h
      · rcases List.mem_cons.1 h with h | h
        · exact .inl h
        · exact .inr (List.mem_cons_of_mem _ h)
      · rcases List.mem_cons.1 h with h | h
        · exact .inr (h ▸ List.mem_cons_self ..)
        · exact (ih h).imp id (List.mem_cons_of_mem _)

/-- A write keeps the canonical form. -/
theorem Memory.wf_write {m : Memory} (hm : m.wf) (a : Nat) (b : Byte) : (m.write a b).wf := by
  induction m with
  | nil => simp [Memory.write]
  | cons d m ih =>
    obtain ⟨y, v⟩ := d
    rw [Memory.wf, List.pairwise_cons] at hm
    obtain ⟨hy, hm⟩ := hm
    rw [Memory.write]
    split
    · rename_i h
      refine List.pairwise_cons.2 ⟨fun c hc => ?_, List.pairwise_cons.2 ⟨hy, hm⟩⟩
      rcases List.mem_cons.1 hc with rfl | hc
      · exact h
      · exact Nat.lt_trans h (hy c hc)
    · split
      · rename_i _ h
        exact List.pairwise_cons.2 ⟨fun c hc => h ▸ hy c hc, hm⟩
      · rename_i h1 h2
        refine List.pairwise_cons.2 ⟨fun c hc => ?_, ih hm⟩
        rcases Memory.mem_write hc with rfl | hc
        · show y < a
          omega
        · exact hy c hc

/-- Bytes written from an address on are read back there, and no other address changes. -/
theorem Memory.read?_writeBytes (m : Memory) (a x : Nat) (bs : List Byte) :
    (m.writeBytes a bs).read? x = if a ≤ x ∧ x < a + bs.length then bs[x - a]? else m.read? x := by
  induction bs generalizing m a with
  | nil => simp [Memory.writeBytes, show ¬ (a ≤ x ∧ x < a) by omega]
  | cons b bs ih =>
    rw [Memory.writeBytes, ih, Memory.read?_write]
    by_cases h : x = a
    · subst h
      simp
    · by_cases h1 : a ≤ x ∧ x < a + (bs.length + 1)
      · have : x - a = (x - (a + 1)) + 1 := by omega
        simp [h1, show a + 1 ≤ x ∧ x < a + 1 + bs.length by omega, this]
      · rw [if_neg (by omega), if_neg h, if_neg (by simpa using h1)]

theorem Memory.wf_writeBytes {m : Memory} (hm : m.wf) (a : Nat) (bs : List Byte) : (m.writeBytes a bs).wf := by
  induction bs generalizing m a with
  | nil => exact hm
  | cons b bs ih => exact ih (Memory.wf_write hm a b) (a + 1)

theorem State.reset_inMem_wf : State.reset.inMem.wf := Memory.wf_nil
theorem State.reset_outMem_wf : State.reset.outMem.wf := Memory.wf_nil

theorem State.pushByte_outMem_wf {s : State} (h : s.outMem.wf) (v : Byte) : (s.pushByte v).outMem.wf :=
  Memory.wf_write h _ _

theorem State.loadElement_inMem_wf {s : State} (h : s.inMem.wf) (f : Format) (w : Nat) :
    (s.loadElement f w).inMem.wf :=
  Memory.wf_writeBytes h _ _

/-- A host load that goes on writes one byte of the input memory, keeps its canonical form and changes
nothing else. -/
theorem hostLoad_next {s t : State} {a : Nat} {b : Byte} (h : hostLoad a b s = .next t) :
    s.busy = false ∧ a < 2 ^ s.params.addrW ∧ t = { s with inMem := s.inMem.write a b } := by
  unfold hostLoad at h
  split at h
  · cases h
  · split at h
    · cases h
    · rename_i h1 h2
      cases h
      exact ⟨by simpa using h1, by omega, rfl⟩

end Sys2Proof.Machine
end

