-- ==== Sys2Proof/Laws/BitReader.lean ====
section
/-! SUPPORT. What the bit reader's operations do: for each, one lemma for the case in which it answers and
one for the case in which it stops. -/

namespace Sys2Proof.Machine

/-! ## InByte -/

theorem inByte_ok {mem : Memory} {a : Nat} {b : Byte} : inByte mem a = .ok b ↔ mem.read? a = some b := by
  unfold inByte; split <;> simp [*]

theorem inByte_error {mem : Memory} {a : Nat} {e : Stop} :
    inByte mem a = .error e ↔ mem.read? a = none ∧ e = .fault .inputByteNotLoaded := by
  unfold inByte; split <;> simp [*, eq_comm]

/-! ## The loop of GET_BITS -/

theorem refill_done {mem : Memory} {len n k acc held pos : Nat} (h : n ≤ held) :
    refill mem len n k acc held pos = .ok (acc, held, pos) := by
  cases k with
  | zero => rfl
  | succ k => rw [refill, if_neg (by omega)]

/-- One round of the loop. -/
theorem refill_pull {mem : Memory} {len n k acc held pos : Nat} (h : held < n) :
    refill mem len n (k + 1) acc held pos =
      if len ≤ pos then .error (.raise .truncated)
      else match inByte mem pos with
        | .ok b => refill mem len n k (acc ||| (b.toNat <<< held)) (held + 8) (pos + 1)
        | .error e => .error e := by
  rw [refill, if_pos h] <;> rfl

/-- The bound on the rounds does not matter once it is enough. -/
theorem refill_rounds {mem : Memory} {len n : Nat} {k k' acc held pos : Nat} (h : n ≤ held + 8 * k)
    (h' : n ≤ held + 8 * k') : refill mem len n k acc held pos = refill mem len n k' acc held pos := by
  induction k generalizing k' acc held pos with
  | zero => rw [refill_done (by omega), refill_done (by omega)]
  | succ k ih =>
    by_cases hn : n ≤ held
    · rw [refill_done hn, refill_done hn]
    · cases k' with
      | zero => omega
      | succ k' =>
        rw [refill_pull (by omega), refill_pull (by omega)]
        split
        · rfl
        · cases inByte mem pos with
          | error e => rfl
          | ok b => exact ih (by omega) (by omega)

/-- The loop stops with TRUNCATED at the end of the input, or with the model's fault at a byte nothing has
loaded. -/
theorem refill_error {mem : Memory} {len n k acc held pos : Nat} {e : Stop}
    (h : refill mem len n k acc held pos = .error e) :
    e = .raise .truncated ∨ e = .fault .inputByteNotLoaded := by
  induction k generalizing acc held pos with
  | zero => cases h
  | succ k ih =>
    by_cases hn : n ≤ held
    · rw [refill_done hn] at h; cases h
    · rw [refill_pull (by omega)] at h
      split at h
      · cases h; exact .inl rfl
      · split at h
        · exact ih h
        · rename_i e' he
          cases h
          exact .inr (inByte_error.1 he).2

/-- Where the loop answers: how many bits are held, from which bytes, and that no byte is pulled while
`n` bits are held. -/
theorem refill_ok {mem : Memory} {len n k acc held pos acc' held' pos' : Nat}
    (h : refill mem len n k acc held pos = .ok (acc', held', pos')) (hk : n ≤ held + 8 * k) :
    n ≤ held' ∧ pos ≤ pos' ∧ held' = held + 8 * (pos' - pos) ∧
      (pos' = pos ∨ held' < n + 8 ∧ pos' ≤ len) ∧
      ∀ a, pos ≤ a → a < pos' → (mem.read? a).isSome = true := by
  induction k generalizing acc held pos with
  | zero =>
    rw [refill_done (by omega)] at h
    cases h
    exact ⟨by omega, by omega, by omega, .inl rfl, fun a h1 h2 => by omega⟩
  | succ k ih =>
    by_cases hn : n ≤ held
    · rw [refill_done hn] at h
      cases h
      exact ⟨by omega, by omega, by omega, .inl rfl, fun a h1 h2 => by omega⟩
    · rw [refill_pull (by omega)] at h
      split at h
      · cases h
      · split at h
        · rename_i hlen b hb
          obtain ⟨h1, h2, h3, h4, h5⟩ := ih h (by omega)
          refine ⟨h1, by omega, by omega, by omega, fun a ha ha' => ?_⟩
          rcases Nat.eq_or_lt_of_le ha with rfl | ha
          · rw [inByte_ok.1 hb]; rfl
          · exact h5 a ha ha'
        · cases h

/-- On a loaded input the loop answers exactly when enough bits are left. -/
theorem refill_loaded {mem : Memory} {len n k acc held pos : Nat} (hk : n ≤ held + 8 * k)
    (hm : ∀ a, pos ≤ a → a < len → (mem.read? a).isSome = true) :
    (n ≤ held + 8 * (len - pos) → ∃ p, refill mem len n k acc held pos = .ok p) ∧
    (held + 8 * (len - pos) < n → refill mem len n k acc held pos = .error (.raise .truncated)) := by
  induction k generalizing acc held pos with
  | zero => exact ⟨fun _ => ⟨_, refill_done (by omega)⟩, fun h => by omega⟩
  | succ k ih =>
    by_cases hn : n ≤ held
    · exact ⟨fun _ => ⟨_, refill_done hn⟩, fun h => by omega⟩
    · rw [refill_pull (by omega)]
      by_cases hl : len ≤ pos
      · rw [if_pos hl]
        exact ⟨fun h => by omega, fun _ => rfl⟩
      · rw [if_neg hl]
        obtain ⟨b, hb⟩ := Option.isSome_iff_exists.1 (hm pos (Nat.le_refl _) (by omega))
        rw [inByte_ok.2 hb]
        have := @ih (acc ||| b.toNat <<< held) (held + 8) (pos + 1) (by omega)
          fun a h1 h2 => hm a (by omega) h2
        exact ⟨fun h => this.1 (by omega), fun h => this.2 (by omega)⟩

/-- The bits the loop holds: those it began with, then the stream bits of the bytes it pulled, each byte's
least significant bit first (20_memory.md R85). -/
theorem refill_bits {mem : Memory} {len n k acc held pos acc' held' pos' : Nat}
    (h : refill mem len n k acc held pos = .ok (acc', held', pos')) (hacc : acc < 2 ^ held) :
    acc' < 2 ^ held' ∧ (∀ j, j < held → acc'.testBit j = acc.testBit j) ∧
      ∀ j, held ≤ j → j < held' → streamBit? mem (8 * pos + (j - held)) = some (acc'.testBit j) := by
  induction k generalizing acc held pos with
  | zero =>
    cases h
    exact ⟨hacc, fun _ _ => rfl, fun j h1 h2 => by omega⟩
  | succ k ih =>
    by_cases hn : n ≤ held
    · rw [refill_done hn] at h
      cases h
      exact ⟨hacc, fun _ _ => rfl, fun j h1 h2 => by omega⟩
    · rw [refill_pull (by omega)] at h
      split at h
      · cases h
      · split at h
        · rename_i hlen b hb
          have hb' : b.toNat < 2 ^ 8 := b.isLt
          have hshift : b.toNat <<< held < 2 ^ (held + 8) := by
            rw [Nat.shiftLeft_eq, Nat.pow_add, Nat.mul_comm (2 ^ held)]
            exact Nat.mul_lt_mul_of_pos_right hb' (Nat.two_pow_pos held)
          have hnew : acc ||| b.toNat <<< held < 2 ^ (held + 8) :=
            Nat.or_lt_two_pow (Nat.lt_of_lt_of_le hacc (Nat.pow_le_pow_right (by omega) (by omega))) hshift
          obtain ⟨h1, h2, h3⟩ := ih h hnew
          refine ⟨h1, fun j hj => ?_, fun j hj hj' => ?_⟩
          · rw [h2 j (by omega), Nat.testBit_or, Nat.testBit_shiftLeft]
            simp [show ¬ held ≤ j by omega]
          · by_cases hj8 : j < held + 8
            · rw [h2 j hj8, Nat.testBit_or, Nat.testBit_shiftLeft, streamBit?,
                show (8 * pos + (j - held)) / 8 = pos by omega,
                show (8 * pos + (j - held)) % 8 = j - held by omega, inByte_ok.1 hb,
                Nat.testBit_lt_two_pow (Nat.lt_of_lt_of_le hacc (Nat.pow_le_pow_right (by omega) hj))]
              simp [hj, BitVec.getLsbD]
            · have := h3 j (by omega) hj'
              rwa [show 8 * (pos + 1) + (j - (held + 8)) = 8 * pos + (j - held) by omega] at this
        · cases h

/-- The loop reads no byte at or after the position it ends at. -/
theorem refill_local {mem mem' : Memory} {len n k acc held pos acc' held' pos' : Nat}
    (h : refill mem len n k acc held pos = .ok (acc', held', pos'))
    (hm : ∀ a, pos ≤ a → a < pos' → mem'.read? a = mem.read? a) :
    refill mem' len n k acc held pos = .ok (acc', held', pos') := by
  induction k generalizing acc held pos with
  | zero => exact h
  | succ k ih =>
    by_cases hn : n ≤ held
    · rw [refill_done hn] at h ⊢; exact h
    · rw [refill_pull (by omega)] at h ⊢
      split at h
      · cases h
      · rename_i hlen
        rw [if_neg hlen]
        split at h
        · rename_i b hb
          have hle : pos + 1 ≤ pos' := by
            clear ih hm
            have key : ∀ (k acc held pos : Nat), refill mem len n k acc held pos = .ok (acc', held', pos') →
                pos ≤ pos' := by
              intro k
              induction k with
              | zero => intro acc held pos h; cases h; exact Nat.le_refl _
              | succ k ih =>
                intro acc held pos h
                rw [refill] at h
                split at h
                · split at h
                  · cases h
                  · split at h
                    · exact Nat.le_of_succ_le (ih _ _ _ h)
                    · cases h
                · cases h; exact Nat.le_refl _
            exact key _ _ _ _ h
          rw [inByte_ok.2 ((hm pos (Nat.le_refl _) (by omega)).trans (inByte_ok.1 hb))]
          exact ih h fun a h1 h2 => hm a (by omega) h2
        · cases h

/-! ## GET_BITS -/

theorem BitReader.leftover_eq (r : BitReader) : r.leftover = r.buf.toNat % 2 ^ r.cnt.toNat := by
  rw [BitReader.leftover, Nat.shiftLeft_eq, Nat.one_mul, Nat.and_two_pow_sub_one_eq_mod]

theorem BitReader.leftover_lt (r : BitReader) : r.leftover < 2 ^ r.cnt.toNat := by
  rw [BitReader.leftover_eq]; exact Nat.mod_lt _ (Nat.two_pow_pos _)

theorem BitReader.leftover_of_clean {r : BitReader} (h : r.Clean) : r.leftover = r.buf.toNat := by
  rw [BitReader.leftover_eq, Nat.mod_eq_of_lt h]

theorem BitReader.clean_empty : BitReader.empty.Clean := by
  unfold BitReader.Clean BitReader.empty; decide

theorem BitReader.clean_dropAlign (r : BitReader) : (dropAlign r).Clean := by
  show (0 : Nat) < 1
  omega

theorem getBits_tooWide {mem : Memory} {len n : Nat} {r : BitReader} (h : 25 < n) :
    getBits mem len n r = .error (.raise .bitRequestTooWide) := by
  rw [getBits, Config.maxGetBits, if_pos h]

theorem getBits_eq {mem : Memory} {len n : Nat} {r : BitReader} (h : n ≤ 25) :
    getBits mem len n r =
      match refill mem len n n r.leftover r.cnt.toNat r.pos with
      | .ok (acc, held, pos) =>
        .ok (acc % 2 ^ n, { pos := pos, buf := BitVec.ofNat 7 (acc / 2 ^ n), cnt := BitVec.ofNat 3 (held - n) })
      | .error e => .error e := by
  rw [getBits, Config.maxGetBits, if_neg (by omega)]
  split <;> simp_all [Nat.shiftRight_eq_div_pow, Nat.shiftLeft_eq, Nat.and_two_pow_sub_one_eq_mod]

/-- Where GET_BITS answers: the loop's answer it comes from, the value's bound, and the reader after it,
which is clean and holds exactly the bits pulled and not returned. -/
theorem getBits_ok {mem : Memory} {len n v : Nat} {r r' : BitReader} (h : getBits mem len n r = .ok (v, r')) :
    n ≤ 25 ∧ v < 2 ^ n ∧ r.pos ≤ r'.pos ∧ r'.cnt.toNat + n = r.cnt.toNat + 8 * (r'.pos - r.pos) ∧
      (r'.pos = r.pos ∨ r'.pos ≤ len) ∧ r'.Clean ∧
      (∀ a, r.pos ≤ a → a < r'.pos → (mem.read? a).isSome = true) ∧
      ∃ acc, refill mem len n n r.leftover r.cnt.toNat r.pos = .ok (acc, r'.cnt.toNat + n, r'.pos) ∧
        v = acc % 2 ^ n ∧ r'.buf.toNat = acc / 2 ^ n := by
  by_cases hn : 25 < n
  · rw [getBits_tooWide hn] at h; cases h
  · rw [getBits_eq (by omega)] at h
    split at h
    · rename_i acc held pos hr
      obtain ⟨h1, h2, h3, h4, h5⟩ := refill_ok hr (by omega)
      obtain ⟨h6, -, -⟩ := refill_bits hr r.leftover_lt
      have hc : r.cnt.toNat < 8 := r.cnt.isLt
      have hheld : held - n < 8 := by omega
      have hdiv : acc / 2 ^ n < 2 ^ (held - n) := by
        rw [Nat.div_lt_iff_lt_mul (Nat.two_pow_pos n), ← Nat.pow_add]
        rwa [show held - n + n = held by omega]
      have hdiv7 : acc / 2 ^ n < 2 ^ 7 :=
        Nat.lt_of_lt_of_le hdiv (Nat.pow_le_pow_right (by omega) (by omega))
      cases h
      have e1 : (BitVec.ofNat 3 (held - n)).toNat = held - n := by
        rw [BitVec.toNat_ofNat, Nat.mod_eq_of_lt (by omega)]
      have e2 : (BitVec.ofNat 7 (acc / 2 ^ n)).toNat = acc / 2 ^ n := by
        rw [BitVec.toNat_ofNat, Nat.mod_eq_of_lt hdiv7]
      refine ⟨by omega, Nat.mod_lt _ (Nat.two_pow_pos n), h2, ?_, h4.imp id And.right, ?_, h5, acc, ?_,
        rfl, e2⟩
      · show (BitVec.ofNat 3 (held - n)).toNat + n = r.cnt.toNat + 8 * (pos - r.pos)
        omega
      · show (BitVec.ofNat 7 (acc / 2 ^ n)).toNat < 2 ^ (BitVec.ofNat 3 (held - n)).toNat
        rw [e1, e2]; exact hdiv
      · show _ = Except.ok (acc, (BitVec.ofNat 3 (held - n)).toNat + n, pos)
        rw [e1, show held - n + n = held by omega]; exact hr
    · cases h

/-- Why GET_BITS stops, for a request of at most 25 bits. -/
theorem getBits_error {mem : Memory} {len n : Nat} {r : BitReader} {e : Stop} (hn : n ≤ 25)
    (h : getBits mem len n r = .error e) : e = .raise .truncated ∨ e = .fault .inputByteNotLoaded := by
  rw [getBits_eq hn] at h
  split at h
  · cases h
  · rename_i e' he
    cases h
    exact refill_error he

/-- GET_BITS reads no byte at or after the `BR_POS` it leaves. -/
theorem getBits_local {mem mem' : Memory} {len n v : Nat} {r r' : BitReader}
    (h : getBits mem len n r = .ok (v, r')) (hm : ∀ a, r.pos ≤ a → a < r'.pos → mem'.read? a = mem.read? a) :
    getBits mem' len n r = .ok (v, r') := by
  obtain ⟨hn, -, -, -, -, -, -, acc, hr, -, -⟩ := getBits_ok h
  rw [getBits_eq hn, hr] at h
  rw [getBits_eq hn, refill_local hr hm]
  exact h

/-- A request of no bits returns 0 and leaves a clean reader as it is. -/
theorem getBits_zero {mem : Memory} {len : Nat} {r : BitReader} (h : r.Clean) :
    getBits mem len 0 r = .ok (0, r) := by
  rw [getBits_eq (by omega), refill_done (by omega), BitReader.leftover_of_clean h]
  simp [Nat.mod_one]

/-! ## GET_BIT, READ_BYTE, READ_U16LE -/

theorem getBit_eq {mem : Memory} {len : Nat} {r : BitReader} : getBit mem len r = getBits mem len 1 r := by
  rw [getBit]
  split
  · rename_i v r' h
    obtain ⟨-, hv, -⟩ := getBits_ok h
    have : v = 0 ∨ v = 1 := by omega
    rcases this with rfl | rfl <;> simp [h]
  · rename_i e h
    exact h.symm

theorem readByte_ok {mem : Memory} {len : Nat} {r r' : BitReader} {b : Byte} :
    readByte mem len r = .ok (b, r') ↔
      r.pos < len ∧ mem.read? r.pos = some b ∧ r' = { r with pos := r.pos + 1 } := by
  unfold readByte
  split
  · simp; omega
  · split
    · rename_i h b' hb
      rw [inByte_ok] at hb
      simp only [Except.ok.injEq, Prod.mk.injEq, hb, Option.some.injEq]
      exact ⟨fun ⟨h1, h2⟩ => ⟨by omega, h1, h2.symm⟩, fun ⟨_, h1, h2⟩ => ⟨h1, h2.symm⟩⟩
    · rename_i h e he
      simp [(inByte_error.1 he).1]

theorem readByte_error {mem : Memory} {len : Nat} {r : BitReader} {e : Stop}
    (h : readByte mem len r = .error e) :
    len ≤ r.pos ∧ e = .raise .truncated ∨
      r.pos < len ∧ mem.read? r.pos = none ∧ e = .fault .inputByteNotLoaded := by
  unfold readByte at h
  split at h
  · cases h; exact .inl ⟨by assumption, rfl⟩
  · split at h
    · cases h
    · rename_i h' e' he
      cases h
      exact .inr ⟨by omega, (inByte_error.1 he).1, (inByte_error.1 he).2⟩

/-- Two bytes, low byte first, as a number. -/
theorem bytes_or_eq (lo hi : Byte) : lo.toNat ||| hi.toNat <<< 8 = lo.toNat + 256 * hi.toNat := by
  have h := Nat.two_pow_add_eq_or_of_lt (i := 8) (b := lo.toNat) lo.isLt hi.toNat
  rw [Nat.or_comm, Nat.shiftLeft_eq, Nat.mul_comm hi.toNat, ← h]
  omega

theorem readU16le_ok {mem : Memory} {len v : Nat} {r r' : BitReader}
    (h : readU16le mem len r = .ok (v, r')) :
    ∃ lo hi : Byte, r.pos + 1 < len ∧ mem.read? r.pos = some lo ∧ mem.read? (r.pos + 1) = some hi ∧
      v = lo.toNat + 256 * hi.toNat ∧ r' = { r with pos := r.pos + 2 } := by
  unfold readU16le at h
  split at h
  · cases h
  · rename_i lo r1 h1
    split at h
    · cases h
    · rename_i hi r2 h2
      obtain ⟨a1, a2, rfl⟩ := readByte_ok.1 h1
      obtain ⟨b1, b2, rfl⟩ := readByte_ok.1 h2
      cases h
      exact ⟨lo, hi, b1, a2, b2, bytes_or_eq lo hi, rfl⟩

theorem readU16le_error {mem : Memory} {len : Nat} {r : BitReader} {e : Stop}
    (h : readU16le mem len r = .error e) : e = .raise .truncated ∨ e = .fault .inputByteNotLoaded := by
  unfold readU16le at h
  split at h
  · rename_i e' h1
    cases h
    rcases readByte_error h1 with ⟨-, h⟩ | ⟨-, -, h⟩
    · exact .inl h
    · exact .inr h
  · split at h
    · rename_i e' h1
      cases h
      rcases readByte_error h1 with ⟨-, h⟩ | ⟨-, -, h⟩
      · exact .inl h
      · exact .inr h
    · cases h

/-! ## How a reader moves -/

/-- Reader `r'` comes from `r` by consuming `n` bits of an input of `len` bytes: `BR_POS` does not decrease
and passes the end of the input only where it stood there already, `n` fewer bits are left, and the
leftover bits are again the next bits of the stream. -/
structure Advance (mem : Memory) (len n : Nat) (r r' : BitReader) : Prop where
  pos    : r.pos ≤ r'.pos
  bound  : r'.pos = r.pos ∨ r'.pos ≤ len
  ahead  : r'.bitsAhead len + n = r.bitsAhead len
  agrees : r.Agrees mem → r'.Agrees mem

theorem Advance.refl (mem : Memory) (len : Nat) (r : BitReader) : Advance mem len 0 r r :=
  ⟨Nat.le_refl _, .inl rfl, rfl, id⟩

theorem Advance.trans {mem : Memory} {len n m : Nat} {r r1 r2 : BitReader} (h : Advance mem len n r r1)
    (h' : Advance mem len m r1 r2) : Advance mem len (n + m) r r2 where
  pos := Nat.le_trans h.pos h'.pos
  bound := by have := h.bound; have := h'.bound; omega
  ahead := by have := h.ahead; have := h'.ahead; omega
  agrees := h'.agrees ∘ h.agrees

/-- GET_BITS consumes `n` bits. -/
theorem getBits_advance {mem : Memory} {len n v : Nat} {r r' : BitReader}
    (h : getBits mem len n r = .ok (v, r')) : Advance mem len n r r' := by
  obtain ⟨hn, -, hpos, hcnt, hb, -, -, acc, hr, -, hbuf⟩ := getBits_ok h
  refine ⟨hpos, hb, ?_, fun ⟨hle, ha⟩ => ⟨by omega, fun k hk => ?_⟩⟩
  · unfold BitReader.bitsAhead
    rcases hb with hb | hb
    · rw [hb] at hcnt ⊢; omega
    · omega
  · obtain ⟨-, h2, h3⟩ := refill_bits hr r.leftover_lt
    have hk' : r'.streamPos + k = r.streamPos + (n + k) := by
      unfold BitReader.streamPos at *; omega
    have hbit : r'.buf.getLsbD k = acc.testBit (n + k) := by
      rw [BitVec.getLsbD, hbuf, Nat.testBit_div_two_pow, Nat.add_comm]
    rw [hk', hbit]
    by_cases hc : n + k < r.cnt.toNat
    · rw [h2 _ hc, ha _ hc, BitReader.leftover_eq, Nat.testBit_mod_two_pow, BitVec.getLsbD]
      simp [hc]
    · rw [← h3 (n + k) (by omega) (by omega)]
      congr 1
      unfold BitReader.streamPos
      omega

/-- READ_BYTE consumes 8 bits, where no bits are left over. -/
theorem readByte_advance {mem : Memory} {len : Nat} {r r' : BitReader} {b : Byte} (hc : r.cnt = 0)
    (h : readByte mem len r = .ok (b, r')) : Advance mem len 8 r r' := by
  obtain ⟨h1, -, rfl⟩ := readByte_ok.1 h
  refine ⟨Nat.le_succ _, .inr h1, ?_, fun _ => ⟨?_, fun k hk => ?_⟩⟩
  · show r.cnt.toNat + 8 * (len - (r.pos + 1)) + 8 = r.cnt.toNat + 8 * (len - r.pos)
    omega
  · show r.cnt.toNat ≤ _
    rw [hc]; exact Nat.zero_le _
  · have hk : k < r.cnt.toNat := hk
    rw [hc] at hk; exact absurd hk (Nat.not_lt_zero _)

/-- READ_U16LE consumes 16 bits, where no bits are left over. -/
theorem readU16le_advance {mem : Memory} {len v : Nat} {r r' : BitReader} (hc : r.cnt = 0)
    (h : readU16le mem len r = .ok (v, r')) : Advance mem len 16 r r' := by
  obtain ⟨lo, hi, h1, h2, h3, -, rfl⟩ := readU16le_ok h
  have a := readByte_advance hc (readByte_ok.2 ⟨Nat.lt_of_succ_lt h1, h2, rfl⟩)
  have b := readByte_advance (r := { r with pos := r.pos + 1 }) hc (readByte_ok.2 ⟨h1, h3, rfl⟩)
  exact a.trans b

end Sys2Proof.Machine
end

