-- ==== Sys2Proof/Laws/Decode.lean ====
section
/-! SUPPORT. What the decoder answers for a value built from the fields of its format. -/

namespace Sys2Proof

theorem decode_tooWide {f : Format} {w : Nat} (h : 2 ^ f.bits ≤ w) : decode f w = .error .tooWide := by
  rw [decode, if_pos h]

/-- A value of the format decodes by the row that matches it. -/
theorem decode_ok {f : Format} {w : Nat} {i : Instr} :
    decode f w = .ok i ↔ w < 2 ^ f.bits ∧ ∃ r, f.rows.find? (·.hits w) = some r ∧ r.make w = i := by
  unfold decode
  split
  · rename_i h
    simp; omega
  · rename_i h
    rw [and_iff_right (by omega)]
    cases f.rows.find? (·.hits w) <;> simp

theorem decode_header : ∀ f t : Nat, f < 2 → t < 4 → decode .blockHeader (f ||| t <<< 1) = .ok
    (if t = 0 then .blockStored (BitVec.ofNat 1 f) else if t = 1 then .blockFixed (BitVec.ofNat 1 f)
      else if t = 2 then .blockDynamic (BitVec.ofNat 1 f) else .blockReserved (BitVec.ofNat 1 f)) := by
  intro f t hf ht
  interval_cases f <;> interval_cases t <;> rfl

theorem decode_stored {len nlen : Nat} (h : len < 2 ^ 16) (h' : nlen < 2 ^ 16) :
    decode .storedHeader (len ||| nlen <<< 16) = .ok (.stored (BitVec.ofNat 16 len) (BitVec.ofNat 16 nlen)) := by
  have e : len ||| nlen <<< 16 = 2 ^ 16 * nlen + len := by
    rw [Nat.or_comm, Nat.shiftLeft_eq, Nat.mul_comm]
    exact (Nat.two_pow_add_eq_or_of_lt h nlen).symm
  rw [decode_ok, e]
  refine ⟨by show _ < 2 ^ 32; omega, _, by simp [Format.rows, storedHeaderRows, Row.hits]; rfl, ?_⟩
  simp only [bitField, Nat.shiftRight_eq_div_pow]
  congr 2 <;> omega

theorem decode_storedData (b : Byte) : decode .storedData b.toNat = .ok (.storedByte b) := by
  rw [decode_ok]
  refine ⟨b.isLt, ⟨0x00, 0x00, fun w => .storedByte (BitVec.ofNat 8 (bitField 7 0 w))⟩, ?_, ?_⟩
  · simp [Format.rows, storedDataRows, Row.hits]
  · simp [bitField, Nat.mod_eq_of_lt (show b.toNat < 256 from b.isLt)]

theorem decode_dynamicHeader {a b c : Nat} (ha : a < 32) (hb : b < 32) (hc : c < 16) :
    decode .dynamicHeader (a ||| b <<< 5 ||| c <<< 10) =
      .ok (.dynhdr (BitVec.ofNat 9 (a + 257)) (BitVec.ofNat 6 (b + 1)) (BitVec.ofNat 5 (c + 4))) := by
  have e1 : a ||| b <<< 5 = 2 ^ 5 * b + a := by
    rw [Nat.or_comm, Nat.shiftLeft_eq, Nat.mul_comm]
    exact (Nat.two_pow_add_eq_or_of_lt (i := 5) ha b).symm
  have e2 : a ||| b <<< 5 ||| c <<< 10 = 2 ^ 10 * c + (2 ^ 5 * b + a) := by
    rw [e1, Nat.or_comm, Nat.shiftLeft_eq, Nat.mul_comm c]
    exact (Nat.two_pow_add_eq_or_of_lt (i := 10) (by omega) c).symm
  rw [decode_ok, e2]
  refine ⟨by show _ < 2 ^ 14; omega, _, by simp [Format.rows, dynamicHeaderRows, Row.hits]; rfl, ?_⟩
  simp only [bitField, Nat.shiftRight_eq_div_pow]
  congr 3 <;> omega

theorem decode_clLength {l : Nat} (h : l < 8) : decode .clLength l = .ok (.cllen (BitVec.ofNat 3 l)) := by
  interval_cases l <;> rfl

theorem decode_cl {v : Nat} (h : v < 16) : decode .clSymbol v = .ok (.cl (BitVec.ofNat 4 v)) := by
  interval_cases v <;> rfl

theorem decode_cl16 : decode .clSymbol 16 = .ok .cl16 := rfl
theorem decode_cl17 : decode .clSymbol 17 = .ok .cl17 := rfl
theorem decode_cl18 : decode .clSymbol 18 = .ok .cl18 := rfl

theorem decode_clSymbol_error {v : Nat} (h : 19 ≤ v) : ∃ e, decode .clSymbol v = .error e := by
  by_cases h' : 32 ≤ v
  · exact ⟨_, decode_tooWide h'⟩
  · interval_cases v <;> exact ⟨_, rfl⟩

theorem decode_lit {v : Nat} (h : v < 256) : decode .litlenSymbol v = .ok (.lit (BitVec.ofNat 8 v)) := by
  have key : ∀ v, v < 256 → decode .litlenSymbol v = .ok (.lit (BitVec.ofNat 8 v)) := by decide +kernel
  exact key v h

theorem decode_eob : decode .litlenSymbol 256 = .ok .eob := rfl
theorem decode_lsym286 : decode .litlenSymbol 286 = .ok .lsym286 := rfl
theorem decode_lsym287 : decode .litlenSymbol 287 = .ok .lsym287 := rfl

theorem decode_lengthCode {v : Nat} (h : 257 ≤ v) (h' : v ≤ 285) :
    ∃ i, decode .litlenSymbol v = .ok i ∧ i.lengthCode? = some (v - 257) := by
  interval_cases v <;> exact ⟨_, rfl, rfl⟩

theorem decode_litlen_error {v : Nat} (h : 288 ≤ v) : ∃ e, decode .litlenSymbol v = .error e := by
  by_cases h' : 512 ≤ v
  · exact ⟨_, decode_tooWide h'⟩
  · have key : ∀ k, k < 224 → decode .litlenSymbol (288 + k) = .error .litlenSymbolAbove287 := by
      decide +kernel
    have := key (v - 288) (by omega)
    rw [show 288 + (v - 288) = v by omega] at this
    exact ⟨_, this⟩

theorem decode_distanceCode {c : Nat} (h : c < 32) :
    ∃ i, decode .distanceSymbol c = .ok i ∧ i.distanceCode? = some c := by
  interval_cases c <;> exact ⟨_, rfl, rfl⟩

theorem decode_start {v : Nat} (h : v % 2 = 1) (h' : v < 2 ^ 32) : decode .hostCtrlWrite v = .ok .start := by
  rw [decode_ok]
  refine ⟨h', ⟨0x1, 0x1, fun _ => .start⟩, ?_, rfl⟩
  simp [Format.rows, hostCtrlRows, Row.hits, h]

theorem decode_ctrl_error {v : Nat} (h : v % 2 = 0) : ∃ e, decode .hostCtrlWrite v = .error e := by
  unfold decode
  split
  · exact ⟨_, rfl⟩
  · simp [Format.rows, hostCtrlRows, Row.hits, h]

end Sys2Proof
end

