-- ==== Sys2Proof/Laws/Huffman.lean ====
section
/-! SUPPORT. What BUILD leaves in COUNT and in ORDER, and everything DECODE can answer. -/

namespace Sys2Proof.Machine

/-! ## BUILD -/

/-- BUILD's counts (R201), where the table can hold them. -/
theorem HuffTable.countOf_build {cw ow n : Nat} (t : HuffTable cw ow n) (len : List Nat) {L : Nat} (hL : L < 16)
    (h : len.length < 2 ^ cw) : (t.build len).countOf L = len.count L := by
  have hc : len.count L < 2 ^ cw := Nat.lt_of_le_of_lt List.count_le_length h
  unfold HuffTable.countOf HuffTable.build countLengths
  simp [hL, Nat.mod_eq_of_lt hc]

theorem HuffTable.countOf_eq_zero {cw ow n : Nat} (t : HuffTable cw ow n) {L : Nat} (hL : 16 ≤ L) :
    t.countOf L = 0 := by
  unfold HuffTable.countOf
  rw [Vector.getElem?_eq_none hL]
  simp

/-- What placing the symbols `s` to `s + len.length - 1` leaves in ORDER at an index of a bucket still to be
filled, or at one that holds a symbol below `m` already: a symbol below `m`, where all the placed ones
are. -/
theorem placeSymbols_below {ow n m : Nat} {len : List Nat} {s : Nat} {offs : List Nat} {o : Vector (BitVec ow) n}
    (hoffs : offs.length = 16) (hm : s + len.length ≤ m) {i : Nat}
    (hi : (∀ x, o[i]? = some x → x.toNat < m) ∨
      ∃ L, 1 ≤ L ∧ L < 16 ∧ offs.getD L 0 ≤ i ∧ i < offs.getD L 0 + len.count L) {x : BitVec ow}
    (hx : (placeSymbols s len offs o)[i]? = some x) : x.toNat < m := by
  induction len generalizing s offs o with
  | nil =>
    rcases hi with hi | ⟨L, -, -, h1, h2⟩
    · exact hi x hx
    · rw [List.count_nil] at h2; omega
  | cons l len ih =>
    rw [List.length_cons] at hm
    rw [placeSymbols] at hx
    split at hx
    · rename_i hl
      refine ih hoffs (by omega) ?_ hx
      rcases hi with hi | ⟨L, h1, h2, h3, h4⟩
      · exact .inl hi
      · rw [List.count_cons_of_ne (by omega)] at h4
        exact .inr ⟨L, h1, h2, h3, h4⟩
    · rename_i hl
      have hs : ∀ y, (o.setIfInBounds (offs.getD l 0) (BitVec.ofNat ow s))[i]? = some y →
          offs.getD l 0 = i ∨ (∀ z, o[i]? = some z → z.toNat < m) → y.toNat < m := by
        intro y hy h
        rw [Vector.getElem?_setIfInBounds] at hy
        split at hy
        · split at hy
          · cases hy
            rw [BitVec.toNat_ofNat]
            exact Nat.lt_of_le_of_lt (Nat.mod_le _ _) (by omega)
          · cases hy
        · rename_i hne
          exact (h.resolve_left hne) y hy
      refine ih (by simpa using hoffs) (by omega) ?_ hx
      rcases hi with hi | ⟨L, h1, h2, h3, h4⟩
      · exact .inl fun y hy => hs y hy (.inr hi)
      · by_cases hL : L = l
        · subst hL
          by_cases he : offs.getD L 0 = i
          · exact .inl fun y hy => hs y hy (.inl he)
          · rw [List.count_cons_self] at h4
            refine .inr ⟨L, h1, h2, ?_⟩
            rw [List.getD_eq_getElem?_getD, List.getElem?_set_self (by omega)]
            simp only [Option.getD_some]
            omega
        · rw [List.count_cons_of_ne (Ne.symm hL)] at h4
          refine .inr ⟨L, h1, h2, ?_⟩
          rw [List.getD_eq_getElem?_getD, List.getElem?_set_ne (Ne.symm hL), ← List.getD_eq_getElem?_getD]
          exact ⟨h3, h4⟩

/-! ## DECODE -/

theorem HuffTable.orderAt_ok {cw ow n : Nat} {t : HuffTable cw ow n} {i v : Nat} :
    t.orderAt i = .ok v ↔ ∃ x, t.order[i]? = some x ∧ x.toNat = v := by
  unfold HuffTable.orderAt
  split <;> simp_all

theorem HuffTable.orderAt_error {cw ow n : Nat} {t : HuffTable cw ow n} {i : Nat} {e : Stop} :
    t.orderAt i = .error e ↔ n ≤ i ∧ e = .fault .orderIndexOutOfRange := by
  unfold HuffTable.orderAt
  split
  · rename_i x h
    have : i < n := by
      by_contra hn
      rw [Vector.getElem?_eq_none (by omega)] at h; cases h
    simp; omega
  · rename_i h
    simp at h
    simp [h, eq_comm]

/-- One round of DECODE's loop, in plain arithmetic. -/
theorem decodeLoop_succ {cw ow n : Nat} {t : HuffTable cw ow n} {mem : Memory} {len k L acc pos : Nat}
    {r : BitReader} :
    decodeLoop t mem len (k + 1) L acc pos r =
      match getBits mem len 1 r with
      | .error e => .error e
      | .ok (b, r') =>
        if 2 * acc + b < t.countOf L then
          match t.orderAt (pos + (2 * acc + b)) with
          | .ok s => .ok (s, r')
          | .error e => .error e
        else decodeLoop t mem len k (L + 1) (2 * acc + b - t.countOf L) (pos + t.countOf L) r' := by
  rw [decodeLoop, getBit_eq]
  cases h : getBits mem len 1 r with
  | error e => rfl
  | ok p =>
    obtain ⟨b, r'⟩ := p
    have hb : b < 2 ^ 1 := (getBits_ok h).2.1
    have : acc <<< 1 ||| b = 2 * acc + b := by
      rw [Nat.shiftLeft_eq, Nat.mul_comm]
      exact (Nat.two_pow_add_eq_or_of_lt hb acc).symm
    simp only [this] <;> rfl

/-- Where DECODE's loop answers, it returns an entry of ORDER that has a codeword of one of its lengths,
and has consumed 1 to `k` bits. -/
theorem decodeLoop_ok {cw ow n : Nat} {t : HuffTable cw ow n} {mem : Memory} {len k L acc pos v : Nat}
    {r r' : BitReader} (h : decodeLoop t mem len k L acc pos r = .ok (v, r')) :
    ∃ m, 1 ≤ m ∧ m ≤ k ∧ Advance mem len m r r' ∧ r'.Clean ∧
      ∃ (i : Nat) (x : BitVec ow), i < pos + ((List.range' L k).map t.countOf).sum ∧
        t.order[i]? = some x ∧ x.toNat = v := by
  induction k generalizing L acc pos r with
  | zero => cases h
  | succ k ih =>
    rw [decodeLoop_succ] at h
    rw [List.range'_succ, List.map_cons, List.sum_cons]
    split at h
    · cases h
    · rename_i b r1 h1
      have ha := getBits_advance h1
      split at h
      · split at h
        · rename_i s hs
          cases h
          obtain ⟨x, hx⟩ := HuffTable.orderAt_ok.1 hs
          exact ⟨1, Nat.le_refl _, by omega, ha, (getBits_ok h1).2.2.2.2.2.1, _, x, by omega, hx⟩
        · cases h
      · obtain ⟨m, h2, h3, h4, h5, i, x, hi, hx⟩ := ih h
        exact ⟨1 + m, by omega, by omega, ha.trans h4, h5, i, x, by omega, hx⟩

/-- Why DECODE's loop can stop. -/
theorem decodeLoop_error {cw ow n : Nat} {t : HuffTable cw ow n} {mem : Memory} {len k L acc pos : Nat}
    {r : BitReader} {e : Stop} (h : decodeLoop t mem len k L acc pos r = .error e) :
    e = .raise .invalidCode ∨ e = .raise .truncated ∨ e = .fault .inputByteNotLoaded ∨
      e = .fault .orderIndexOutOfRange := by
  induction k generalizing L acc pos r with
  | zero => cases h; exact .inl rfl
  | succ k ih =>
    rw [decodeLoop_succ] at h
    split at h
    · rename_i e' h1
      cases h
      rcases getBits_error (by omega) h1 with h | h
      · exact .inr (.inl h)
      · exact .inr (.inr (.inl h))
    · split at h
      · split at h
        · cases h
        · rename_i e' h2
          cases h
          exact .inr (.inr (.inr (HuffTable.orderAt_error.1 h2).2))
      · exact ih h

/-- DECODE's loop on a loaded input and within ORDER: it answers, or runs out of code lengths with `k` bits
consumed, or runs out of input. -/
theorem decodeLoop_loaded {cw ow n : Nat} {t : HuffTable cw ow n} {mem : Memory} {len k L acc pos : Nat}
    {r : BitReader} (hm : ∀ a, a < len → (mem.read? a).isSome = true)
    (hb : pos + ((List.range' L k).map t.countOf).sum ≤ n) :
    (∃ v r', decodeLoop t mem len k L acc pos r = .ok (v, r')) ∨
    k ≤ r.bitsAhead len ∧ decodeLoop t mem len k L acc pos r = .error (.raise .invalidCode) ∨
    r.bitsAhead len < k ∧ decodeLoop t mem len k L acc pos r = .error (.raise .truncated) := by
  induction k generalizing L acc pos r with
  | zero => exact .inr (.inl ⟨Nat.zero_le _, rfl⟩)
  | succ k ih =>
    rw [List.range'_succ, List.map_cons, List.sum_cons] at hb
    rw [decodeLoop_succ]
    obtain ⟨hl1, hl2⟩ := refill_loaded (mem := mem) (len := len) (n := 1) (k := 1) (acc := r.leftover)
      (held := r.cnt.toNat) (pos := r.pos) (by omega) fun a _ h => hm a h
    by_cases hr : 1 ≤ r.bitsAhead len
    · obtain ⟨⟨acc', held', pos'⟩, hp⟩ := hl1 hr
      have hg := getBits_eq (mem := mem) (len := len) (r := r) (n := 1) (by omega)
      rw [hp] at hg
      simp only at hg
      have hadv := (getBits_advance hg).ahead
      rw [hg]
      simp only
      split
      · rename_i hlt
        split
        · exact .inl ⟨_, _, rfl⟩
        · rename_i e he
          have := (HuffTable.orderAt_error.1 he).1
          omega
      · rcases ih (L := L + 1) (acc := 2 * acc + acc' % 2 ^ 1 - t.countOf L) (pos := pos + t.countOf L)
          (r := { pos := pos', buf := BitVec.ofNat 7 (acc' / 2 ^ 1), cnt := BitVec.ofNat 3 (held' - 1) })
          (by omega) with h | ⟨h1, h2⟩ | ⟨h1, h2⟩
        · exact .inl h
        · exact .inr (.inl ⟨by omega, h2⟩)
        · exact .inr (.inr ⟨by omega, h2⟩)
    · have hg := getBits_eq (mem := mem) (len := len) (r := r) (n := 1) (by omega)
      rw [hl2 (by unfold BitReader.bitsAhead at hr; omega)] at hg
      rw [hg]
      exact .inr (.inr ⟨by omega, rfl⟩)

/-- DECODE's loop reads no byte at or after the `BR_POS` it leaves. -/
theorem decodeLoop_local {cw ow n : Nat} {t : HuffTable cw ow n} {mem mem' : Memory} {len k L acc pos v : Nat}
    {r r' : BitReader} (h : decodeLoop t mem len k L acc pos r = .ok (v, r'))
    (hm : ∀ a, r.pos ≤ a → a < r'.pos → mem'.read? a = mem.read? a) :
    decodeLoop t mem' len k L acc pos r = .ok (v, r') := by
  induction k generalizing L acc pos r with
  | zero => cases h
  | succ k ih =>
    rw [decodeLoop_succ] at h ⊢
    split at h
    · cases h
    · rename_i b r1 h1
      have h1p := (getBits_ok h1).2.2.1
      split at h
      · rename_i hlt
        have h2 : r1.pos ≤ r'.pos := by
          split at h
          · cases h; exact Nat.le_refl _
          · cases h
        rw [getBits_local h1 fun a ha ha' => hm a ha (by omega)]
        simp only [if_pos hlt]
        exact h
      · rename_i hlt
        have h2 : r1.pos ≤ r'.pos := by
          obtain ⟨m, -, -, h4, -⟩ := decodeLoop_ok h
          exact h4.pos
        rw [getBits_local h1 fun a ha ha' => hm a ha (by omega)]
        simp only [if_neg hlt]
        exact ih h fun a ha ha' => hm a (by omega) ha'

/-- The tables agree on what DECODE can read: COUNT, and the entries of ORDER that have a codeword. -/
theorem decodeLoop_congr {cw ow n : Nat} {t t' : HuffTable cw ow n} {mem : Memory} {len k L acc pos : Nat}
    {r : BitReader} (hc : ∀ l, L ≤ l → l < L + k → t'.countOf l = t.countOf l)
    (ho : ∀ i : Nat, i < pos + ((List.range' L k).map t.countOf).sum → t'.order[i]? = t.order[i]?) :
    decodeLoop t' mem len k L acc pos r = decodeLoop t mem len k L acc pos r := by
  induction k generalizing L acc pos r with
  | zero => rfl
  | succ k ih =>
    rw [List.range'_succ, List.map_cons, List.sum_cons] at ho
    rw [decodeLoop_succ, decodeLoop_succ, hc L (Nat.le_refl _) (by omega)]
    split
    · rfl
    · split
      · rename_i b r1 h1 hlt
        have : t'.orderAt (pos + (2 * acc + b)) = t.orderAt (pos + (2 * acc + b)) := by
          unfold HuffTable.orderAt
          rw [ho _ (by omega)]
        rw [this]
      · exact ih (fun l h1 h2 => hc l (by omega) (by omega)) fun i hi => ho i (by omega)

end Sys2Proof.Machine
end

