-- ==== Sys2Proof/Laws/State.lean ====
section
/-! SUPPORT. One lemma for each field of State and each named update: what the update leaves in the field. -/

namespace Sys2Proof.Machine

/-! ## State.setBr -/

@[simp] theorem State.setBr_params (s : State) (r : BitReader) : (s.setBr r).params = s.params := rfl
@[simp] theorem State.setBr_host (s : State) (r : BitReader) : (s.setBr r).host = s.host := rfl
@[simp] theorem State.setBr_fsm (s : State) (r : BitReader) : (s.setBr r).fsm = s.fsm := rfl
@[simp] theorem State.setBr_br (s : State) (r : BitReader) : (s.setBr r).br = r := rfl
@[simp] theorem State.setBr_bfinal (s : State) (r : BitReader) : (s.setBr r).bfinal = s.bfinal := rfl
@[simp] theorem State.setBr_btype (s : State) (r : BitReader) : (s.setBr r).btype = s.btype := rfl
@[simp] theorem State.setBr_tsel (s : State) (r : BitReader) : (s.setBr r).tsel = s.tsel := rfl
@[simp] theorem State.setBr_ll (s : State) (r : BitReader) : (s.setBr r).ll = s.ll := rfl
@[simp] theorem State.setBr_dt (s : State) (r : BitReader) : (s.setBr r).dt = s.dt := rfl
@[simp] theorem State.setBr_cl (s : State) (r : BitReader) : (s.setBr r).cl = s.cl := rfl
@[simp] theorem State.setBr_hlit (s : State) (r : BitReader) : (s.setBr r).hlit = s.hlit := rfl
@[simp] theorem State.setBr_hdist (s : State) (r : BitReader) : (s.setBr r).hdist = s.hdist := rfl
@[simp] theorem State.setBr_hclen (s : State) (r : BitReader) : (s.setBr r).hclen = s.hclen := rfl
@[simp] theorem State.setBr_clIdx (s : State) (r : BitReader) : (s.setBr r).clIdx = s.clIdx := rfl
@[simp] theorem State.setBr_clLens (s : State) (r : BitReader) : (s.setBr r).clLens = s.clLens := rfl
@[simp] theorem State.setBr_lens (s : State) (r : BitReader) : (s.setBr r).lens = s.lens := rfl
@[simp] theorem State.setBr_lk (s : State) (r : BitReader) : (s.setBr r).lk = s.lk := rfl
@[simp] theorem State.setBr_stRem (s : State) (r : BitReader) : (s.setBr r).stRem = s.stRem := rfl
@[simp] theorem State.setBr_mLen (s : State) (r : BitReader) : (s.setBr r).mLen = s.mLen := rfl
@[simp] theorem State.setBr_mDist (s : State) (r : BitReader) : (s.setBr r).mDist = s.mDist := rfl
@[simp] theorem State.setBr_mRem (s : State) (r : BitReader) : (s.setBr r).mRem = s.mRem := rfl
@[simp] theorem State.setBr_outLen (s : State) (r : BitReader) : (s.setBr r).outLen = s.outLen := rfl
@[simp] theorem State.setBr_inLen (s : State) (r : BitReader) : (s.setBr r).inLen = s.inLen := rfl
@[simp] theorem State.setBr_errCode (s : State) (r : BitReader) : (s.setBr r).errCode = s.errCode := rfl
@[simp] theorem State.setBr_inMem (s : State) (r : BitReader) : (s.setBr r).inMem = s.inMem := rfl
@[simp] theorem State.setBr_outMem (s : State) (r : BitReader) : (s.setBr r).outMem = s.outMem := rfl

/-! ## State.goto -/

@[simp] theorem State.goto_params (s : State) (f : Fsm) : (s.goto f).params = s.params := rfl
@[simp] theorem State.goto_host (s : State) (f : Fsm) : (s.goto f).host = s.host := rfl
@[simp] theorem State.goto_fsm (s : State) (f : Fsm) : (s.goto f).fsm = f := rfl
@[simp] theorem State.goto_br (s : State) (f : Fsm) : (s.goto f).br = s.br := rfl
@[simp] theorem State.goto_bfinal (s : State) (f : Fsm) : (s.goto f).bfinal = s.bfinal := rfl
@[simp] theorem State.goto_btype (s : State) (f : Fsm) : (s.goto f).btype = s.btype := rfl
@[simp] theorem State.goto_tsel (s : State) (f : Fsm) : (s.goto f).tsel = s.tsel := rfl
@[simp] theorem State.goto_ll (s : State) (f : Fsm) : (s.goto f).ll = s.ll := rfl
@[simp] theorem State.goto_dt (s : State) (f : Fsm) : (s.goto f).dt = s.dt := rfl
@[simp] theorem State.goto_cl (s : State) (f : Fsm) : (s.goto f).cl = s.cl := rfl
@[simp] theorem State.goto_hlit (s : State) (f : Fsm) : (s.goto f).hlit = s.hlit := rfl
@[simp] theorem State.goto_hdist (s : State) (f : Fsm) : (s.goto f).hdist = s.hdist := rfl
@[simp] theorem State.goto_hclen (s : State) (f : Fsm) : (s.goto f).hclen = s.hclen := rfl
@[simp] theorem State.goto_clIdx (s : State) (f : Fsm) : (s.goto f).clIdx = s.clIdx := rfl
@[simp] theorem State.goto_clLens (s : State) (f : Fsm) : (s.goto f).clLens = s.clLens := rfl
@[simp] theorem State.goto_lens (s : State) (f : Fsm) : (s.goto f).lens = s.lens := rfl
@[simp] theorem State.goto_lk (s : State) (f : Fsm) : (s.goto f).lk = s.lk := rfl
@[simp] theorem State.goto_stRem (s : State) (f : Fsm) : (s.goto f).stRem = s.stRem := rfl
@[simp] theorem State.goto_mLen (s : State) (f : Fsm) : (s.goto f).mLen = s.mLen := rfl
@[simp] theorem State.goto_mDist (s : State) (f : Fsm) : (s.goto f).mDist = s.mDist := rfl
@[simp] theorem State.goto_mRem (s : State) (f : Fsm) : (s.goto f).mRem = s.mRem := rfl
@[simp] theorem State.goto_outLen (s : State) (f : Fsm) : (s.goto f).outLen = s.outLen := rfl
@[simp] theorem State.goto_inLen (s : State) (f : Fsm) : (s.goto f).inLen = s.inLen := rfl
@[simp] theorem State.goto_errCode (s : State) (f : Fsm) : (s.goto f).errCode = s.errCode := rfl
@[simp] theorem State.goto_inMem (s : State) (f : Fsm) : (s.goto f).inMem = s.inMem := rfl
@[simp] theorem State.goto_outMem (s : State) (f : Fsm) : (s.goto f).outMem = s.outMem := rfl

/-! ## State.setHost -/

@[simp] theorem State.setHost_params (s : State) (h : List HostAct) : (s.setHost h).params = s.params := rfl
@[simp] theorem State.setHost_host (s : State) (h : List HostAct) : (s.setHost h).host = h := rfl
@[simp] theorem State.setHost_fsm (s : State) (h : List HostAct) : (s.setHost h).fsm = s.fsm := rfl
@[simp] theorem State.setHost_br (s : State) (h : List HostAct) : (s.setHost h).br = s.br := rfl
@[simp] theorem State.setHost_bfinal (s : State) (h : List HostAct) : (s.setHost h).bfinal = s.bfinal := rfl
@[simp] theorem State.setHost_btype (s : State) (h : List HostAct) : (s.setHost h).btype = s.btype := rfl
@[simp] theorem State.setHost_tsel (s : State) (h : List HostAct) : (s.setHost h).tsel = s.tsel := rfl
@[simp] theorem State.setHost_ll (s : State) (h : List HostAct) : (s.setHost h).ll = s.ll := rfl
@[simp] theorem State.setHost_dt (s : State) (h : List HostAct) : (s.setHost h).dt = s.dt := rfl
@[simp] theorem State.setHost_cl (s : State) (h : List HostAct) : (s.setHost h).cl = s.cl := rfl
@[simp] theorem State.setHost_hlit (s : State) (h : List HostAct) : (s.setHost h).hlit = s.hlit := rfl
@[simp] theorem State.setHost_hdist (s : State) (h : List HostAct) : (s.setHost h).hdist = s.hdist := rfl
@[simp] theorem State.setHost_hclen (s : State) (h : List HostAct) : (s.setHost h).hclen = s.hclen := rfl
@[simp] theorem State.setHost_clIdx (s : State) (h : List HostAct) : (s.setHost h).clIdx = s.clIdx := rfl
@[simp] theorem State.setHost_clLens (s : State) (h : List HostAct) : (s.setHost h).clLens = s.clLens := rfl
@[simp] theorem State.setHost_lens (s : State) (h : List HostAct) : (s.setHost h).lens = s.lens := rfl
@[simp] theorem State.setHost_lk (s : State) (h : List HostAct) : (s.setHost h).lk = s.lk := rfl
@[simp] theorem State.setHost_stRem (s : State) (h : List HostAct) : (s.setHost h).stRem = s.stRem := rfl
@[simp] theorem State.setHost_mLen (s : State) (h : List HostAct) : (s.setHost h).mLen = s.mLen := rfl
@[simp] theorem State.setHost_mDist (s : State) (h : List HostAct) : (s.setHost h).mDist = s.mDist := rfl
@[simp] theorem State.setHost_mRem (s : State) (h : List HostAct) : (s.setHost h).mRem = s.mRem := rfl
@[simp] theorem State.setHost_outLen (s : State) (h : List HostAct) : (s.setHost h).outLen = s.outLen := rfl
@[simp] theorem State.setHost_inLen (s : State) (h : List HostAct) : (s.setHost h).inLen = s.inLen := rfl
@[simp] theorem State.setHost_errCode (s : State) (h : List HostAct) : (s.setHost h).errCode = s.errCode := rfl
@[simp] theorem State.setHost_inMem (s : State) (h : List HostAct) : (s.setHost h).inMem = s.inMem := rfl
@[simp] theorem State.setHost_outMem (s : State) (h : List HostAct) : (s.setHost h).outMem = s.outMem := rfl

/-! ## State.pushByte -/

@[simp] theorem State.pushByte_params (s : State) (v : Byte) : (s.pushByte v).params = s.params := rfl
@[simp] theorem State.pushByte_host (s : State) (v : Byte) : (s.pushByte v).host = s.host := rfl
@[simp] theorem State.pushByte_fsm (s : State) (v : Byte) : (s.pushByte v).fsm = s.fsm := rfl
@[simp] theorem State.pushByte_br (s : State) (v : Byte) : (s.pushByte v).br = s.br := rfl
@[simp] theorem State.pushByte_bfinal (s : State) (v : Byte) : (s.pushByte v).bfinal = s.bfinal := rfl
@[simp] theorem State.pushByte_btype (s : State) (v : Byte) : (s.pushByte v).btype = s.btype := rfl
@[simp] theorem State.pushByte_tsel (s : State) (v : Byte) : (s.pushByte v).tsel = s.tsel := rfl
@[simp] theorem State.pushByte_ll (s : State) (v : Byte) : (s.pushByte v).ll = s.ll := rfl
@[simp] theorem State.pushByte_dt (s : State) (v : Byte) : (s.pushByte v).dt = s.dt := rfl
@[simp] theorem State.pushByte_cl (s : State) (v : Byte) : (s.pushByte v).cl = s.cl := rfl
@[simp] theorem State.pushByte_hlit (s : State) (v : Byte) : (s.pushByte v).hlit = s.hlit := rfl
@[simp] theorem State.pushByte_hdist (s : State) (v : Byte) : (s.pushByte v).hdist = s.hdist := rfl
@[simp] theorem State.pushByte_hclen (s : State) (v : Byte) : (s.pushByte v).hclen = s.hclen := rfl
@[simp] theorem State.pushByte_clIdx (s : State) (v : Byte) : (s.pushByte v).clIdx = s.clIdx := rfl
@[simp] theorem State.pushByte_clLens (s : State) (v : Byte) : (s.pushByte v).clLens = s.clLens := rfl
@[simp] theorem State.pushByte_lens (s : State) (v : Byte) : (s.pushByte v).lens = s.lens := rfl
@[simp] theorem State.pushByte_lk (s : State) (v : Byte) : (s.pushByte v).lk = s.lk := rfl
@[simp] theorem State.pushByte_stRem (s : State) (v : Byte) : (s.pushByte v).stRem = s.stRem := rfl
@[simp] theorem State.pushByte_mLen (s : State) (v : Byte) : (s.pushByte v).mLen = s.mLen := rfl
@[simp] theorem State.pushByte_mDist (s : State) (v : Byte) : (s.pushByte v).mDist = s.mDist := rfl
@[simp] theorem State.pushByte_mRem (s : State) (v : Byte) : (s.pushByte v).mRem = s.mRem := rfl
@[simp] theorem State.pushByte_outLen (s : State) (v : Byte) : (s.pushByte v).outLen = s.outLen + 1 := rfl
@[simp] theorem State.pushByte_inLen (s : State) (v : Byte) : (s.pushByte v).inLen = s.inLen := rfl
@[simp] theorem State.pushByte_errCode (s : State) (v : Byte) : (s.pushByte v).errCode = s.errCode := rfl
@[simp] theorem State.pushByte_inMem (s : State) (v : Byte) : (s.pushByte v).inMem = s.inMem := rfl
@[simp] theorem State.pushByte_outMem (s : State) (v : Byte) : (s.pushByte v).outMem = s.outMem.write s.outLen v
    := rfl

/-! ## State.raiseError -/

@[simp] theorem State.raiseError_params (s : State) (e : ErrCode) : (s.raiseError e).params = s.params := rfl
@[simp] theorem State.raiseError_host (s : State) (e : ErrCode) : (s.raiseError e).host = s.host := rfl
@[simp] theorem State.raiseError_fsm (s : State) (e : ErrCode) : (s.raiseError e).fsm = .error := rfl
@[simp] theorem State.raiseError_br (s : State) (e : ErrCode) : (s.raiseError e).br = s.br := rfl
@[simp] theorem State.raiseError_bfinal (s : State) (e : ErrCode) : (s.raiseError e).bfinal = s.bfinal := rfl
@[simp] theorem State.raiseError_btype (s : State) (e : ErrCode) : (s.raiseError e).btype = s.btype := rfl
@[simp] theorem State.raiseError_tsel (s : State) (e : ErrCode) : (s.raiseError e).tsel = s.tsel := rfl
@[simp] theorem State.raiseError_ll (s : State) (e : ErrCode) : (s.raiseError e).ll = s.ll := rfl
@[simp] theorem State.raiseError_dt (s : State) (e : ErrCode) : (s.raiseError e).dt = s.dt := rfl
@[simp] theorem State.raiseError_cl (s : State) (e : ErrCode) : (s.raiseError e).cl = s.cl := rfl
@[simp] theorem State.raiseError_hlit (s : State) (e : ErrCode) : (s.raiseError e).hlit = s.hlit := rfl
@[simp] theorem State.raiseError_hdist (s : State) (e : ErrCode) : (s.raiseError e).hdist = s.hdist := rfl
@[simp] theorem State.raiseError_hclen (s : State) (e : ErrCode) : (s.raiseError e).hclen = s.hclen := rfl
@[simp] theorem State.raiseError_clIdx (s : State) (e : ErrCode) : (s.raiseError e).clIdx = s.clIdx := rfl
@[simp] theorem State.raiseError_clLens (s : State) (e : ErrCode) : (s.raiseError e).clLens = s.clLens := rfl
@[simp] theorem State.raiseError_lens (s : State) (e : ErrCode) : (s.raiseError e).lens = s.lens := rfl
@[simp] theorem State.raiseError_lk (s : State) (e : ErrCode) : (s.raiseError e).lk = s.lk := rfl
@[simp] theorem State.raiseError_stRem (s : State) (e : ErrCode) : (s.raiseError e).stRem = s.stRem := rfl
@[simp] theorem State.raiseError_mLen (s : State) (e : ErrCode) : (s.raiseError e).mLen = s.mLen := rfl
@[simp] theorem State.raiseError_mDist (s : State) (e : ErrCode) : (s.raiseError e).mDist = s.mDist := rfl
@[simp] theorem State.raiseError_mRem (s : State) (e : ErrCode) : (s.raiseError e).mRem = s.mRem := rfl
@[simp] theorem State.raiseError_outLen (s : State) (e : ErrCode) : (s.raiseError e).outLen = s.outLen := rfl
@[simp] theorem State.raiseError_inLen (s : State) (e : ErrCode) : (s.raiseError e).inLen = s.inLen := rfl
@[simp] theorem State.raiseError_errCode (s : State) (e : ErrCode) : (s.raiseError e).errCode = e := rfl
@[simp] theorem State.raiseError_inMem (s : State) (e : ErrCode) : (s.raiseError e).inMem = s.inMem := rfl
@[simp] theorem State.raiseError_outMem (s : State) (e : ErrCode) : (s.raiseError e).outMem = s.outMem := rfl

/-! ## State.runInit -/

@[simp] theorem State.runInit_params (s : State) : (s.runInit).params = s.params := rfl
@[simp] theorem State.runInit_host (s : State) : (s.runInit).host = s.host := rfl
@[simp] theorem State.runInit_fsm (s : State) : (s.runInit).fsm = .hdr := rfl
@[simp] theorem State.runInit_br (s : State) : (s.runInit).br = BitReader.empty := rfl
@[simp] theorem State.runInit_bfinal (s : State) : (s.runInit).bfinal = s.bfinal := rfl
@[simp] theorem State.runInit_btype (s : State) : (s.runInit).btype = s.btype := rfl
@[simp] theorem State.runInit_tsel (s : State) : (s.runInit).tsel = s.tsel := rfl
@[simp] theorem State.runInit_ll (s : State) : (s.runInit).ll = s.ll := rfl
@[simp] theorem State.runInit_dt (s : State) : (s.runInit).dt = s.dt := rfl
@[simp] theorem State.runInit_cl (s : State) : (s.runInit).cl = s.cl := rfl
@[simp] theorem State.runInit_hlit (s : State) : (s.runInit).hlit = s.hlit := rfl
@[simp] theorem State.runInit_hdist (s : State) : (s.runInit).hdist = s.hdist := rfl
@[simp] theorem State.runInit_hclen (s : State) : (s.runInit).hclen = s.hclen := rfl
@[simp] theorem State.runInit_clIdx (s : State) : (s.runInit).clIdx = s.clIdx := rfl
@[simp] theorem State.runInit_clLens (s : State) : (s.runInit).clLens = s.clLens := rfl
@[simp] theorem State.runInit_lens (s : State) : (s.runInit).lens = s.lens := rfl
@[simp] theorem State.runInit_lk (s : State) : (s.runInit).lk = s.lk := rfl
@[simp] theorem State.runInit_stRem (s : State) : (s.runInit).stRem = s.stRem := rfl
@[simp] theorem State.runInit_mLen (s : State) : (s.runInit).mLen = s.mLen := rfl
@[simp] theorem State.runInit_mDist (s : State) : (s.runInit).mDist = s.mDist := rfl
@[simp] theorem State.runInit_mRem (s : State) : (s.runInit).mRem = s.mRem := rfl
@[simp] theorem State.runInit_outLen (s : State) : (s.runInit).outLen = 0 := rfl
@[simp] theorem State.runInit_inLen (s : State) : (s.runInit).inLen = s.inLen := rfl
@[simp] theorem State.runInit_errCode (s : State) : (s.runInit).errCode = .none := rfl
@[simp] theorem State.runInit_inMem (s : State) : (s.runInit).inMem = s.inMem := rfl
@[simp] theorem State.runInit_outMem (s : State) : (s.runInit).outMem = s.outMem := rfl

/-! ## State.setHeader -/

@[simp] theorem State.setHeader_params (s : State) (f : BitVec 1) (t : BitVec 2) : (s.setHeader f t).params = s.params
    := rfl
@[simp] theorem State.setHeader_host (s : State) (f : BitVec 1) (t : BitVec 2) : (s.setHeader f t).host = s.host
    := rfl
@[simp] theorem State.setHeader_fsm (s : State) (f : BitVec 1) (t : BitVec 2) : (s.setHeader f t).fsm = s.fsm := rfl
@[simp] theorem State.setHeader_br (s : State) (f : BitVec 1) (t : BitVec 2) : (s.setHeader f t).br = s.br := rfl
@[simp] theorem State.setHeader_bfinal (s : State) (f : BitVec 1) (t : BitVec 2) : (s.setHeader f t).bfinal = f := rfl
@[simp] theorem State.setHeader_btype (s : State) (f : BitVec 1) (t : BitVec 2) : (s.setHeader f t).btype = t := rfl
@[simp] theorem State.setHeader_tsel (s : State) (f : BitVec 1) (t : BitVec 2) : (s.setHeader f t).tsel = s.tsel
    := rfl
@[simp] theorem State.setHeader_ll (s : State) (f : BitVec 1) (t : BitVec 2) : (s.setHeader f t).ll = s.ll := rfl
@[simp] theorem State.setHeader_dt (s : State) (f : BitVec 1) (t : BitVec 2) : (s.setHeader f t).dt = s.dt := rfl
@[simp] theorem State.setHeader_cl (s : State) (f : BitVec 1) (t : BitVec 2) : (s.setHeader f t).cl = s.cl := rfl
@[simp] theorem State.setHeader_hlit (s : State) (f : BitVec 1) (t : BitVec 2) : (s.setHeader f t).hlit = s.hlit
    := rfl
@[simp] theorem State.setHeader_hdist (s : State) (f : BitVec 1) (t : BitVec 2) : (s.setHeader f t).hdist = s.hdist
    := rfl
@[simp] theorem State.setHeader_hclen (s : State) (f : BitVec 1) (t : BitVec 2) : (s.setHeader f t).hclen = s.hclen
    := rfl
@[simp] theorem State.setHeader_clIdx (s : State) (f : BitVec 1) (t : BitVec 2) : (s.setHeader f t).clIdx = s.clIdx
    := rfl
@[simp] theorem State.setHeader_clLens (s : State) (f : BitVec 1) (t : BitVec 2) : (s.setHeader f t).clLens = s.clLens
    := rfl
@[simp] theorem State.setHeader_lens (s : State) (f : BitVec 1) (t : BitVec 2) : (s.setHeader f t).lens = s.lens
    := rfl
@[simp] theorem State.setHeader_lk (s : State) (f : BitVec 1) (t : BitVec 2) : (s.setHeader f t).lk = s.lk := rfl
@[simp] theorem State.setHeader_stRem (s : State) (f : BitVec 1) (t : BitVec 2) : (s.setHeader f t).stRem = s.stRem
    := rfl
@[simp] theorem State.setHeader_mLen (s : State) (f : BitVec 1) (t : BitVec 2) : (s.setHeader f t).mLen = s.mLen
    := rfl
@[simp] theorem State.setHeader_mDist (s : State) (f : BitVec 1) (t : BitVec 2) : (s.setHeader f t).mDist = s.mDist
    := rfl
@[simp] theorem State.setHeader_mRem (s : State) (f : BitVec 1) (t : BitVec 2) : (s.setHeader f t).mRem = s.mRem
    := rfl
@[simp] theorem State.setHeader_outLen (s : State) (f : BitVec 1) (t : BitVec 2) : (s.setHeader f t).outLen = s.outLen
    := rfl
@[simp] theorem State.setHeader_inLen (s : State) (f : BitVec 1) (t : BitVec 2) : (s.setHeader f t).inLen = s.inLen
    := rfl
@[simp] theorem State.setHeader_errCode (s : State) (f : BitVec 1) (t : BitVec 2) : (s.setHeader f t).errCode = s.errCode
    := rfl
@[simp] theorem State.setHeader_inMem (s : State) (f : BitVec 1) (t : BitVec 2) : (s.setHeader f t).inMem = s.inMem
    := rfl
@[simp] theorem State.setHeader_outMem (s : State) (f : BitVec 1) (t : BitVec 2) : (s.setHeader f t).outMem = s.outMem
    := rfl

/-! ## State.setTsel -/

@[simp] theorem State.setTsel_params (s : State) (t : TSel) : (s.setTsel t).params = s.params := rfl
@[simp] theorem State.setTsel_host (s : State) (t : TSel) : (s.setTsel t).host = s.host := rfl
@[simp] theorem State.setTsel_fsm (s : State) (t : TSel) : (s.setTsel t).fsm = s.fsm := rfl
@[simp] theorem State.setTsel_br (s : State) (t : TSel) : (s.setTsel t).br = s.br := rfl
@[simp] theorem State.setTsel_bfinal (s : State) (t : TSel) : (s.setTsel t).bfinal = s.bfinal := rfl
@[simp] theorem State.setTsel_btype (s : State) (t : TSel) : (s.setTsel t).btype = s.btype := rfl
@[simp] theorem State.setTsel_tsel (s : State) (t : TSel) : (s.setTsel t).tsel = t := rfl
@[simp] theorem State.setTsel_ll (s : State) (t : TSel) : (s.setTsel t).ll = s.ll := rfl
@[simp] theorem State.setTsel_dt (s : State) (t : TSel) : (s.setTsel t).dt = s.dt := rfl
@[simp] theorem State.setTsel_cl (s : State) (t : TSel) : (s.setTsel t).cl = s.cl := rfl
@[simp] theorem State.setTsel_hlit (s : State) (t : TSel) : (s.setTsel t).hlit = s.hlit := rfl
@[simp] theorem State.setTsel_hdist (s : State) (t : TSel) : (s.setTsel t).hdist = s.hdist := rfl
@[simp] theorem State.setTsel_hclen (s : State) (t : TSel) : (s.setTsel t).hclen = s.hclen := rfl
@[simp] theorem State.setTsel_clIdx (s : State) (t : TSel) : (s.setTsel t).clIdx = s.clIdx := rfl
@[simp] theorem State.setTsel_clLens (s : State) (t : TSel) : (s.setTsel t).clLens = s.clLens := rfl
@[simp] theorem State.setTsel_lens (s : State) (t : TSel) : (s.setTsel t).lens = s.lens := rfl
@[simp] theorem State.setTsel_lk (s : State) (t : TSel) : (s.setTsel t).lk = s.lk := rfl
@[simp] theorem State.setTsel_stRem (s : State) (t : TSel) : (s.setTsel t).stRem = s.stRem := rfl
@[simp] theorem State.setTsel_mLen (s : State) (t : TSel) : (s.setTsel t).mLen = s.mLen := rfl
@[simp] theorem State.setTsel_mDist (s : State) (t : TSel) : (s.setTsel t).mDist = s.mDist := rfl
@[simp] theorem State.setTsel_mRem (s : State) (t : TSel) : (s.setTsel t).mRem = s.mRem := rfl
@[simp] theorem State.setTsel_outLen (s : State) (t : TSel) : (s.setTsel t).outLen = s.outLen := rfl
@[simp] theorem State.setTsel_inLen (s : State) (t : TSel) : (s.setTsel t).inLen = s.inLen := rfl
@[simp] theorem State.setTsel_errCode (s : State) (t : TSel) : (s.setTsel t).errCode = s.errCode := rfl
@[simp] theorem State.setTsel_inMem (s : State) (t : TSel) : (s.setTsel t).inMem = s.inMem := rfl
@[simp] theorem State.setTsel_outMem (s : State) (t : TSel) : (s.setTsel t).outMem = s.outMem := rfl

/-! ## State.countStored -/

@[simp] theorem State.countStored_params (s : State) : (s.countStored).params = s.params := rfl
@[simp] theorem State.countStored_host (s : State) : (s.countStored).host = s.host := rfl
@[simp] theorem State.countStored_fsm (s : State) : (s.countStored).fsm = if s.stRem - 1 = 0 then .blockEnd else s.fsm
    := rfl
@[simp] theorem State.countStored_br (s : State) : (s.countStored).br = s.br := rfl
@[simp] theorem State.countStored_bfinal (s : State) : (s.countStored).bfinal = s.bfinal := rfl
@[simp] theorem State.countStored_btype (s : State) : (s.countStored).btype = s.btype := rfl
@[simp] theorem State.countStored_tsel (s : State) : (s.countStored).tsel = s.tsel := rfl
@[simp] theorem State.countStored_ll (s : State) : (s.countStored).ll = s.ll := rfl
@[simp] theorem State.countStored_dt (s : State) : (s.countStored).dt = s.dt := rfl
@[simp] theorem State.countStored_cl (s : State) : (s.countStored).cl = s.cl := rfl
@[simp] theorem State.countStored_hlit (s : State) : (s.countStored).hlit = s.hlit := rfl
@[simp] theorem State.countStored_hdist (s : State) : (s.countStored).hdist = s.hdist := rfl
@[simp] theorem State.countStored_hclen (s : State) : (s.countStored).hclen = s.hclen := rfl
@[simp] theorem State.countStored_clIdx (s : State) : (s.countStored).clIdx = s.clIdx := rfl
@[simp] theorem State.countStored_clLens (s : State) : (s.countStored).clLens = s.clLens := rfl
@[simp] theorem State.countStored_lens (s : State) : (s.countStored).lens = s.lens := rfl
@[simp] theorem State.countStored_lk (s : State) : (s.countStored).lk = s.lk := rfl
@[simp] theorem State.countStored_stRem (s : State) : (s.countStored).stRem = s.stRem - 1 := rfl
@[simp] theorem State.countStored_mLen (s : State) : (s.countStored).mLen = s.mLen := rfl
@[simp] theorem State.countStored_mDist (s : State) : (s.countStored).mDist = s.mDist := rfl
@[simp] theorem State.countStored_mRem (s : State) : (s.countStored).mRem = s.mRem := rfl
@[simp] theorem State.countStored_outLen (s : State) : (s.countStored).outLen = s.outLen := rfl
@[simp] theorem State.countStored_inLen (s : State) : (s.countStored).inLen = s.inLen := rfl
@[simp] theorem State.countStored_errCode (s : State) : (s.countStored).errCode = s.errCode := rfl
@[simp] theorem State.countStored_inMem (s : State) : (s.countStored).inMem = s.inMem := rfl
@[simp] theorem State.countStored_outMem (s : State) : (s.countStored).outMem = s.outMem := rfl

/-! ## State.setMatch -/

@[simp] theorem State.setMatch_params (s : State) (d : Nat) : (s.setMatch d).params = s.params := rfl
@[simp] theorem State.setMatch_host (s : State) (d : Nat) : (s.setMatch d).host = s.host := rfl
@[simp] theorem State.setMatch_fsm (s : State) (d : Nat) : (s.setMatch d).fsm = .copy := rfl
@[simp] theorem State.setMatch_br (s : State) (d : Nat) : (s.setMatch d).br = s.br := rfl
@[simp] theorem State.setMatch_bfinal (s : State) (d : Nat) : (s.setMatch d).bfinal = s.bfinal := rfl
@[simp] theorem State.setMatch_btype (s : State) (d : Nat) : (s.setMatch d).btype = s.btype := rfl
@[simp] theorem State.setMatch_tsel (s : State) (d : Nat) : (s.setMatch d).tsel = s.tsel := rfl
@[simp] theorem State.setMatch_ll (s : State) (d : Nat) : (s.setMatch d).ll = s.ll := rfl
@[simp] theorem State.setMatch_dt (s : State) (d : Nat) : (s.setMatch d).dt = s.dt := rfl
@[simp] theorem State.setMatch_cl (s : State) (d : Nat) : (s.setMatch d).cl = s.cl := rfl
@[simp] theorem State.setMatch_hlit (s : State) (d : Nat) : (s.setMatch d).hlit = s.hlit := rfl
@[simp] theorem State.setMatch_hdist (s : State) (d : Nat) : (s.setMatch d).hdist = s.hdist := rfl
@[simp] theorem State.setMatch_hclen (s : State) (d : Nat) : (s.setMatch d).hclen = s.hclen := rfl
@[simp] theorem State.setMatch_clIdx (s : State) (d : Nat) : (s.setMatch d).clIdx = s.clIdx := rfl
@[simp] theorem State.setMatch_clLens (s : State) (d : Nat) : (s.setMatch d).clLens = s.clLens := rfl
@[simp] theorem State.setMatch_lens (s : State) (d : Nat) : (s.setMatch d).lens = s.lens := rfl
@[simp] theorem State.setMatch_lk (s : State) (d : Nat) : (s.setMatch d).lk = s.lk := rfl
@[simp] theorem State.setMatch_stRem (s : State) (d : Nat) : (s.setMatch d).stRem = s.stRem := rfl
@[simp] theorem State.setMatch_mLen (s : State) (d : Nat) : (s.setMatch d).mLen = s.mLen := rfl
@[simp] theorem State.setMatch_mDist (s : State) (d : Nat) : (s.setMatch d).mDist = BitVec.ofNat 16 d := rfl
@[simp] theorem State.setMatch_mRem (s : State) (d : Nat) : (s.setMatch d).mRem = s.mLen := rfl
@[simp] theorem State.setMatch_outLen (s : State) (d : Nat) : (s.setMatch d).outLen = s.outLen := rfl
@[simp] theorem State.setMatch_inLen (s : State) (d : Nat) : (s.setMatch d).inLen = s.inLen := rfl
@[simp] theorem State.setMatch_errCode (s : State) (d : Nat) : (s.setMatch d).errCode = s.errCode := rfl
@[simp] theorem State.setMatch_inMem (s : State) (d : Nat) : (s.setMatch d).inMem = s.inMem := rfl
@[simp] theorem State.setMatch_outMem (s : State) (d : Nat) : (s.setMatch d).outMem = s.outMem := rfl

/-! ## State.countCopy -/

@[simp] theorem State.countCopy_params (s : State) : (s.countCopy).params = s.params := rfl
@[simp] theorem State.countCopy_host (s : State) : (s.countCopy).host = s.host := rfl
@[simp] theorem State.countCopy_fsm (s : State) : (s.countCopy).fsm = if s.mRem - 1 = 0 then .sym else s.fsm := rfl
@[simp] theorem State.countCopy_br (s : State) : (s.countCopy).br = s.br := rfl
@[simp] theorem State.countCopy_bfinal (s : State) : (s.countCopy).bfinal = s.bfinal := rfl
@[simp] theorem State.countCopy_btype (s : State) : (s.countCopy).btype = s.btype := rfl
@[simp] theorem State.countCopy_tsel (s : State) : (s.countCopy).tsel = s.tsel := rfl
@[simp] theorem State.countCopy_ll (s : State) : (s.countCopy).ll = s.ll := rfl
@[simp] theorem State.countCopy_dt (s : State) : (s.countCopy).dt = s.dt := rfl
@[simp] theorem State.countCopy_cl (s : State) : (s.countCopy).cl = s.cl := rfl
@[simp] theorem State.countCopy_hlit (s : State) : (s.countCopy).hlit = s.hlit := rfl
@[simp] theorem State.countCopy_hdist (s : State) : (s.countCopy).hdist = s.hdist := rfl
@[simp] theorem State.countCopy_hclen (s : State) : (s.countCopy).hclen = s.hclen := rfl
@[simp] theorem State.countCopy_clIdx (s : State) : (s.countCopy).clIdx = s.clIdx := rfl
@[simp] theorem State.countCopy_clLens (s : State) : (s.countCopy).clLens = s.clLens := rfl
@[simp] theorem State.countCopy_lens (s : State) : (s.countCopy).lens = s.lens := rfl
@[simp] theorem State.countCopy_lk (s : State) : (s.countCopy).lk = s.lk := rfl
@[simp] theorem State.countCopy_stRem (s : State) : (s.countCopy).stRem = s.stRem := rfl
@[simp] theorem State.countCopy_mLen (s : State) : (s.countCopy).mLen = s.mLen := rfl
@[simp] theorem State.countCopy_mDist (s : State) : (s.countCopy).mDist = s.mDist := rfl
@[simp] theorem State.countCopy_mRem (s : State) : (s.countCopy).mRem = s.mRem - 1 := rfl
@[simp] theorem State.countCopy_outLen (s : State) : (s.countCopy).outLen = s.outLen := rfl
@[simp] theorem State.countCopy_inLen (s : State) : (s.countCopy).inLen = s.inLen := rfl
@[simp] theorem State.countCopy_errCode (s : State) : (s.countCopy).errCode = s.errCode := rfl
@[simp] theorem State.countCopy_inMem (s : State) : (s.countCopy).inMem = s.inMem := rfl
@[simp] theorem State.countCopy_outMem (s : State) : (s.countCopy).outMem = s.outMem := rfl

end Sys2Proof.Machine
end

