-- ==== Sys2Proof/Laws/Meanings.lean ====
section
/-! SUPPORT. For each shared operation of the meanings, everything it can do; and which shared operation
each element's meaning is. -/

namespace Sys2Proof.Machine

/-! ## How a meaning ends -/

/-- A meaning that ends in a next state was completed, or raised an error of the machine. -/
theorem finish_next {s t : State} {r : Result State} :
    finish s r = .next t ↔ r = .ok t ∨ ∃ e, r = .error (.raise e) ∧ t = s.raiseError e := by
  cases r with
  | ok u => simp [finish]
  | error e => cases e <;> simp [finish, stop, eq_comm]

theorem finish_ok (s t : State) : finish s (.ok t) = .next t := rfl
theorem finish_raise (s : State) (e : ErrCode) : finish s (.error (.raise e)) = .next (s.raiseError e) := rfl
theorem finish_fault (s : State) (f : Fault) : finish s (.error (.fault f)) = .fault f := rfl

/-- No meaning that ends with `finish` is refused. -/
theorem finish_ne_refused (s : State) (r : Result State) (x : Refusal) : finish s r ≠ .refused x := by
  cases r with
  | ok u => simp [finish]
  | error e => cases e <;> simp [finish, stop]

/-- The commit of a meaning that ran in `s'` and completes outside ERROR: a raise is taken in `s`. -/
theorem commit_finish {s s' : State} {r : Result State} (h : ∀ t, r = .ok t → t.fsm ≠ .error) :
    commit s (finish s' r) = finish s r := by
  cases r with
  | ok u => simp [finish, commit, h u rfl]
  | error e => cases e <;> simp [finish, stop, commit, State.raiseError]

theorem commit_next {s t : State} (h : t.fsm ≠ .error) : commit s (.next t) = .next t := by
  simp [commit, h]

/-! ## Output -/

theorem outAppend_ok {v : Byte} {s t : State} :
    outAppend v s = .ok t ↔ s.outLen ≠ s.params.outCap ∧ t = s.pushByte v := by
  unfold outAppend
  split
  · simp [*]
  · simp only [Except.ok.injEq]
    exact ⟨fun h => ⟨by assumption, h.symm⟩, fun h => h.2.symm⟩

theorem outAppend_error {v : Byte} {s : State} {e : Stop} :
    outAppend v s = .error e ↔ s.outLen = s.params.outCap ∧ e = .raise .outputOverflow := by
  unfold outAppend
  split
  · simp only [Except.error.injEq]
    exact ⟨fun h => ⟨by assumption, h.symm⟩, fun h => h.2.symm⟩
  · simp [*]

theorem outRead_ok {s : State} {a : Nat} {b : Byte} :
    outRead s a = .ok b ↔ a < s.outLen ∧ s.outMem.read? a = some b := by
  unfold outRead
  split
  · split <;> simp [*]
  · simp [*]

/-- COPY, where it goes on (R297). -/
theorem copyStep_ok {s t : State} :
    copyStep s = .ok t ↔ s.mRem ≠ 0 ∧ s.mDist.toNat ≤ s.outLen ∧ s.outLen ≠ s.params.outCap ∧
      ∃ b, s.outLen - s.mDist.toNat < s.outLen ∧ s.outMem.read? (s.outLen - s.mDist.toNat) = some b ∧
        t = (s.pushByte b).countCopy := by
  unfold copyStep
  split
  · simp [*]
  · split
    · rename_i h1 h2
      simp only [reduceCtorEq, false_iff, not_and]
      omega
    · rename_i h1 h2
      cases hr : outRead s (s.outLen - s.mDist.toNat) with
      | error e =>
        simp only [reduceCtorEq, false_iff, not_and, not_exists]
        intro _ _ _ b h3 h4 _
        rw [outRead_ok.2 ⟨h3, h4⟩] at hr
        cases hr
      | ok b =>
        obtain ⟨h3, h4⟩ := outRead_ok.1 hr
        show (match outAppend b s with | .ok t => .ok t.countCopy | .error e => .error e) = Except.ok t ↔ _
        cases ha : outAppend b s with
        | error e =>
          have := (outAppend_error.1 ha).1
          simp [this]
        | ok u =>
          obtain ⟨h5, rfl⟩ := outAppend_ok.1 ha
          simp only [Except.ok.injEq, h4, Option.some.injEq]
          constructor
          · rintro rfl
            exact ⟨h1, by omega, h5, b, h3, rfl, rfl⟩
          · rintro ⟨-, -, -, b', -, rfl, rfl⟩
            rfl

/-- The only error of the machine that COPY raises. -/
theorem copyStep_raise {s : State} {e : ErrCode} (h : copyStep s = .error (.raise e)) :
    e = .outputOverflow ∧ s.outLen = s.params.outCap := by
  unfold copyStep at h
  split at h
  · cases h
  · split at h
    · cases h
    · split at h
      · split at h
        · cases h
        · rename_i e' he
          cases h
          obtain ⟨h1, h2⟩ := outAppend_error.1 he
          cases h2
          exact ⟨rfl, h1⟩
      · rename_i e' he
        cases h
        unfold outRead at he
        split at he
        · split at he <;> cases he
        · cases he

/-! ## The length sequence -/

/-- `r` copies of `v` from `start` on, and every other entry as it was (R249 to R252). -/
theorem getElem?_fillLens (lens : Vector (BitVec 4) 320) (start : Nat) (v : BitVec 4) (r j : Nat) :
    (fillLens lens start v r)[j]? =
      if start ≤ j ∧ j < start + r ∧ j < 320 then some v else lens[j]? := by
  induction r with
  | zero => simp [fillLens, show ¬ (start ≤ j ∧ j < start ∧ j < 320) by omega]
  | succ r ih =>
    rw [fillLens, Vector.getElem?_setIfInBounds, ih]
    by_cases h : start + r = j
    · subst h
      by_cases h2 : start + r < 320
      · simp [h2]
      · simp [h2]
    · rw [if_neg h]
      congr 1
      apply propext
      omega

theorem putLens_ok {v : BitVec 4} {r : Nat} {s t : State} :
    putLens v r s = .ok t ↔ s.lk.toNat + r ≤ 320 ∧ t = { s with
      lens := fillLens s.lens s.lk.toNat v r
      lk := BitVec.ofNat 9 (s.lk.toNat + r)
      fsm := if s.lk.toNat + r = s.totalLens then .dynBuild else s.fsm } := by
  unfold putLens
  split
  · simp; omega
  · simp only [Except.ok.injEq]
    exact ⟨fun h => ⟨by omega, h.symm⟩, fun h => h.2.symm⟩

theorem putLens_error {v : BitVec 4} {r : Nat} {s : State} {e : Stop} (h : putLens v r s = .error e) :
    320 < s.lk.toNat + r ∧ e = .fault .lensIndexOutOfRange := by
  unfold putLens at h
  split at h
  · cases h; exact ⟨by assumption, rfl⟩
  · cases h

theorem fitLens_ok {v : BitVec 4} {r : Nat} {s t : State} :
    fitLens v r s = .ok t ↔ s.lk.toNat + r ≤ s.totalLens ∧ putLens v r s = .ok t := by
  unfold fitLens
  split
  · simp; omega
  · simp; omega

theorem fitLens_error {v : BitVec 4} {r : Nat} {s : State} {e : Stop} (h : fitLens v r s = .error e) :
    s.totalLens < s.lk.toNat + r ∧ e = .raise .invalidDynamicTree ∨
      320 < s.lk.toNat + r ∧ s.lk.toNat + r ≤ s.totalLens ∧ e = .fault .lensIndexOutOfRange := by
  unfold fitLens at h
  split at h
  · cases h; exact .inl ⟨by assumption, rfl⟩
  · obtain ⟨h1, h2⟩ := putLens_error h
    exact .inr ⟨h1, by omega, h2⟩

theorem State.lensAt_ok {s : State} {i : Nat} {v : BitVec 4} : s.lensAt i = .ok v ↔ s.lens[i]? = some v := by
  unfold State.lensAt; split <;> simp [*]

theorem State.lensAt_error {s : State} {i : Nat} {e : Stop} :
    s.lensAt i = .error e ↔ 320 ≤ i ∧ e = .fault .lensIndexOutOfRange := by
  unfold State.lensAt
  split
  · rename_i x h
    have : i < 320 := by
      by_contra hn
      rw [Vector.getElem?_eq_none (by omega)] at h; cases h
    simp; omega
  · rename_i h
    simp at h
    simp [h, eq_comm]

theorem zeroLens_ok {n : Nat} {count : Nat → Nat} {s t : State} :
    zeroLens n count s = .ok t ↔ ∃ x r, getBits s.inMem s.inLen n s.br = .ok (x, r) ∧
      fitLens 0 (count x) (s.setBr r) = .ok t := by
  unfold zeroLens State.getBits
  split <;> simp [*]

theorem repeatPrev_ok {s t : State} :
    repeatPrev s = .ok t ↔ s.lk ≠ 0 ∧ ∃ x r v, getBits s.inMem s.inLen 2 s.br = .ok (x, r) ∧
      s.lens[s.lk.toNat - 1]? = some v ∧ fitLens v (x + 3) (s.setBr r) = .ok t := by
  unfold repeatPrev State.getBits repeatCount16
  by_cases hlk : s.lk = 0
  · simp [hlk]
  · rw [if_neg hlk]
    split
    · split
      · rename_i h
        rw [State.lensAt_ok] at h
        simp only [*, Except.ok.injEq, Prod.mk.injEq, Option.some.injEq]
        constructor
        · exact fun h => ⟨hlk, _, _, _, ⟨rfl, rfl⟩, rfl, h⟩
        · rintro ⟨-, x, r, v, ⟨rfl, rfl⟩, rfl, h⟩
          exact h
      · rename_i h
        have := (State.lensAt_error.1 h).1
        simp [*]
    · simp [*]

/-- Why a repeat stops. -/
theorem zeroLens_error {n : Nat} {count : Nat → Nat} {s : State} {e : Stop} (h : zeroLens n count s = .error e) :
    getBits s.inMem s.inLen n s.br = .error e ∨ ∃ x r, getBits s.inMem s.inLen n s.br = .ok (x, r) ∧
      fitLens 0 (count x) (s.setBr r) = .error e := by
  unfold zeroLens State.getBits at h
  split at h
  · exact .inr ⟨_, _, by assumption, h⟩
  · cases h; exact .inl (by assumption)

theorem repeatPrev_error {s : State} {e : Stop} (h : repeatPrev s = .error e) :
    s.lk = 0 ∧ e = .raise .noPreviousLength ∨ getBits s.inMem s.inLen 2 s.br = .error e ∨
      320 ≤ s.lk.toNat - 1 ∧ e = .fault .lensIndexOutOfRange ∨
      ∃ x r v, getBits s.inMem s.inLen 2 s.br = .ok (x, r) ∧ fitLens v (x + 3) (s.setBr r) = .error e := by
  unfold repeatPrev State.getBits at h
  split at h
  · cases h; exact .inl ⟨by assumption, rfl⟩
  · split at h
    · split at h
      · exact .inr (.inr (.inr ⟨_, _, _, by assumption, h⟩))
      · rename_i he
        cases h
        exact .inr (.inr (.inl (State.lensAt_error.1 he)))
    · cases h; exact .inr (.inl (by assumption))

/-! ## Length and distance symbols -/

theorem lengthSymbol_ok {c : Nat} {s t : State} :
    lengthSymbol c s = .ok t ↔ ∃ x r, getBits s.inMem s.inLen (lenExtra c) s.br = .ok (x, r) ∧
      t = { s with br := r, mLen := BitVec.ofNat 9 (lenOf c x), fsm := .dist } := by
  unfold lengthSymbol State.getBits
  split <;> simp [*, State.goto, State.setBr, eq_comm]

/-- A length symbol whose extra bits can be read. -/
theorem lengthSymbol_of_getBits {c x : Nat} {s : State} {r : BitReader}
    (h : getBits s.inMem s.inLen (lenExtra c) s.br = .ok (x, r)) :
    lengthSymbol c s = .ok { s with br := r, mLen := BitVec.ofNat 9 (lenOf c x), fsm := .dist } :=
  lengthSymbol_ok.2 ⟨x, r, h, rfl⟩

theorem lengthSymbol_error {c : Nat} {s : State} {e : Stop} :
    lengthSymbol c s = .error e ↔ getBits s.inMem s.inLen (lenExtra c) s.br = .error e := by
  unfold lengthSymbol State.getBits
  split <;> simp [*]

theorem distanceSymbol_ok {c : Nat} {s t : State} :
    distanceSymbol c s = .ok t ↔ c < 30 ∧ ∃ x r, getBits s.inMem s.inLen (distExtra c) s.br = .ok (x, r) ∧
      distOf c x ≤ s.outLen ∧
      t = { s with br := r, mDist := BitVec.ofNat 16 (distOf c x), mRem := s.mLen, fsm := .copy } := by
  unfold distanceSymbol State.getBits
  split
  · simp; omega
  · rename_i hc
    split
    · split
      · simp [*]
      · rename_i hg hd
        simp only [*, Except.ok.injEq, Prod.mk.injEq]
        constructor
        · rintro rfl
          exact ⟨by omega, _, _, ⟨rfl, rfl⟩, by omega, rfl⟩
        · rintro ⟨-, x, r, ⟨rfl, rfl⟩, -, rfl⟩
          rfl
    · simp [*]

/-- A distance symbol whose extra bits can be read and whose distance is in range. -/
theorem distanceSymbol_of_getBits {c x : Nat} {s : State} {r : BitReader} (hc : c < 30)
    (h : getBits s.inMem s.inLen (distExtra c) s.br = .ok (x, r)) (ho : distOf c x ≤ s.outLen) :
    distanceSymbol c s = .ok
      { s with br := r, mDist := BitVec.ofNat 16 (distOf c x), mRem := s.mLen, fsm := .copy } :=
  distanceSymbol_ok.2 ⟨hc, x, r, h, ho, rfl⟩

theorem distanceSymbol_error {c : Nat} {s : State} {e : Stop} (h : distanceSymbol c s = .error e) :
    30 ≤ c ∧ e = .raise .invalidDistanceCode ∨
    c < 30 ∧ getBits s.inMem s.inLen (distExtra c) s.br = .error e ∨
    c < 30 ∧ e = .raise .distanceTooFar ∧ ∃ x r, getBits s.inMem s.inLen (distExtra c) s.br = .ok (x, r) ∧
      s.outLen < distOf c x := by
  unfold distanceSymbol State.getBits at h
  split at h
  · cases h; exact .inl ⟨by assumption, rfl⟩
  · split at h
    · split at h
      · cases h
        exact .inr (.inr ⟨by omega, rfl, _, _, by assumption, by assumption⟩)
      · cases h
    · cases h; exact .inr (.inl ⟨by omega, by assumption⟩)

/-! ## The ranges of the length and distance functions -/

theorem lenExtra_le (c : Nat) (h : c ≤ 28) : lenExtra c ≤ 5 := by
  unfold lenExtra; split <;> omega

theorem distExtra_le (c : Nat) (h : c < 30) : distExtra c ≤ 13 := by
  unfold distExtra; split <;> omega

/-! ## Which shared operation an element's meaning is -/

/-- A length symbol's meaning is R293 for its length code. -/
theorem exec_lengthCode {i : Instr} {c : Nat} (h : i.lengthCode? = some c) (s : State) :
    exec i s = finish s (lengthSymbol c s) := by
  cases i
  case lit b =>
    have hb : ¬ 257 ≤ b.toNat := Nat.not_le_of_lt (Nat.lt_trans b.isLt (by decide))
    simp [Instr.lengthCode?, encode, hb] at h
  all_goals
    simp [Instr.lengthCode?, encode] at h
  all_goals
    subst h
    rfl

/-- A distance symbol's meaning is R295 for its distance code. -/
theorem exec_distanceCode {i : Instr} {c : Nat} (h : i.distanceCode? = some c) (s : State) :
    exec i s = finish s (distanceSymbol c s) := by
  cases i <;> first
    | (cases h; done)
    | (cases h; rfl)

end Sys2Proof.Machine
end

