-- ==== Sys2Proof/Laws/PerInstr.lean ====
section
/-! SUPPORT. The lemma families that hold of every instruction, one lemma for each constructor. -/

namespace Sys2Proof.Laws.EncodingFits

/-- The encoding of a well-formed instruction is a value of its format: it fits the format's bits. -/
def Statement (i : Instr) : Prop := i.wellFormed = true → (encode i).value < 2 ^ (encode i).fmt.bits

theorem blockStored (bfinal : BitVec 1) : Statement (.blockStored bfinal) := fun _ => by
  show bfinal.toNat < 2 ^ 3
  have := bfinal.isLt
  omega

theorem blockFixed (bfinal : BitVec 1) : Statement (.blockFixed bfinal) := fun _ => by
  show bfinal.toNat + 2 < 2 ^ 3
  have := bfinal.isLt
  omega

theorem blockDynamic (bfinal : BitVec 1) : Statement (.blockDynamic bfinal) := fun _ => by
  show bfinal.toNat + 4 < 2 ^ 3
  have := bfinal.isLt
  omega

theorem blockReserved (bfinal : BitVec 1) : Statement (.blockReserved bfinal) := fun _ => by
  show bfinal.toNat + 6 < 2 ^ 3
  have := bfinal.isLt
  omega

theorem stored (len : BitVec 16) (nlen : BitVec 16) : Statement (.stored len nlen) := fun _ => by
  show len.toNat + nlen.toNat <<< 16 < 2 ^ 32
  have := len.isLt
  have := nlen.isLt
  simp only [Nat.shiftLeft_eq]
  omega

theorem storedByte (b : Byte) : Statement (.storedByte b) := fun _ => by
  show b.toNat < 2 ^ 8
  have := b.isLt
  omega

theorem dynhdr (hlit : BitVec 9) (hdist : BitVec 6) (hclen : BitVec 5) : Statement (.dynhdr hlit hdist hclen) := by
  intro h
  simp [Instr.wellFormed] at h
  show (hlit.toNat - 257) + (hdist.toNat - 1) <<< 5 + (hclen.toNat - 4) <<< 10 < 2 ^ 14
  simp only [Nat.shiftLeft_eq]
  omega

theorem cllen (length : BitVec 3) : Statement (.cllen length) := fun _ => by
  show length.toNat < 2 ^ 3
  have := length.isLt
  omega

theorem cl (v : BitVec 4) : Statement (.cl v) := fun _ => by
  show v.toNat < 2 ^ 5
  have := v.isLt
  omega

theorem cl16 : Statement (.cl16) := fun _ => by decide
theorem cl17 : Statement (.cl17) := fun _ => by decide
theorem cl18 : Statement (.cl18) := fun _ => by decide
theorem lit (b : Byte) : Statement (.lit b) := fun _ => by
  show b.toNat < 2 ^ 9
  have := b.isLt
  omega

theorem eob : Statement (.eob) := fun _ => by decide
theorem lsym257 : Statement (.lsym257) := fun _ => by decide
theorem lsym258 : Statement (.lsym258) := fun _ => by decide
theorem lsym259 : Statement (.lsym259) := fun _ => by decide
theorem lsym260 : Statement (.lsym260) := fun _ => by decide
theorem lsym261 : Statement (.lsym261) := fun _ => by decide
theorem lsym262 : Statement (.lsym262) := fun _ => by decide
theorem lsym263 : Statement (.lsym263) := fun _ => by decide
theorem lsym264 : Statement (.lsym264) := fun _ => by decide
theorem lsym265 : Statement (.lsym265) := fun _ => by decide
theorem lsym266 : Statement (.lsym266) := fun _ => by decide
theorem lsym267 : Statement (.lsym267) := fun _ => by decide
theorem lsym268 : Statement (.lsym268) := fun _ => by decide
theorem lsym269 : Statement (.lsym269) := fun _ => by decide
theorem lsym270 : Statement (.lsym270) := fun _ => by decide
theorem lsym271 : Statement (.lsym271) := fun _ => by decide
theorem lsym272 : Statement (.lsym272) := fun _ => by decide
theorem lsym273 : Statement (.lsym273) := fun _ => by decide
theorem lsym274 : Statement (.lsym274) := fun _ => by decide
theorem lsym275 : Statement (.lsym275) := fun _ => by decide
theorem lsym276 : Statement (.lsym276) := fun _ => by decide
theorem lsym277 : Statement (.lsym277) := fun _ => by decide
theorem lsym278 : Statement (.lsym278) := fun _ => by decide
theorem lsym279 : Statement (.lsym279) := fun _ => by decide
theorem lsym280 : Statement (.lsym280) := fun _ => by decide
theorem lsym281 : Statement (.lsym281) := fun _ => by decide
theorem lsym282 : Statement (.lsym282) := fun _ => by decide
theorem lsym283 : Statement (.lsym283) := fun _ => by decide
theorem lsym284 : Statement (.lsym284) := fun _ => by decide
theorem lsym285 : Statement (.lsym285) := fun _ => by decide
theorem lsym286 : Statement (.lsym286) := fun _ => by decide
theorem lsym287 : Statement (.lsym287) := fun _ => by decide
theorem dsym0 : Statement (.dsym0) := fun _ => by decide
theorem dsym1 : Statement (.dsym1) := fun _ => by decide
theorem dsym2 : Statement (.dsym2) := fun _ => by decide
theorem dsym3 : Statement (.dsym3) := fun _ => by decide
theorem dsym4 : Statement (.dsym4) := fun _ => by decide
theorem dsym5 : Statement (.dsym5) := fun _ => by decide
theorem dsym6 : Statement (.dsym6) := fun _ => by decide
theorem dsym7 : Statement (.dsym7) := fun _ => by decide
theorem dsym8 : Statement (.dsym8) := fun _ => by decide
theorem dsym9 : Statement (.dsym9) := fun _ => by decide
theorem dsym10 : Statement (.dsym10) := fun _ => by decide
theorem dsym11 : Statement (.dsym11) := fun _ => by decide
theorem dsym12 : Statement (.dsym12) := fun _ => by decide
theorem dsym13 : Statement (.dsym13) := fun _ => by decide
theorem dsym14 : Statement (.dsym14) := fun _ => by decide
theorem dsym15 : Statement (.dsym15) := fun _ => by decide
theorem dsym16 : Statement (.dsym16) := fun _ => by decide
theorem dsym17 : Statement (.dsym17) := fun _ => by decide
theorem dsym18 : Statement (.dsym18) := fun _ => by decide
theorem dsym19 : Statement (.dsym19) := fun _ => by decide
theorem dsym20 : Statement (.dsym20) := fun _ => by decide
theorem dsym21 : Statement (.dsym21) := fun _ => by decide
theorem dsym22 : Statement (.dsym22) := fun _ => by decide
theorem dsym23 : Statement (.dsym23) := fun _ => by decide
theorem dsym24 : Statement (.dsym24) := fun _ => by decide
theorem dsym25 : Statement (.dsym25) := fun _ => by decide
theorem dsym26 : Statement (.dsym26) := fun _ => by decide
theorem dsym27 : Statement (.dsym27) := fun _ => by decide
theorem dsym28 : Statement (.dsym28) := fun _ => by decide
theorem dsym29 : Statement (.dsym29) := fun _ => by decide
theorem dsym30 : Statement (.dsym30) := fun _ => by decide
theorem dsym31 : Statement (.dsym31) := fun _ => by decide
theorem start : Statement (.start) := fun _ => by decide

end Sys2Proof.Laws.EncodingFits
end

