-- ==== Sys2Proof/Laws/Step.lean ====
section
/-! SUPPORT. Everything a step of the block can do: the element it can take in each state, and the next
states it can lead to. -/

namespace Sys2Proof.Machine

/-! ## Taking an element -/

/-- What `fetch` can take in a state: the element and the reader after it. -/
inductive Fetches (s : State) : Instr → BitReader → Prop where
  | header {f t : Nat} {r1 r2 : BitReader} (hs : s.fsm = .hdr)
      (hf : getBits s.inMem s.inLen 1 s.br = .ok (f, r1))
      (ht : getBits s.inMem s.inLen 2 r1 = .ok (t, r2)) :
      Fetches s (if t = 0 then .blockStored (BitVec.ofNat 1 f) else if t = 1 then .blockFixed (BitVec.ofNat 1 f)
        else if t = 2 then .blockDynamic (BitVec.ofNat 1 f) else .blockReserved (BitVec.ofNat 1 f)) r2
  | storedHeader {len nlen : Nat} {r1 r2 : BitReader} (hs : s.fsm = .storedHdr)
      (hl : readU16le s.inMem s.inLen (dropAlign s.br) = .ok (len, r1))
      (hn : readU16le s.inMem s.inLen r1 = .ok (nlen, r2)) :
      Fetches s (.stored (BitVec.ofNat 16 len) (BitVec.ofNat 16 nlen)) r2
  | storedByte {b : Byte} {r : BitReader} (hs : s.fsm = .storedCopy)
      (hb : readByte s.inMem s.inLen s.br = .ok (b, r)) : Fetches s (.storedByte b) r
  | dynHeader {a b c : Nat} {r1 r2 r3 : BitReader} (hs : s.fsm = .dynHdr)
      (ha : getBits s.inMem s.inLen 5 s.br = .ok (a, r1)) (hb : getBits s.inMem s.inLen 5 r1 = .ok (b, r2))
      (hc : getBits s.inMem s.inLen 4 r2 = .ok (c, r3)) :
      Fetches s (.dynhdr (BitVec.ofNat 9 (a + 257)) (BitVec.ofNat 6 (b + 1)) (BitVec.ofNat 5 (c + 4))) r3
  | clLength {l : Nat} {r : BitReader} (hs : s.fsm = .dynClLen)
      (hl : getBits s.inMem s.inLen 3 s.br = .ok (l, r)) : Fetches s (.cllen (BitVec.ofNat 3 l)) r
  | cl {v : Nat} {r : BitReader} (hs : s.fsm = .dynLens) (hv : v < 16)
      (hd : decodeSym s.cl s.inMem s.inLen s.br = .ok (v, r)) : Fetches s (.cl (BitVec.ofNat 4 v)) r
  | cl16 {r : BitReader} (hs : s.fsm = .dynLens) (hd : decodeSym s.cl s.inMem s.inLen s.br = .ok (16, r)) :
      Fetches s .cl16 r
  | cl17 {r : BitReader} (hs : s.fsm = .dynLens) (hd : decodeSym s.cl s.inMem s.inLen s.br = .ok (17, r)) :
      Fetches s .cl17 r
  | cl18 {r : BitReader} (hs : s.fsm = .dynLens) (hd : decodeSym s.cl s.inMem s.inLen s.br = .ok (18, r)) :
      Fetches s .cl18 r
  | lit {v : Nat} {r : BitReader} (hs : s.fsm = .sym) (hv : v < 256)
      (hd : decodeSym s.llSel s.inMem s.inLen s.br = .ok (v, r)) : Fetches s (.lit (BitVec.ofNat 8 v)) r
  | eob {r : BitReader} (hs : s.fsm = .sym) (hd : decodeSym s.llSel s.inMem s.inLen s.br = .ok (256, r)) :
      Fetches s .eob r
  | lengthCode {c : Nat} {i : Instr} {r : BitReader} (hs : s.fsm = .sym) (hc : c ≤ 28)
      (hi : i.lengthCode? = some c) (hd : decodeSym s.llSel s.inMem s.inLen s.br = .ok (257 + c, r)) :
      Fetches s i r
  | lsym286 {r : BitReader} (hs : s.fsm = .sym) (hd : decodeSym s.llSel s.inMem s.inLen s.br = .ok (286, r)) :
      Fetches s .lsym286 r
  | lsym287 {r : BitReader} (hs : s.fsm = .sym) (hd : decodeSym s.llSel s.inMem s.inLen s.br = .ok (287, r)) :
      Fetches s .lsym287 r
  | distanceCode {c : Nat} {i : Instr} {r : BitReader} (hs : s.fsm = .dist) (hc : c < 32)
      (hi : i.distanceCode? = some c) (hd : decodeSym s.dtSel s.inMem s.inLen s.br = .ok (c, r)) :
      Fetches s i r

theorem element_ok {f : Format} {e : Stop} {w : Nat} {r r' : BitReader} {i : Instr} :
    element f e w r = .ok (i, r') ↔ decode f w = .ok i ∧ r' = r := by
  unfold element
  split <;> simp [*, eq_comm]

theorem element_error {f : Format} {e e' : Stop} {w : Nat} {r : BitReader} (h : element f e w r = .error e') :
    e' = e := by
  unfold element at h
  split at h
  · cases h
  · cases h; rfl

theorem readU16le_lt {mem : Memory} {len v : Nat} {r r' : BitReader} (h : readU16le mem len r = .ok (v, r')) :
    v < 2 ^ 16 := by
  obtain ⟨lo, hi, -, -, -, rfl, -⟩ := readU16le_ok h
  have := lo.isLt
  have := hi.isLt
  omega

/-- `fetch` takes only what `Fetches` lists. -/
theorem fetch_ok {s : State} {i : Instr} {r : BitReader} (h : fetch s = some (.ok (i, r))) : Fetches s i r := by
  unfold fetch at h
  split at h <;> try contradiction
  all_goals
    rename_i hs
    rw [Option.some.injEq] at h
  · unfold fetchHeader at h
    split at h
    · cases h
    · rename_i f r1 hf
      split at h
      · cases h
      · rename_i t r2 ht
        rw [element_ok, decode_header _ _ (getBits_ok hf).2.1 (getBits_ok ht).2.1] at h
        obtain ⟨h, rfl⟩ := h
        cases h
        exact .header hs hf ht
  · unfold fetchStoredHeader at h
    split at h
    · cases h
    · rename_i len r1 hl
      split at h
      · cases h
      · rename_i nlen r2 hn
        rw [element_ok, decode_stored (readU16le_lt hl) (readU16le_lt hn)] at h
        obtain ⟨h, rfl⟩ := h
        cases h
        exact .storedHeader hs hl hn
  · unfold fetchStoredByte at h
    split at h
    · cases h
    · rename_i b r1 hb
      rw [element_ok, decode_storedData] at h
      obtain ⟨h, rfl⟩ := h
      cases h
      exact .storedByte hs hb
  · unfold fetchDynHeader at h
    split at h
    · cases h
    · rename_i a r1 ha
      split at h
      · cases h
      · rename_i b r2 hb
        split at h
        · cases h
        · rename_i c r3 hc
          rw [element_ok, decode_dynamicHeader (getBits_ok ha).2.1 (getBits_ok hb).2.1 (getBits_ok hc).2.1] at h
          obtain ⟨h, rfl⟩ := h
          cases h
          exact .dynHeader hs ha hb hc
  · unfold fetchClLength at h
    split at h
    · cases h
    · rename_i l r1 hl
      rw [element_ok, decode_clLength (getBits_ok hl).2.1] at h
      obtain ⟨h, rfl⟩ := h
      cases h
      exact .clLength hs hl
  · unfold fetchClSymbol at h
    split at h
    · cases h
    · rename_i v r1 hd
      rw [element_ok] at h
      obtain ⟨h, rfl⟩ := h
      by_cases hv : v < 16
      · rw [decode_cl hv] at h
        cases h
        exact .cl hs hv hd
      · by_cases hv' : 19 ≤ v
        · obtain ⟨e, he⟩ := decode_clSymbol_error hv'
          rw [he] at h
          cases h
        · have : v = 16 ∨ v = 17 ∨ v = 18 := by omega
          rcases this with rfl | rfl | rfl
          · cases h; exact .cl16 hs hd
          · cases h; exact .cl17 hs hd
          · cases h; exact .cl18 hs hd
  · unfold fetchLitlen at h
    split at h
    · cases h
    · rename_i v r1 hd
      rw [element_ok] at h
      obtain ⟨h, rfl⟩ := h
      by_cases hv : v < 256
      · rw [decode_lit hv] at h
        cases h
        exact .lit hs hv hd
      · by_cases hv' : 288 ≤ v
        · obtain ⟨e, he⟩ := decode_litlen_error hv'
          rw [he] at h
          cases h
        · by_cases hv2 : 257 ≤ v ∧ v ≤ 285
          · obtain ⟨j, hj, hc⟩ := decode_lengthCode hv2.1 hv2.2
            rw [hj] at h
            cases h
            refine .lengthCode hs (c := v - 257) (by omega) hc ?_
            rw [show 257 + (v - 257) = v by omega]
            exact hd
          · have : v = 256 ∨ v = 286 ∨ v = 287 := by omega
            rcases this with rfl | rfl | rfl
            · rw [decode_eob] at h; cases h; exact .eob hs hd
            · rw [decode_lsym286] at h; cases h; exact .lsym286 hs hd
            · rw [decode_lsym287] at h; cases h; exact .lsym287 hs hd
  · unfold fetchDistance at h
    split at h
    · cases h
    · rename_i c r1 hd
      rw [element_ok] at h
      obtain ⟨h, rfl⟩ := h
      by_cases hc : c < 32
      · obtain ⟨j, hj, hc'⟩ := decode_distanceCode hc
        rw [hj] at h
        cases h
        exact .distanceCode hs hc hc' hd
      · rw [decode_tooWide (by show 2 ^ 5 ≤ c; omega)] at h
        cases h

/-- What `fetch` can stop with. -/
theorem fetch_error {s : State} {e : Stop} (h : fetch s = some (.error e)) :
    (∃ c, e = .raise c ∧ (c = .truncated ∨ c = .invalidCode ∨ c = .invalidLitlenCode ∨ c = .invalidDistanceCode)) ∨
      ∃ f, e = .fault f := by
  have hg : ∀ {mem : Memory} {len n : Nat} {r : BitReader} {e : Stop}, n ≤ 25 → getBits mem len n r = .error e →
      (∃ c, e = .raise c ∧ (c = .truncated ∨ c = .invalidCode ∨ c = .invalidLitlenCode ∨
        c = .invalidDistanceCode)) ∨ ∃ f, e = .fault f := fun hn h => by
    rcases getBits_error hn h with h | h
    · exact .inl ⟨_, h, .inl rfl⟩
    · exact .inr ⟨_, h⟩
  have hu : ∀ {mem : Memory} {len : Nat} {r : BitReader} {e : Stop}, readU16le mem len r = .error e →
      (∃ c, e = .raise c ∧ (c = .truncated ∨ c = .invalidCode ∨ c = .invalidLitlenCode ∨
        c = .invalidDistanceCode)) ∨ ∃ f, e = .fault f := fun h => by
    rcases readU16le_error h with h | h
    · exact .inl ⟨_, h, .inl rfl⟩
    · exact .inr ⟨_, h⟩
  have hd : ∀ {cw ow n : Nat} {t : HuffTable cw ow n} {mem : Memory} {len : Nat} {r : BitReader} {e : Stop},
      decodeSym t mem len r = .error e →
      (∃ c, e = .raise c ∧ (c = .truncated ∨ c = .invalidCode ∨ c = .invalidLitlenCode ∨
        c = .invalidDistanceCode)) ∨ ∃ f, e = .fault f := fun h => by
    rcases decodeLoop_error h with h | h | h | h
    · exact .inl ⟨_, h, .inr (.inl rfl)⟩
    · exact .inl ⟨_, h, .inl rfl⟩
    · exact .inr ⟨_, h⟩
    · exact .inr ⟨_, h⟩
  unfold fetch at h
  split at h <;> try contradiction
  all_goals rw [Option.some.injEq] at h
  · unfold fetchHeader at h
    split at h
    · rename_i hf; cases h; exact hg (by omega) hf
    · split at h
      · rename_i ht; cases h; exact hg (by omega) ht
      · rw [element_error h]; exact .inr ⟨_, rfl⟩
  · unfold fetchStoredHeader at h
    split at h
    · rename_i hl; cases h; exact hu hl
    · split at h
      · rename_i hn; cases h; exact hu hn
      · rw [element_error h]; exact .inr ⟨_, rfl⟩
  · unfold fetchStoredByte at h
    split at h
    · rename_i hb
      cases h
      rcases readByte_error hb with ⟨-, h⟩ | ⟨-, -, h⟩
      · exact .inl ⟨_, h, .inl rfl⟩
      · exact .inr ⟨_, h⟩
    · rw [element_error h]; exact .inr ⟨_, rfl⟩
  · unfold fetchDynHeader at h
    split at h
    · rename_i ha; cases h; exact hg (by omega) ha
    · split at h
      · rename_i hb; cases h; exact hg (by omega) hb
      · split at h
        · rename_i hc; cases h; exact hg (by omega) hc
        · rw [element_error h]; exact .inr ⟨_, rfl⟩
  · unfold fetchClLength at h
    split at h
    · rename_i hl; cases h; exact hg (by omega) hl
    · rw [element_error h]; exact .inr ⟨_, rfl⟩
  · unfold fetchClSymbol at h
    split at h
    · rename_i hv; cases h; exact hd hv
    · rw [element_error h]; exact .inr ⟨_, rfl⟩
  · unfold fetchLitlen at h
    split at h
    · rename_i hv; cases h; exact hd hv
    · rw [element_error h]; exact .inl ⟨_, rfl, .inr (.inr (.inl rfl))⟩
  · unfold fetchDistance at h
    split at h
    · rename_i hv; cases h; exact hd hv
    · rw [element_error h]; exact .inl ⟨_, rfl, .inr (.inr (.inr rfl))⟩

/-! ## A step of the block -/

theorem blockStep_of_fetch {s : State} {r : Result (Instr × BitReader)} (h : fetch s = some r) :
    blockStep s = runElement s r := by
  rw [blockStep, h]

/-- The next states a step of the block leads to where it raises nothing: one case for each rule, with the
rule's guards and the whole next state. -/
inductive Completes (s : State) : State → Prop where
  /-- R240: a waiting state takes no step. -/
  | waiting (hs : s.fsm.waiting = true) : Completes s s
  /-- R241, BTYPE 00. -/
  | stored {f : Nat} {r1 r2 : BitReader} (hs : s.fsm = .hdr)
      (hf : getBits s.inMem s.inLen 1 s.br = .ok (f, r1)) (ht : getBits s.inMem s.inLen 2 r1 = .ok (0, r2)) :
      Completes s { s with br := r2, bfinal := BitVec.ofNat 1 f, btype := 0, fsm := .storedHdr }
  /-- R241, BTYPE 01. -/
  | fixed {f : Nat} {r1 r2 : BitReader} (hs : s.fsm = .hdr)
      (hf : getBits s.inMem s.inLen 1 s.br = .ok (f, r1)) (ht : getBits s.inMem s.inLen 2 r1 = .ok (1, r2)) :
      Completes s { s with br := r2, bfinal := BitVec.ofNat 1 f, btype := 1, tsel := .fixed, fsm := .sym }
  /-- R241, BTYPE 10. -/
  | dynamic {f : Nat} {r1 r2 : BitReader} (hs : s.fsm = .hdr)
      (hf : getBits s.inMem s.inLen 1 s.br = .ok (f, r1)) (ht : getBits s.inMem s.inLen 2 r1 = .ok (2, r2)) :
      Completes s { s with br := r2, bfinal := BitVec.ofNat 1 f, btype := 2, fsm := .dynHdr }
  /-- R243. -/
  | storedHeader {len nlen : Nat} {r1 r2 : BitReader} (hs : s.fsm = .storedHdr)
      (hl : readU16le s.inMem s.inLen (dropAlign s.br) = .ok (len, r1))
      (hn : readU16le s.inMem s.inLen r1 = .ok (nlen, r2)) (hc : len + nlen = 0xFFFF) :
      Completes s { s with
        br := r2, stRem := BitVec.ofNat 16 len, fsm := if len = 0 then .blockEnd else .storedCopy }
  /-- R244. -/
  | storedByte {b : Byte} {r : BitReader} (hs : s.fsm = .storedCopy) (h0 : s.stRem ≠ 0)
      (hb : readByte s.inMem s.inLen s.br = .ok (b, r)) (ho : s.outLen ≠ s.params.outCap) :
      Completes s { s with
        br := r, outMem := s.outMem.write s.outLen b, outLen := s.outLen + 1, stRem := s.stRem - 1,
        fsm := if s.stRem - 1 = 0 then .blockEnd else .storedCopy }
  /-- R245. -/
  | dynHeader {a b c : Nat} {r1 r2 r3 : BitReader} (hs : s.fsm = .dynHdr)
      (ha : getBits s.inMem s.inLen 5 s.br = .ok (a, r1)) (hb : getBits s.inMem s.inLen 5 r1 = .ok (b, r2))
      (hc : getBits s.inMem s.inLen 4 r2 = .ok (c, r3)) :
      Completes s { s with
        br := r3, hlit := BitVec.ofNat 9 (a + 257), hdist := BitVec.ofNat 6 (b + 1),
        hclen := BitVec.ofNat 5 (c + 4), clLens := Vector.replicate 19 0, clIdx := 0, fsm := .dynClLen }
  /-- R246. -/
  | clLength {l v : Nat} {r : BitReader} (hs : s.fsm = .dynClLen)
      (hl : getBits s.inMem s.inLen 3 s.br = .ok (l, r)) (hv : perm[s.clIdx.toNat]? = some v) :
      Completes s { s with
        br := r, clLens := s.clLens.setIfInBounds v (BitVec.ofNat 3 l), clIdx := s.clIdx + 1,
        fsm := if s.clIdx + 1 = s.hclen then .dynClBuild else .dynClLen }
  /-- R247. -/
  | clBuild (hs : s.fsm = .dynClBuild) : Completes s (dynClBuildStep s)
  /-- R248 to R253: `n` copies of `v`, which the element and its extra bits give. -/
  | lens {v : BitVec 4} {n : Nat} {r : BitReader} (hs : s.fsm = .dynLens)
      (hv : ∃ sym r1, decodeSym s.cl s.inMem s.inLen s.br = .ok (sym, r1) ∧
        (sym < 16 ∧ r = r1 ∧ v = BitVec.ofNat 4 sym ∧ n = 1 ∨
          sym = 16 ∧ s.lk ≠ 0 ∧ s.lens[s.lk.toNat - 1]? = some v ∧ s.lk.toNat + n ≤ s.totalLens ∧
            (∃ x, getBits s.inMem s.inLen 2 r1 = .ok (x, r) ∧ n = x + 3) ∨
          sym = 17 ∧ v = 0 ∧ s.lk.toNat + n ≤ s.totalLens ∧
            (∃ x, getBits s.inMem s.inLen 3 r1 = .ok (x, r) ∧ n = x + 3) ∨
          sym = 18 ∧ v = 0 ∧ s.lk.toNat + n ≤ s.totalLens ∧
            (∃ x, getBits s.inMem s.inLen 7 r1 = .ok (x, r) ∧ n = x + 11)))
      (hb : s.lk.toNat + n ≤ 320) :
      Completes s { s with
        br := r, lens := fillLens s.lens s.lk.toNat v n, lk := BitVec.ofNat 9 (s.lk.toNat + n),
        fsm := if s.lk.toNat + n = s.totalLens then .dynBuild else .dynLens }
  /-- R255. -/
  | build (hs : s.fsm = .dynBuild) (hl : s.hlit.toNat ≤ 288) (hd : s.hdist.toNat ≤ 32) :
      Completes s { s with
        ll := s.ll.build s.litlenLengths, dt := s.dt.build s.distLengths, tsel := .dyn, fsm := .sym }
  /-- R291. -/
  | lit {v : Nat} {r : BitReader} (hs : s.fsm = .sym) (hv : v < 256)
      (hd : decodeSym s.llSel s.inMem s.inLen s.br = .ok (v, r)) (ho : s.outLen ≠ s.params.outCap) :
      Completes s { s with
        br := r, outMem := s.outMem.write s.outLen (BitVec.ofNat 8 v), outLen := s.outLen + 1 }
  /-- R292. -/
  | eob {r : BitReader} (hs : s.fsm = .sym) (hd : decodeSym s.llSel s.inMem s.inLen s.br = .ok (256, r)) :
      Completes s { s with br := r, fsm := .blockEnd }
  /-- R293. -/
  | length {c x : Nat} {r1 r2 : BitReader} (hs : s.fsm = .sym) (hc : c ≤ 28)
      (hd : decodeSym s.llSel s.inMem s.inLen s.br = .ok (257 + c, r1))
      (hx : getBits s.inMem s.inLen (lenExtra c) r1 = .ok (x, r2)) :
      Completes s { s with br := r2, mLen := BitVec.ofNat 9 (lenOf c x), fsm := .dist }
  /-- R295. -/
  | distance {c x : Nat} {r1 r2 : BitReader} (hs : s.fsm = .dist) (hc : c < 30)
      (hd : decodeSym s.dtSel s.inMem s.inLen s.br = .ok (c, r1))
      (hx : getBits s.inMem s.inLen (distExtra c) r1 = .ok (x, r2)) (ho : distOf c x ≤ s.outLen) :
      Completes s { s with
        br := r2, mDist := BitVec.ofNat 16 (distOf c x), mRem := s.mLen, fsm := .copy }
  /-- R297. -/
  | copy {b : Byte} (hs : s.fsm = .copy) (h0 : s.mRem ≠ 0) (hd : s.mDist.toNat ≤ s.outLen)
      (ho : s.outLen ≠ s.params.outCap) (hb : s.outMem.read? (s.outLen - s.mDist.toNat) = some b) :
      Completes s { s with
        outMem := s.outMem.write s.outLen b, outLen := s.outLen + 1, mRem := s.mRem - 1,
        fsm := if s.mRem - 1 = 0 then .sym else .copy }
  /-- R256. -/
  | blockEnd (hs : s.fsm = .blockEnd) :
      Completes s { s with fsm := if s.bfinal = 1 then .done else .hdr }

/-- The state after error entry (R332) from `s`, with an error that a step of the block can raise. -/
def Raises (s t : State) : Prop :=
  ∃ e, e ≠ .none ∧ e ≠ .bitRequestTooWide ∧ t = s.raiseError e

theorem raises_of_stop {s t : State} {e : Stop} (h : stop s e = .next t)
    (he : ∀ c, e = .raise c → c ≠ .none ∧ c ≠ .bitRequestTooWide) : Raises s t := by
  cases e with
  | raise c => cases h; exact ⟨c, (he c rfl).1, (he c rfl).2, rfl⟩
  | fault f => cases h

/-- A meaning that ends with `finish` and never completes in ERROR, run by a step from `s`. -/
theorem step_of_finish {s s' t : State} {r : Result State} (h : commit s (finish s' r) = .next t)
    (hr : ∀ u, r = .ok u → u.fsm ≠ .error)
    (he : ∀ c, r = .error (.raise c) → c ≠ .none ∧ c ≠ .bitRequestTooWide) : r = .ok t ∨ Raises s t := by
  rw [commit_finish hr, finish_next] at h
  rcases h with h | ⟨c, h, rfl⟩
  · exact .inl h
  · exact .inr ⟨c, (he c h).1, (he c h).2, rfl⟩

/-- The errors of GET_BITS for a request of at most 25 bits. -/
theorem getBits_raise {mem : Memory} {len n : Nat} {r : BitReader} {c : ErrCode} (hn : n ≤ 25)
    (h : getBits mem len n r = .error (.raise c)) : c ≠ .none ∧ c ≠ .bitRequestTooWide := by
  rcases getBits_error hn h with h | h <;> cases h
  exact ⟨by decide, by decide⟩

theorem fitLens_raise {v : BitVec 4} {n : Nat} {s : State} {c : ErrCode}
    (h : fitLens v n s = .error (.raise c)) : c ≠ .none ∧ c ≠ .bitRequestTooWide := by
  rcases fitLens_error h with ⟨-, h⟩ | ⟨-, -, h⟩ <;> cases h
  exact ⟨by decide, by decide⟩

/-- Everything a step of the block that goes on can do: it completes a rule, or it raises an error. -/
theorem blockStep_next {s t : State} (h : blockStep s = .next t) : Completes s t ∨ Raises s t := by
  cases hf : fetch s with
  | none =>
    rw [blockStep, hf] at h
    simp only [internalStep] at h
    unfold fetch at hf
    split at hf <;> first | (cases hf; done) | rename_i hs
    all_goals simp only [hs] at h
    · cases h; exact .inl (.waiting (by rw [hs]; rfl))
    · cases h; exact .inl (.clBuild hs)
    · rw [finish_next] at h
      unfold dynBuildStep at h
      split at h
      · rcases h with h | ⟨e, h, -⟩ <;> cases h
      · rename_i hb
        simp only [Config.llAlphaMax, Config.distAlphaMax, not_or, not_lt] at hb
        rcases h with h | ⟨e, h, -⟩
        · cases h; exact .inl (.build hs hb.1 hb.2)
        · cases h
    · rw [finish_next] at h
      rcases h with h | ⟨e, h, rfl⟩
      · obtain ⟨h0, hd, ho, b, -, hb, rfl⟩ := copyStep_ok.1 h
        refine .inl ?_
        have := Completes.copy hs h0 hd ho hb
        rw [← hs] at this
        exact this
      · obtain ⟨rfl, -⟩ := copyStep_raise h
        exact .inr ⟨_, by decide, by decide, rfl⟩
    · cases h
      refine .inl ?_
      have := Completes.blockEnd hs
      unfold blockEndStep State.goto
      split <;> simp_all
    · cases h; exact .inl (.waiting (by rw [hs]; rfl))
    · cases h; exact .inl (.waiting (by rw [hs]; rfl))
    · cases h
  | some r =>
    rw [blockStep_of_fetch hf] at h
    cases r with
    | error e =>
      refine .inr (raises_of_stop h fun c hc => ?_)
      rcases fetch_error hf with ⟨c', h1, h2⟩ | ⟨f, h1⟩
      · rw [h1] at hc
        cases hc
        rcases h2 with rfl | rfl | rfl | rfl <;> exact ⟨by decide, by decide⟩
      · rw [h1] at hc; cases hc
    | ok p =>
      obtain ⟨i, r⟩ := p
      simp only [runElement] at h
      cases fetch_ok hf with
      | header hs hb ht =>
        rename_i f t' r1
        have ht' := (getBits_ok ht).2.1
        have : t' = 0 ∨ t' = 1 ∨ t' = 2 ∨ t' = 3 := by omega
        rcases this with rfl | rfl | rfl | rfl
        · cases h; exact .inl (.stored hs hb ht)
        · cases h; exact .inl (.fixed hs hb ht)
        · cases h; exact .inl (.dynamic hs hb ht)
        · cases h; exact .inr ⟨.unknownBlockType, by decide, by decide, rfl⟩
      | storedHeader hs hl hn =>
        rename_i len nlen r1
        have h1 := readU16le_lt hl
        have h2 := readU16le_lt hn
        have hiff : BitVec.ofNat 16 len = complement16 (BitVec.ofNat 16 nlen) ↔ len + nlen = 0xFFFF := by
          unfold complement16
          rw [← BitVec.toNat_inj, BitVec.toNat_not, BitVec.toNat_ofNat, BitVec.toNat_ofNat,
            Nat.mod_eq_of_lt h1, Nat.mod_eq_of_lt h2]
          omega
        simp only [exec, execStored] at h
        split at h
        · cases h; exact .inr ⟨.storedLenMismatch, by decide, by decide, rfl⟩
        · rename_i hne
          have hz : BitVec.ofNat 16 len = 0 ↔ len = 0 := by
            rw [← BitVec.toNat_inj, BitVec.toNat_ofNat, Nat.mod_eq_of_lt h1]
            simp
          rw [finish_ok, commit_next (by simp only [State.goto_fsm]; split <;> decide)] at h
          have := Completes.storedHeader hs hl hn (hiff.1 (not_not.1 hne))
          cases h
          refine .inl ?_
          simp only [hz]
          exact this
      | storedByte hs hb =>
        rename_i b
        simp only [exec, execStoredByte] at h
        rcases step_of_finish h (fun u hu => by
            split at hu
            · cases hu
            · split at hu
              · rename_i ho
                cases hu
                rw [(outAppend_ok.1 ho).2]
                simp only [State.countStored_fsm, State.pushByte_fsm, State.setBr_fsm, hs]
                split <;> decide
              · cases hu) (fun c hc => by
            split at hc
            · cases hc
            · split at hc
              · cases hc
              · rename_i he
                cases hc
                cases (outAppend_error.1 he).2
                exact ⟨by decide, by decide⟩) with h | h
        · split at h
          · cases h
          · rename_i h0
            split at h
            · rename_i ho
              cases h
              obtain ⟨hcap, rfl⟩ := outAppend_ok.1 ho
              have := Completes.storedByte hs h0 hb hcap
              rw [← hs] at this
              exact .inl this
            · cases h
        · exact .inr h
      | dynHeader hs ha hb hc => cases h; exact .inl (.dynHeader hs ha hb hc)
      | clLength hs hl =>
        rename_i l
        simp only [exec, execCllen] at h
        split at h
        · rename_i v hv
          rw [finish_ok, commit_next (by simp only [State.setBr_fsm, hs]; split <;> decide)] at h
          have := Completes.clLength hs hl hv
          rw [← hs] at this
          cases h
          exact .inl this
        · cases h
      | cl hs hv hd =>
        simp only [exec, execCl] at h
        rcases step_of_finish h (fun u hu => by
            obtain ⟨-, rfl⟩ := putLens_ok.1 hu
            simp only [State.setBr_fsm, hs]
            split <;> decide) (fun c hc => by cases (putLens_error hc).2) with h | h
        · obtain ⟨h1, rfl⟩ := putLens_ok.1 h
          have := Completes.lens hs ⟨_, _, hd, .inl ⟨hv, rfl, rfl, rfl⟩⟩ h1
          rw [← hs] at this
          exact .inl this
        · exact .inr h
      | cl16 hs hd =>
        simp only [exec, execCl16] at h
        rcases step_of_finish h (fun u hu => by
            obtain ⟨-, x, r, v, -, -, hf⟩ := repeatPrev_ok.1 hu
            obtain ⟨-, rfl⟩ := putLens_ok.1 (fitLens_ok.1 hf).2
            simp only [State.setBr_fsm, hs]
            split <;> decide) (fun c hc => by
            rcases repeatPrev_error hc with ⟨-, h⟩ | h | ⟨-, h⟩ | ⟨x, r, v, -, h⟩
            · cases h; exact ⟨by decide, by decide⟩
            · exact getBits_raise (by omega) h
            · cases h
            · exact fitLens_raise h) with h | h
        · obtain ⟨h0, x, r2, v, hx, hv, hf⟩ := repeatPrev_ok.1 h
          obtain ⟨h1, hf⟩ := fitLens_ok.1 hf
          obtain ⟨h2, rfl⟩ := putLens_ok.1 hf
          have := Completes.lens (v := v) (n := x + 3) (r := r2) hs
            ⟨_, _, hd, .inr (.inl ⟨rfl, h0, hv, h1, x, hx, rfl⟩)⟩ h2
          rw [← hs] at this
          exact .inl this
        · exact .inr h
      | cl17 hs hd =>
        simp only [exec, execCl17] at h
        rcases step_of_finish h (fun u hu => by
            obtain ⟨x, r, -, hf⟩ := zeroLens_ok.1 hu
            obtain ⟨-, rfl⟩ := putLens_ok.1 (fitLens_ok.1 hf).2
            simp only [State.setBr_fsm, hs]
            split <;> decide) (fun c hc => by
            rcases zeroLens_error hc with h | ⟨x, r, -, h⟩
            · exact getBits_raise (by omega) h
            · exact fitLens_raise h) with h | h
        · obtain ⟨x, r2, hx, hf⟩ := zeroLens_ok.1 h
          obtain ⟨h1, hf⟩ := fitLens_ok.1 hf
          obtain ⟨h2, rfl⟩ := putLens_ok.1 hf
          have := Completes.lens (v := 0) (n := x + 3) (r := r2) hs
            ⟨_, _, hd, .inr (.inr (.inl ⟨rfl, rfl, h1, x, hx, rfl⟩))⟩ h2
          rw [← hs] at this
          exact .inl this
        · exact .inr h
      | cl18 hs hd =>
        simp only [exec, execCl18] at h
        rcases step_of_finish h (fun u hu => by
            obtain ⟨x, r, -, hf⟩ := zeroLens_ok.1 hu
            obtain ⟨-, rfl⟩ := putLens_ok.1 (fitLens_ok.1 hf).2
            simp only [State.setBr_fsm, hs]
            split <;> decide) (fun c hc => by
            rcases zeroLens_error hc with h | ⟨x, r, -, h⟩
            · exact getBits_raise (by omega) h
            · exact fitLens_raise h) with h | h
        · obtain ⟨x, r2, hx, hf⟩ := zeroLens_ok.1 h
          obtain ⟨h1, hf⟩ := fitLens_ok.1 hf
          obtain ⟨h2, rfl⟩ := putLens_ok.1 hf
          have := Completes.lens (v := 0) (n := x + 11) (r := r2) hs
            ⟨_, _, hd, .inr (.inr (.inr ⟨rfl, rfl, h1, x, hx, rfl⟩))⟩ h2
          rw [← hs] at this
          exact .inl this
        · exact .inr h
      | lit hs hv hd =>
        simp only [exec, execLit] at h
        rcases step_of_finish h (fun u hu => by
            obtain ⟨-, rfl⟩ := outAppend_ok.1 hu
            simp only [State.pushByte_fsm, State.setBr_fsm, hs]
            decide) (fun c hc => by
            cases (outAppend_error.1 hc).2
            exact ⟨by decide, by decide⟩) with h | h
        · obtain ⟨ho, rfl⟩ := outAppend_ok.1 h
          exact .inl (.lit hs hv hd ho)
        · exact .inr h
      | eob hs hd => cases h; exact .inl (.eob hs hd)
      | lengthCode hs hc hi hd =>
        rw [exec_lengthCode hi] at h
        rcases step_of_finish h (fun u hu => by
            obtain ⟨x, r, -, rfl⟩ := lengthSymbol_ok.1 hu
            exact (by decide : Fsm.dist ≠ .error)) (fun c hx => by
            have := lenExtra_le _ hc
            exact getBits_raise (by omega) (lengthSymbol_error.1 hx)) with h | h
        · obtain ⟨x, r2, hx, rfl⟩ := lengthSymbol_ok.1 h
          exact .inl (.length hs hc hd hx)
        · exact .inr h
      | lsym286 hs hd => cases h; exact .inr ⟨.invalidLitlenCode, by decide, by decide, rfl⟩
      | lsym287 hs hd => cases h; exact .inr ⟨.invalidLitlenCode, by decide, by decide, rfl⟩
      | distanceCode hs hc hi hd =>
        rw [exec_distanceCode hi] at h
        rcases step_of_finish h (fun u hu => by
            obtain ⟨-, x, r, -, -, rfl⟩ := distanceSymbol_ok.1 hu
            exact (by decide : Fsm.copy ≠ .error)) (fun c hx => by
            rcases distanceSymbol_error hx with ⟨-, h⟩ | ⟨hc', h⟩ | ⟨-, h, -⟩
            · cases h; exact ⟨by decide, by decide⟩
            · have := distExtra_le _ hc'
              exact getBits_raise (by omega) h
            · cases h; exact ⟨by decide, by decide⟩) with h | h
        · obtain ⟨hc', x, r2, hx, ho, rfl⟩ := distanceSymbol_ok.1 h
          exact .inl (.distance hs hc' hd hx ho)
        · exact .inr h

/-- A meaning run by a step from `s` that leaves ERR_CODE at OUTPUT_OVERFLOW raised it. -/
theorem overflow_of_finish {s s' t : State} {r : Result State} (h : commit s (finish s' r) = .next t)
    (h0 : s.errCode ≠ .outputOverflow) (ht : t.errCode = .outputOverflow)
    (hr : ∀ u, r = .ok u → u.fsm ≠ .error ∧ u.errCode = s.errCode) :
    r = .error (.raise .outputOverflow) := by
  rw [commit_finish fun u hu => (hr u hu).1, finish_next] at h
  rcases h with h | ⟨c, h, rfl⟩
  · exact absurd ((hr t h).2.symm.trans ht) h0
  · rw [h, ← show c = .outputOverflow from ht]

/-- When a step of the block raises OUTPUT_OVERFLOW: the output is full, and the step is a COPY, or had
taken a data byte, or had decoded a literal. -/
theorem blockStep_overflow {s t : State} (h : blockStep s = .next t) (h0 : s.errCode ≠ .outputOverflow)
    (ht : t.errCode = .outputOverflow) : s.outLen = s.params.outCap ∧
      (s.fsm = .copy ∨
        (s.fsm = .storedCopy ∧ ∃ b r, readByte s.inMem s.inLen s.br = .ok (b, r)) ∨
        (s.fsm = .sym ∧ ∃ v r, v < 256 ∧ decodeSym s.llSel s.inMem s.inLen s.br = .ok (v, r))) := by
  cases hf : fetch s with
  | none =>
    rw [blockStep, hf] at h
    simp only [internalStep] at h
    unfold fetch at hf
    split at hf <;> first | (cases hf; done) | rename_i hs
    all_goals simp only [hs] at h
    · cases h; exact absurd ht h0
    · cases h; exact absurd ht h0
    · rw [finish_next] at h
      unfold dynBuildStep at h
      split at h
      · rcases h with h | ⟨e, h, -⟩ <;> cases h
      · rcases h with h | ⟨e, h, -⟩
        · cases h; exact absurd ht h0
        · cases h
    · rw [finish_next] at h
      rcases h with h | ⟨e, h, rfl⟩
      · obtain ⟨-, -, -, b, -, -, rfl⟩ := copyStep_ok.1 h
        exact absurd ht h0
      · exact ⟨(copyStep_raise h).2, .inl hs⟩
    · cases h
      unfold blockEndStep State.goto at ht
      split at ht <;> exact absurd ht h0
    · cases h; exact absurd ht h0
    · cases h; exact absurd ht h0
    · cases h
  | some r =>
    rw [blockStep_of_fetch hf] at h
    cases r with
    | error e =>
      exfalso
      rcases fetch_error hf with ⟨c, rfl, hc⟩ | ⟨f, rfl⟩
      · cases h
        have ht : c = .outputOverflow := ht
        subst ht
        simp at hc
      · cases h
    | ok p =>
      obtain ⟨i, r⟩ := p
      simp only [runElement] at h
      cases fetch_ok hf with
      | header hs hb htt =>
        exfalso
        rename_i f t' r1
        have ht' := (getBits_ok htt).2.1
        have : t' = 0 ∨ t' = 1 ∨ t' = 2 ∨ t' = 3 := by omega
        rcases this with rfl | rfl | rfl | rfl
        · cases h; exact absurd ht h0
        · cases h; exact absurd ht h0
        · cases h; exact absurd ht h0
        · cases h; cases ht
      | storedHeader hs hl hn =>
        exfalso
        simp only [exec, execStored] at h
        split at h
        · cases h; cases ht
        · rw [finish_ok, commit_next (by simp only [State.goto_fsm]; split <;> decide)] at h
          cases h; exact absurd ht h0
      | storedByte hs hb =>
        simp only [exec, execStoredByte] at h
        have := overflow_of_finish h h0 ht fun u hu => by
          split at hu
          · cases hu
          · split at hu
            · rename_i ho
              cases hu
              rw [(outAppend_ok.1 ho).2]
              refine ⟨?_, rfl⟩
              simp only [State.countStored_fsm, State.pushByte_fsm, State.setBr_fsm, hs]
              split <;> decide
            · cases hu
        split at this
        · cases this
        · split at this
          · cases this
          · rename_i he
            exact ⟨(outAppend_error.1 he).1, .inr (.inl ⟨hs, _, _, hb⟩)⟩
      | dynHeader hs ha hb hc => cases h; exact absurd ht h0
      | clLength hs hl =>
        exfalso
        simp only [exec, execCllen] at h
        split at h
        · rw [finish_ok, commit_next (by simp only [State.setBr_fsm, hs]; split <;> decide)] at h
          cases h; exact absurd ht h0
        · cases h
      | cl hs hv hd =>
        exfalso
        simp only [exec, execCl] at h
        have := overflow_of_finish h h0 ht fun u hu => by
          obtain ⟨-, rfl⟩ := putLens_ok.1 hu
          refine ⟨?_, rfl⟩
          simp only [State.setBr_fsm, hs]
          split <;> decide
        cases (putLens_error this).2
      | cl16 hs hd =>
        exfalso
        simp only [exec, execCl16] at h
        have := overflow_of_finish h h0 ht fun u hu => by
          obtain ⟨-, x, r, v, -, -, hf⟩ := repeatPrev_ok.1 hu
          obtain ⟨-, rfl⟩ := putLens_ok.1 (fitLens_ok.1 hf).2
          refine ⟨?_, rfl⟩
          simp only [State.setBr_fsm, hs]
          split <;> decide
        rcases repeatPrev_error this with ⟨-, h⟩ | h | ⟨-, h⟩ | ⟨x, r, v, -, h⟩
        · cases h
        · rcases getBits_error (by omega) h with h | h <;> cases h
        · cases h
        · rcases fitLens_error h with ⟨-, h⟩ | ⟨-, -, h⟩ <;> cases h
      | cl17 hs hd =>
        exfalso
        simp only [exec, execCl17] at h
        have := overflow_of_finish h h0 ht fun u hu => by
          obtain ⟨x, r, -, hf⟩ := zeroLens_ok.1 hu
          obtain ⟨-, rfl⟩ := putLens_ok.1 (fitLens_ok.1 hf).2
          refine ⟨?_, rfl⟩
          simp only [State.setBr_fsm, hs]
          split <;> decide
        rcases zeroLens_error this with h | ⟨x, r, -, h⟩
        · rcases getBits_error (by omega) h with h | h <;> cases h
        · rcases fitLens_error h with ⟨-, h⟩ | ⟨-, -, h⟩ <;> cases h
      | cl18 hs hd =>
        exfalso
        simp only [exec, execCl18] at h
        have := overflow_of_finish h h0 ht fun u hu => by
          obtain ⟨x, r, -, hf⟩ := zeroLens_ok.1 hu
          obtain ⟨-, rfl⟩ := putLens_ok.1 (fitLens_ok.1 hf).2
          refine ⟨?_, rfl⟩
          simp only [State.setBr_fsm, hs]
          split <;> decide
        rcases zeroLens_error this with h | ⟨x, r, -, h⟩
        · rcases getBits_error (by omega) h with h | h <;> cases h
        · rcases fitLens_error h with ⟨-, h⟩ | ⟨-, -, h⟩ <;> cases h
      | lit hs hv hd =>
        simp only [exec, execLit] at h
        have := overflow_of_finish h h0 ht fun u hu => by
          obtain ⟨-, rfl⟩ := outAppend_ok.1 hu
          refine ⟨?_, rfl⟩
          simp only [State.pushByte_fsm, State.setBr_fsm, hs]
          decide
        exact ⟨(outAppend_error.1 this).1, .inr (.inr ⟨hs, _, _, hv, hd⟩)⟩
      | eob hs hd => cases h; exact absurd ht h0
      | lengthCode hs hc hi hd =>
        exfalso
        rw [exec_lengthCode hi] at h
        have := overflow_of_finish h h0 ht fun u hu => by
          obtain ⟨x, r, -, rfl⟩ := lengthSymbol_ok.1 hu
          exact ⟨(by decide : Fsm.dist ≠ .error), rfl⟩
        have hle := lenExtra_le _ hc
        rcases getBits_error (by omega) (lengthSymbol_error.1 this) with h | h <;> cases h
      | lsym286 hs hd => cases h; cases ht
      | lsym287 hs hd => cases h; cases ht
      | distanceCode hs hc hi hd =>
        exfalso
        rw [exec_distanceCode hi] at h
        have := overflow_of_finish h h0 ht fun u hu => by
          obtain ⟨-, x, r, -, -, rfl⟩ := distanceSymbol_ok.1 hu
          exact ⟨(by decide : Fsm.copy ≠ .error), rfl⟩
        rcases distanceSymbol_error this with ⟨-, h⟩ | ⟨hc', h⟩ | ⟨-, h, -⟩
        · cases h
        · have hle := distExtra_le _ hc'
          rcases getBits_error (by omega) h with h | h <;> cases h
        · cases h

/-! ## The step of the machine -/

theorem step_silent {s : State} (h : s.host = []) : step s = blockStep s := by
  rw [step, h]

theorem step_host {s : State} {a : HostAct} {rest : List HostAct} (h : s.host = a :: rest) :
    step s = hostStep a (s.setHost rest) := by
  rw [step, h]

/-- Everything the host's register write can do. -/
theorem hostWrite_next {offset : Nat} {v : Word} {s t : State} (h : hostWrite offset v s = .next t) :
    t = s ∨ s.fsm.waiting = true ∧ t = s.runInit ∨ t = s.writeInLen v := by
  unfold hostWrite at h
  split at h
  · rcases Nat.mod_two_eq_zero_or_one v.toNat with hv | hv
    · obtain ⟨e, he⟩ := decode_ctrl_error hv
      rw [he] at h
      cases h
      exact .inl rfl
    · rw [decode_start hv v.isLt] at h
      simp only [exec, execStart] at h
      split at h
      · cases h; exact .inr (.inl ⟨by assumption, rfl⟩)
      · cases h; exact .inl rfl
  · split at h
    · cases h; exact .inr (.inr rfl)
    · split at h
      · cases h; exact .inl rfl
      · cases h

/-! ## Runs -/

theorem run_succ_eq (M : Host.Core) (k : Nat) (s : M.State) :
    M.run (k + 1) s = match M.step s with
      | .next s' => M.run k s'
      | .fault r => .fault r
      | .refused r => .refused r := by
  rw [Host.Core.run] <;> rfl

theorem core_run_zero (s : State) : core.run 0 s = .next s := rfl

/-- A run goes on from the next state. -/
theorem core_run_succ {s t : State} (k : Nat) (h : step s = .next t) : core.run (k + 1) s = core.run k t := by
  refine (run_succ_eq core k s).trans ?_
  have : core.step s = .next t := h
  rw [this]

/-- A run that ends in a next state took a first step. -/
theorem core_run_next {s t : State} {k : Nat} (h : core.run (k + 1) s = .next t) :
    ∃ u, step s = .next u ∧ core.run k u = .next t := by
  have h' := (run_succ_eq core k s).symm.trans h
  split at h'
  · rename_i u hu
    exact ⟨u, hu, h'⟩
  · cases h'
  · cases h'

/-- The last step of a run. -/
theorem core_run_last {s t : State} {k : Nat} (h : core.run (k + 1) s = .next t) :
    ∃ u, core.run k s = .next u ∧ step u = .next t := by
  induction k generalizing s with
  | zero =>
    obtain ⟨u, h1, h2⟩ := core_run_next h
    cases h2
    exact ⟨s, rfl, h1⟩
  | succ k ih =>
    obtain ⟨u, h1, h2⟩ := core_run_next h
    obtain ⟨v, h3, h4⟩ := ih h2
    exact ⟨v, (core_run_succ k h1).trans h3, h4⟩

end Sys2Proof.Machine
end

