-- ==== Sys2Proof/Tests/Slice0.lean ====
section
/-! SUPPORT. The model's own tests: ill-formed terms refused, words written out from the spec's encodings,
single steps with the results of 95_test_vectors.md, and for every statement with hypotheses a witness
that meets them. -/

namespace Sys2Proof.Tests

open Sys2Proof.Machine

/-- The state with `bytes` loaded at address 0, `INLEN` their number, `STATE` = `f`. -/
def ready (bytes : List Byte) (f : Fsm) : State :=
  { State.reset with fsm := f, inLen := bytes.length, inMem := Memory.writeBytes [] 0 bytes }

/-- The outcome is a next state with the property. -/
def after (o : Host.Outcome State Fault Refusal) (p : State → Bool) : Bool :=
  match o with
  | .next t => p t
  | .fault _ => false
  | .refused _ => false

/-- A bit reader as the vectors write it: (pos, cnt, buf). -/
def rd (pos cnt buf : Nat) : BitReader := { pos := pos, cnt := BitVec.ofNat 3 cnt, buf := BitVec.ofNat 7 buf }

/-! ## WellFormed: each check of R114 refuses a term -/

theorem test_wf_hlit_low : (Instr.dynhdr 256 1 4).wellFormed = false := by decide
theorem test_wf_hlit_high : (Instr.dynhdr 289 1 4).wellFormed = false := by decide
theorem test_wf_hdist_low : (Instr.dynhdr 257 0 4).wellFormed = false := by decide
theorem test_wf_hdist_high : (Instr.dynhdr 257 33 4).wellFormed = false := by decide
theorem test_wf_hclen_low : (Instr.dynhdr 257 1 3).wellFormed = false := by decide
theorem test_wf_hclen_high : (Instr.dynhdr 257 1 20).wellFormed = false := by decide

/-! ## Decode: words written out from 30_encoding.md, one or more of every family -/

/-- R111: BFINAL in bit 0, BTYPE in bits 2:1. -/
theorem test_decode_headers :
    decode .blockHeader 0b001 = .ok (.blockStored 1) ∧ decode .blockHeader 0b010 = .ok (.blockFixed 0) ∧
    decode .blockHeader 0b101 = .ok (.blockDynamic 1) ∧ decode .blockHeader 0b110 = .ok (.blockReserved 0) := by
  decide

/-- R112, vector L1-1: LEN = 0x0005 in bits 15:0, NLEN = 0xFFFA in bits 31:16. -/
theorem test_decode_stored :
    decode .storedHeader 0b11111111111110100000000000000101 = .ok (.stored 5 0xFFFA) := by decide
theorem test_decode_stored_byte : decode .storedData 0b01101000 = .ok (.storedByte 0x68) := by decide

/-- R114, vector F9: hlit 257 (0 in bits 4:0), hdist 1 (0 in bits 9:5), hclen 18 (14 in bits 13:10); then
each field alone. -/
theorem test_decode_dynhdr :
    decode .dynamicHeader 0b11100000000000 = .ok (.dynhdr 257 1 18) ∧
    decode .dynamicHeader 0b00000000000001 = .ok (.dynhdr 258 1 4) ∧
    decode .dynamicHeader 0b00000000100000 = .ok (.dynhdr 257 2 4) ∧
    decode .dynamicHeader 0b11111111111111 = .ok (.dynhdr 288 32 19) := by decide
theorem test_decode_cllen : decode .clLength 0b100 = .ok (.cllen 4) := by decide

/-- R116: 0 to 15 a length, 16, 17 and 18 the repeats; above 18 nothing. -/
theorem test_decode_cl :
    decode .clSymbol 0b01111 = .ok (.cl 15) ∧ decode .clSymbol 0b10000 = .ok .cl16 ∧
    decode .clSymbol 0b10001 = .ok .cl17 ∧ decode .clSymbol 0b10010 = .ok .cl18 ∧
    decode .clSymbol 0b10011 = .error .clSymbolAbove18 := by decide

/-- R118: 0 to 255 a literal, 256 the end, 257 to 285 a length, 286 and 287 invalid. -/
theorem test_decode_litlen :
    decode .litlenSymbol 0b011111111 = .ok (.lit 0xFF) ∧ decode .litlenSymbol 0b100000000 = .ok .eob ∧
    decode .litlenSymbol 0b100000001 = .ok .lsym257 ∧ decode .litlenSymbol 0b100011101 = .ok .lsym285 ∧
    decode .litlenSymbol 0b100011110 = .ok .lsym286 ∧ decode .litlenSymbol 0b100011111 = .ok .lsym287 ∧
    decode .litlenSymbol 0b100100000 = .error .litlenSymbolAbove287 := by decide

/-- R121. -/
theorem test_decode_distance :
    decode .distanceSymbol 0b00000 = .ok .dsym0 ∧ decode .distanceSymbol 0b11101 = .ok .dsym29 ∧
    decode .distanceSymbol 0b11110 = .ok .dsym30 ∧ decode .distanceSymbol 0b11111 = .ok .dsym31 := by decide

/-- R44: bit 0 of a CTRL write; the bits above it are ignored. -/
theorem test_decode_start :
    decode .hostCtrlWrite 0x00000001 = .ok .start ∧ decode .hostCtrlWrite 0xFFFFFFFF = .ok .start ∧
    decode .hostCtrlWrite 0xFFFFFFFE = .error .startBitClear := by decide

/-- A word of each format that the model tells apart by the word alone (log 6). -/
theorem test_table_words :
    decodeTableWord 8 6 = some (.blockReserved 0) ∧ decodeTableWord 32 0xFFFF0000 = some (.stored 0 0xFFFF) ∧
    decodeTableWord 8 0x68 = some (.storedByte 0x68) ∧ decodeTableWord 16 0x3FFF = some (.dynhdr 288 32 19) ∧
    decodeTableWord 8 0x12 = some .cl18 ∧ decodeTableWord 16 0x11C = some .lsym284 ∧
    decodeTableWord 8 0x1D = some .dsym29 ∧ decodeTableWord 8 1 = some .start := by decide

/-! ## The bit reader: vectors BR1 to BR9 of 95_test_vectors.md -/

/-- BR1, BR5d: `F3 C8 04 00`. -/
theorem test_getBits_wide :
    getBits (Memory.writeBytes [] 0 [0xF3, 0xC8, 0x04, 0x00]) 4 25 (rd 0 0 0) = .ok (0x04C8F3, rd 4 7 0) ∧
    getBits (Memory.writeBytes [] 0 [0xF3, 0xC8, 0x04, 0x00]) 4 15 (rd 0 0 0) = .ok (0x48F3, rd 2 1 1) := by
  decide

/-- BR2, BR3c, BR4: nothing, too much, too wide. -/
theorem test_getBits_edges :
    getBits [] 0 0 (rd 0 0 0) = .ok (0, rd 0 0 0) ∧
    getBits [(0, 0xFF)] 1 9 (rd 1 5 0x1F) = .error (.raise .truncated) ∧
    getBits [(0, 0xFF)] 1 26 (rd 0 0 0) = .error (.raise .bitRequestTooWide) := by decide

/-- BR8c, BR9b: leftover bits and whole bytes in one call. -/
theorem test_getBits_leftover :
    getBits (Memory.writeBytes [] 0 [0xAB, 0xCD, 0xEF]) 3 13 (rd 1 0 0) = .ok (0x0FCD, rd 3 3 7) ∧
    getBits (Memory.writeBytes [] 0 [0xF3, 0xC8, 0x04, 0x00]) 4 25 (rd 1 7 0x79) = .ok (0x026479, rd 4 6 0) := by
  decide

/-- BR6d, BR7b. -/
theorem test_readU16_getBit :
    readU16le (Memory.writeBytes [] 0 [0x01, 0x05, 0x00, 0xFA, 0xFF]) 5 (rd 3 0 0) = .ok (0xFFFA, rd 5 0 0) ∧
    getBit [(0, 0x80)] 1 (rd 1 1 1) = .ok (1, rd 1 0 0) := by decide

/-! ## The Huffman decoder: vectors H1, H2, H8 -/

/-- The table of H1. -/
def h1 : HuffTable 5 5 8 := (HuffTable.zero 5 5 8).build [3, 3, 3, 3, 3, 2, 4, 4]

/-- H1: COUNT, ORDER, and byte `07` decodes to symbol 6 with 4 bits. -/
theorem test_h1 :
    (h1.countOf 2 = 1 ∧ h1.countOf 3 = 5 ∧ h1.countOf 4 = 2 ∧ h1.countOf 0 = 0) ∧
    h1.order.toList.map BitVec.toNat = [5, 0, 1, 2, 3, 4, 6, 7] ∧
    decodeSym h1 [(0, 0x07)] 1 (rd 0 0 0) = .ok (6, rd 1 4 0) := by decide

/-- H2: an unassigned codeword reads 15 bits, and TRUNCATED wins inside it. -/
theorem test_h2 :
    decodeSym ((HuffTable.zero 5 5 2).build [0, 1]) [(0, 0x01), (1, 0x00)] 2 (rd 0 0 0) =
      .error (.raise .invalidCode) ∧
    decodeSym ((HuffTable.zero 5 5 2).build [0, 1]) [(0, 0x01)] 1 (rd 0 0 0) =
      .error (.raise .truncated) := by decide

/-! ## Single steps with the results of 95_test_vectors.md -/

/-- L1-2: `F3` is a final fixed header; F2: `07` is the reserved type. -/
theorem test_step_header :
    (after (step (ready [0xF3, 0xC8, 0x04, 0x00] .hdr)) fun t =>
      t.fsm == .sym && t.bfinal == 1 && t.btype == 1 && t.tsel == .fixed && t.br == rd 1 5 0x1E) = true ∧
    (after (step (ready [0x07] .hdr)) fun t =>
      t.fsm == .error && t.errCode == .unknownBlockType && t.br == rd 0 0 0) = true := by decide

/-- L1-1 and F4: the stored header with a right and a wrong NLEN. -/
theorem test_step_stored :
    (after (step { ready [0x01, 0x05, 0x00, 0xFA, 0xFF] .storedHdr with br := rd 1 5 0 }) fun t =>
      t.fsm == .storedCopy && t.stRem == 5 && t.br == rd 5 0 0) = true ∧
    (after (step { ready [0x01, 0x05, 0x00, 0xFA, 0xFE] .storedHdr with br := rd 1 5 0 }) fun t =>
      t.fsm == .error && t.errCode == .storedLenMismatch && t.br == rd 1 5 0) = true := by decide

/-- P1, step 4: the last of the data bytes. -/
theorem test_step_stored_byte :
    (after (step { ready [0x42] .storedCopy with stRem := 1, outLen := 1, outMem := [(0, 0x41)] }) fun t =>
      t.fsm == .blockEnd && t.stRem == 0 && t.outLen == 2 && t.outMem == [(0, 0x41), (1, 0x42)]) = true := by
  decide

/-- F9: hlit 257, hdist 1, hclen 18 behind the 3 header bits of `05 C0`, 14 bits of them. -/
theorem test_step_dynhdr :
    (after (step { ready [0x05, 0xC0, 0x37] .dynHdr with br := rd 1 5 0 }) fun t =>
      t.fsm == .dynClLen && t.hlit == 257 && t.hdist == 1 && t.hclen == 18 && t.clIdx == 0) = true := by
  decide

/-- R246's example: CL_IDX = 2 and the bits 0, 1, 0 set CL_LENS[18] = 2. -/
theorem test_step_cllen :
    (after (step { ready [0x02] .dynClLen with clIdx := 2, hclen := 18 }) fun t =>
      t.fsm == .dynClLen && t.clIdx == 3 && t.clLens[18]? == some 2 && t.clLens[2]? == some 0) = true := by
  decide

/-- H8: the code-length table of program P3. -/
theorem test_step_clbuild :
    (after (step { ready [] .dynClBuild with
        clLens := #v[3, 3, 0, 2, 0, 0, 0, 0, 0, 0, 0, 0, 0, 0, 0, 0, 3, 3, 2], lk := 7 }) fun t =>
      t.fsm == .dynLens && t.lk == 0 && t.cl.countOf 0 == 13 && t.cl.countOf 2 == 2 && t.cl.countOf 3 == 4 &&
        (t.cl.order.toList.map BitVec.toNat).take 6 == [3, 18, 0, 1, 16, 17]) = true := by decide

/-- A code-length table in which all 19 symbols have 5 bits: the codeword is the symbol. -/
def flatCl : CLTable := (HuffTable.zero 5 5 Config.clAlpha).build (List.replicate 19 5)

/-- F10: `CL 1` at LK = 256, then `CL16 3` from 257 to 260, which ends the sequence (R249, R250, R254).
The codewords are those of `flatCl`: 00001, then 10000 and the extra bits 0. -/
theorem test_step_cl :
    (after (step { ready [0x10] .dynLens with cl := flatCl, hlit := 257, hdist := 3, lk := 256 }) fun t =>
      t.fsm == .dynLens && t.lk == 257 && t.lens[256]? == some 1) = true ∧
    (after (step { ready [0x01] .dynLens with
        cl := flatCl, hlit := 257, hdist := 3, lk := 257, lens := fillLens State.reset.lens 256 1 1 }) fun t =>
      t.fsm == .dynBuild && t.lk == 260 && t.lens[257]? == some 1 && t.lens[259]? == some 1 &&
        t.lens[260]? == some 0) = true := by decide +kernel

/-- R251: symbol 17 with extra bits 7 writes 10 zeros. L1-4: `CL18 138` takes LK from 103 to 241. -/
theorem test_step_cl_zeros :
    (after (step { ready [0xF1] .dynLens with
        cl := flatCl, hlit := 257, hdist := 1, lk := 5, lens := fillLens State.reset.lens 0 9 20 }) fun t =>
      t.lk == 15 && t.lens[4]? == some 9 && t.lens[5]? == some 0 && t.lens[14]? == some 0 &&
        t.lens[15]? == some 9) = true ∧
    (after (step { ready [0xE9, 0x0F] .dynLens with cl := flatCl, hlit := 257, hdist := 1, lk := 103 }) fun t =>
      t.fsm == .dynLens && t.lk == 241) = true := by decide +kernel

/-- F8: symbol 16 first raises NO_PREVIOUS_LENGTH though its extra bits are missing. F9: a repeat past the
target writes nothing. -/
theorem test_step_cl_errors :
    (after (exec .cl16 { ready [] .dynLens with hlit := 257, hdist := 1 }) fun t =>
      t.errCode == .noPreviousLength) = true ∧
    (after (exec .cl18 { ready [0x7F] .dynLens with hlit := 257, hdist := 1, lk := 138 }) fun t =>
      t.errCode == .invalidDynamicTree && t.fsm == .error && t.lk == 138) = true := by decide

/-- L1-2: the fixed codeword 01111000 is the literal 'H'; F7: 0000000 ends the block. -/
theorem test_step_literal :
    (after (step { ready [0xF3, 0xC8, 0x04, 0x00] .sym with br := rd 1 5 0x1E }) fun t =>
      t.fsm == .sym && t.outLen == 1 && t.outMem == [(0, 0x48)] && t.br == rd 2 5 0x19) = true ∧
    (after (step (ready [0x00] .sym)) fun t => t.fsm == .blockEnd && t.br == rd 1 1 0) = true := by
  decide

/-- Z4: symbol 265 with extra bit 1 is length 12; Z1: symbol 286 raises. -/
theorem test_step_length :
    (after (exec .lsym265 (ready [0x01] .sym)) fun t => t.fsm == .dist && t.mLen == 12) = true ∧
    (after (step { ready [0x1B, 0x03] .sym with br := rd 1 5 3 }) fun t =>
      t.errCode == .invalidLitlenCode && t.br == rd 1 5 3) = true := by decide

/-- Z5: distance code 4 with extra bit 1 is distance 6 = OUT_LEN; L1-5: distance 2 past one byte; Z2:
code 30. -/
theorem test_step_distance :
    (after (exec .dsym4 { ready [0x01] .dist with outLen := 6, mLen := 3 }) fun t =>
      t.fsm == .copy && t.mDist == 6 && t.mRem == 3) = true ∧
    (after (exec .dsym1 { ready [] .dist with outLen := 1, mLen := 3 }) fun t =>
      t.errCode == .distanceTooFar) = true ∧
    (after (step { ready [0x0F] .dist with outLen := 1, mLen := 3 }) fun t =>
      t.errCode == .invalidDistanceCode && t.br == rd 0 0 0) = true := by decide

/-- Z11, Z12: the vectors' lengths and distances. -/
theorem test_length_distance_values :
    lenOf 15 3 = 34 ∧ lenOf 27 30 = 257 ∧ lenOf 27 31 = 258 ∧ lenOf 28 0 = 258 ∧ lenOf 11 1 = 18 ∧
    distOf 13 63 = 128 ∧ distOf 28 0 = 16385 ∧ distOf 29 8191 = 32768 ∧ distOf 6 3 = 12 := by decide

/-- L1-3: one COPY step at distance 1 repeats the last byte. -/
theorem test_step_copy :
    (after (step { ready [] .copy with mDist := 1, mRem := 6, outLen := 1, outMem := [(0, 0x41)] }) fun t =>
      t.fsm == .copy && t.mRem == 5 && t.outLen == 2 && t.outMem == [(0, 0x41), (1, 0x41)]) = true := by
  decide

/-- R256, after P1's last block and after its first. -/
theorem test_step_block_end :
    (after (step { ready [] .blockEnd with bfinal := 1 }) fun t => t.fsm == .done) = true ∧
    (after (step { ready [] .blockEnd with bfinal := 0 }) fun t => t.fsm == .hdr) = true := by decide

/-- S2, S4, S5, S7: START in DONE and in SYM, INLEN while BUSY, CTRL with bit 0 = 0. -/
theorem test_host_writes :
    (after (step { ready [0xF3] .done with host := [.write 0 1], outLen := 2, errCode := .none }) fun t =>
      t.fsm == .hdr && t.outLen == 0 && t.inLen == 1) = true ∧
    (after (step { ready [0xF3] .sym with host := [.write 0 1] }) fun t => t.fsm == .sym) = true ∧
    (after (step { ready [0xF3] .sym with host := [.write 0x0C 2] }) fun t => t.inLen == 1) = true ∧
    (after (step { ready [0xF3] .idle with host := [.write 0 2] }) fun t => t.fsm == .idle) = true := by
  decide

/-- S1 after L1-5, and S6. -/
theorem test_host_reads_reset :
    hostRead { ready [0x73, 0x04, 0x42, 0x00] .error with
      errCode := .distanceTooFar, outLen := 1, br := rd 3 6 0x10 } 0x08 = some 9 ∧
    hostRead (ready [] .sym) 0x04 = some 1 ∧ hostRead (ready [] .sym) 0x00 = some 0 ∧
    (after (step { ready [0xF3] .sym with host := [.reset], outLen := 1 }) fun t =>
      t.fsm == .idle && t.outLen == 0 && t.inLen == 0 && t.busy == false) = true := by decide

/-- Words placed for the next step run as their instruction, from reset (log 5, log 6). -/
theorem test_placed_words :
    (after (step (State.reset.withFetchWord 16 0x11C)) fun t => t.fsm == .dist && t.mLen == 227) = true ∧
    (after (step (State.reset.withFetchWord 8 0x12)) fun t => t.fsm == .dynLens && t.lk == 11) = true ∧
    (after (step (State.reset.withFetchWord 8 1)) fun t => t.fsm == .hdr) = true ∧
    (after (step (State.reset.withFetchWord 32 0xFFFF0000)) fun t => t.fsm == .blockEnd) = true := by
  decide

/-! ## Witnesses: the hypotheses of each statement, met together, clause by clause -/

theorem witness_EncodeThenDecodeGivesInstr :
    (Instr.dynhdr 257 1 4).wellFormed = true ∧ (Instr.dynhdr 288 32 19).wellFormed = true := by decide

theorem witness_DecodedInstrEncodesBack :
    Format.dynamicHeader ≠ .hostCtrlWrite ∧ decode .dynamicHeader 0x3FFF = .ok (.dynhdr 288 32 19) := by decide

theorem witness_ValuesHaveOneRowOrARejection :
    (19 ≤ 31 ∧ 31 < 32) ∧ (288 ≤ 511 ∧ 511 < 512) ∧ (0xFFFFFFFE % 2 = 0 ∧ 0xFFFFFFFE < 2 ^ 32) ∧
    2 ^ Format.blockHeader.bits ≤ 8 := by decide

theorem witness_StepRunsFetchedInstr :
    ((ready [0xF3] .hdr).host = [] ∧ fetch (ready [0xF3] .hdr) = some (.ok (.blockFixed 1, rd 1 5 0x1E))) ∧
    { ready [] .hdr with host := [.pass] }.host = .pass :: [] := by decide

theorem witness_FsmSelectsTheFormat :
    fetch (ready [0xFF] .dist) = some (.ok (.dsym31, rd 1 3 7)) := by decide

theorem witness_FailingStepCommitsOnlyError : (ready [] .hdr).host = [] ∧ (ready [] .hdr).fsm ≠ .error ∧
    ∃ t, step (ready [] .hdr) = .next t ∧ t.fsm = .error := ⟨rfl, by decide, _, rfl, rfl⟩

theorem witness_FsmFollowsTransitionTable :
    ((ready [0x00] .hdr).host = [] ∧ ∃ t, step (ready [0x00] .hdr) = .next t) ∧
    (State.reset.host = [] ∧ State.reset.fsm.waiting = true) ∧
    ({ ready [] .done with host := [.write 0 1] }.host = .write 0x00 1 :: [] ∧ (1 : Word).toNat % 2 = 1 ∧
      { ready [] .done with host := [.write 0 1] }.fsm.waiting = true) :=
  ⟨⟨rfl, _, rfl⟩, ⟨rfl, rfl⟩, rfl, by decide, rfl⟩

theorem witness_RegistersKeepTheirWriters :
    (∃ t, blockStep (ready [0x00] .hdr) = .next t ∧ t.fsm ≠ .error) ∧
    (∃ t, blockStep (ready [0x00] .dynHdr) = .next t) := ⟨⟨_, rfl, by decide⟩, _, rfl⟩

theorem witness_OutputIsAppendOnly : ∃ t, blockStep { ready [0x41] .storedCopy with stRem := 2 } = .next t :=
  ⟨_, rfl⟩

theorem witness_WideRequestIsRefused :
    25 < 26 ∧ State.reset.errCode ≠ .bitRequestTooWide ∧ ∃ t, blockStep (ready [0x00] .hdr) = .next t :=
  ⟨by decide, by decide, _, rfl⟩

/-- BR5b. -/
theorem witness_GetBitsReadsTheStream :
    BitReader.Agrees (Memory.writeBytes [] 0 [0xF3, 0xC8]) (rd 1 5 0x1E) ∧
    getBits (Memory.writeBytes [] 0 [0xF3, 0xC8]) 2 5 (rd 1 5 0x1E) = .ok (0x1E, rd 1 0 0) := by
  unfold BitReader.Agrees
  decide

theorem witness_GetBitsSucceedsIffBitsRemain :
    25 ≤ 25 ∧ (∀ a, a < 1 → (Memory.read? [(0, 0xFF)] a).isSome = true) ∧
    8 ≤ (rd 0 0 0).bitsAhead 1 ∧ (rd 0 0 0).bitsAhead 1 < 9 := by decide

theorem witness_GetBitsPullsLazily : getBits [(0, 0xFF)] 1 3 (rd 0 0 0) = .ok (7, rd 1 5 0x1F) := by
  decide

theorem witness_ChunkedReadsAreAssociative :
    [20, 20] ≠ [] ∧ [10, 25, 5] ≠ [] ∧ (∀ n, n ∈ [20, 20] → n ≤ 25) ∧ (∀ m, m ∈ [10, 25, 5] → m ≤ 25) ∧
    [20, 20].sum = [10, 25, 5].sum := by decide

theorem witness_ReadByteIsGetBitsEight :
    1 ≤ (rd 1 0 0).pos ∧ ((rd 0 0 0).pos < 1 ∧ Memory.read? [(0, 0xFF)] (rd 0 0 0).pos = some 0xFF) ∧
    ((rd 0 0 0).Clean ∧ (rd 0 0 0).cnt = 0) := by
  unfold BitReader.Clean
  decide

theorem witness_AlignedReads :
    ((rd 3 0 0).Clean ∧ (rd 3 0 0).cnt = 0) ∧
    ((rd 0 5 0).pos + 1 < 2 ∧ Memory.read? [(0, 0xFA), (1, 0xFF)] 0 = some 0xFA ∧
      Memory.read? [(0, 0xFA), (1, 0xFF)] 1 = some 0xFF) ∧
    ((∀ a, a < 1 → (Memory.read? [(0, 0xFF)] a).isSome = true) ∧ 1 ≤ (rd 0 0 0).pos + 1) := by
  unfold BitReader.Clean
  decide

theorem witness_FixedTablesAreBuilt :
    15 < 16 ∧ 23 < 24 ∧ 143 < 144 ∧ 7 < 8 ∧ 111 < 112 ∧ 31 < 32 ∧ 287 < 288 := by decide

/-- H1's lengths. -/
theorem witness_BuildSortsSymbols :
    [3, 3, 3, 3, 3, 2, 4, 4].length ≤ 8 ∧ 8 < 2 ^ 5 ∧ 8 ≤ 2 ^ 5 ∧ (∀ l, l ∈ [3, 3, 3, 3, 3, 2, 4, 4] → l ≤ 15) ∧
    15 ≤ 15 ∧ (symbolsInOrder [3, 3, 3, 3, 3, 2, 4, 4]).length ≤ 8 := by decide

theorem witness_BuildKeepsIndicesInBounds :
    [3, 3, 3, 3, 3, 2, 4, 4].length ≤ 8 ∧ 8 < 2 ^ 5 ∧ 7 < h1.assigned ∧ h1.order[7]? = some 7 := by decide

theorem witness_DecodeOutcomes :
    h1.InBounds ∧ ∀ a, a < 1 → (Memory.read? [(0, 0x07)] a).isSome = true := by
  unfold HuffTable.InBounds
  decide

/-- H1: symbol 6 has the codeword 1110. -/
theorem witness_CanonicalCodewordsDecode :
    KraftAtMostOne [3, 3, 3, 3, 3, 2, 4, 4] ∧ 6 < [3, 3, 3, 3, 3, 2, 4, 4].length ∧
    [3, 3, 3, 3, 3, 2, 4, 4].getD 6 0 ≠ 0 ∧ (∀ l, l ∈ [3, 3, 3, 3, 3, 2, 4, 4] → l ≤ 15) ∧
    TakesBits [(0, 0x07)] 1 (codeBits 4 (codeword [3, 3, 3, 3, 3, 2, 4, 4] 6)) (rd 0 0 0) (rd 1 4 0) :=
  ⟨by unfold KraftAtMostOne; decide, by decide, by decide, by decide,
    ⟨rd 1 7 3, by decide, rd 1 6 1, by decide +kernel, rd 1 5 0, by decide +kernel,
      rd 1 4 0, by decide, rfl⟩⟩

theorem witness_HeaderStepDispatches :
    (∀ t : Nat, t < 4 → getBits [(0, BitVec.ofNat 8 (2 * t + 1))] 1 1 (rd 0 0 0) = .ok (1, rd 1 7 t) ∧
      getBits [(0, BitVec.ofNat 8 (2 * t + 1))] 1 2 (rd 1 7 t) = .ok (t, rd 1 5 0)) ∧
    getBits [] 0 1 (rd 0 0 0) = .error (.raise .truncated) ∧
    (getBits [(0, 0x00)] 1 1 (rd 1 1 0) = .ok (0, rd 1 0 0) ∧
      getBits [(0, 0x00)] 1 2 (rd 1 0 0) = .error (.raise .truncated)) ∧
    ((ready [0x01] .hdr).host = [] ∧ (ready [0x01] .hdr).fsm = .hdr) := by decide

/-- F3 (LEN = 0), F4 (a wrong NLEN), no LEN, and F5 (no NLEN). -/
theorem witness_StoredHeaderStep :
    (readU16le (Memory.writeBytes [] 0 [0x00, 0x00, 0xFF, 0xFF]) 4 (rd 0 0 0) = .ok (0, rd 2 0 0) ∧
      readU16le (Memory.writeBytes [] 0 [0x00, 0x00, 0xFF, 0xFF]) 4 (rd 2 0 0) = .ok (0xFFFF, rd 4 0 0) ∧
      0 = 0xFFFF - 0xFFFF) ∧
    (readU16le (Memory.writeBytes [] 0 [0x05, 0x00, 0xFA, 0xFE]) 4 (rd 0 0 0) = .ok (5, rd 2 0 0) ∧
      readU16le (Memory.writeBytes [] 0 [0x05, 0x00, 0xFA, 0xFE]) 4 (rd 2 0 0) = .ok (0xFEFA, rd 4 0 0) ∧
      5 ≠ 0xFFFF - 0xFEFA) ∧
    readU16le [(0, 0x05)] 1 (rd 0 0 0) = .error (.raise .truncated) ∧
    (readU16le (Memory.writeBytes [] 0 [0x05, 0x00, 0xFA]) 3 (rd 0 0 0) = .ok (5, rd 2 0 0) ∧
      readU16le (Memory.writeBytes [] 0 [0x05, 0x00, 0xFA]) 3 (rd 2 0 0) = .error (.raise .truncated)) ∧
    ((ready [0x01] .storedHdr).host = [] ∧ (ready [0x01] .storedHdr).fsm = .storedHdr) := by decide

/-- A state of STORED_COPY with `n` bytes left to copy, the given input and an OUT_CAP of `cap`. -/
def copying (n : BitVec 16) (bytes : List Byte) (cap : Nat) : State :=
  { ready bytes .storedCopy with stRem := n, params := { addrW := 17, outCap := cap } }

theorem witness_StoredCopyStep :
    (∀ s ∈ [copying 1 [0x41] 1, copying 1 [] 1, copying 0xFFFF [0x41] 0],
      s.host = [] ∧ s.fsm = .storedCopy ∧ 1 ≤ s.stRem.toNat) ∧
    ((copying 1 [0x41] 1).br.pos < (copying 1 [0x41] 1).inLen ∧ Memory.read? (copying 1 [0x41] 1).inMem 0 = some 0x41 ∧
      (copying 1 [0x41] 1).outLen ≠ (copying 1 [0x41] 1).params.outCap) ∧
    (copying 1 [] 1).inLen ≤ (copying 1 [] 1).br.pos ∧
    ((copying 0xFFFF [0x41] 0).br.pos < (copying 0xFFFF [0x41] 0).inLen ∧
      (copying 0xFFFF [0x41] 0).outLen = (copying 0xFFFF [0x41] 0).params.outCap) := by decide

theorem witness_StoredElementsComplete :
    ((0 : BitVec 16).toNat + (0xFFFF : BitVec 16).toNat = 0xFFFF) ∧
    ((5 : BitVec 16).toNat + (0xFFFA : BitVec 16).toNat = 0xFFFF) ∧
    ((5 : BitVec 16).toNat + (0xFEFA : BitVec 16).toNat ≠ 0xFFFF) ∧
    (1 ≤ (copying 1 [] 1).stRem.toNat ∧ (copying 1 [] 1).outLen ≠ (copying 1 [] 1).params.outCap) ∧
    (1 ≤ (copying 0xFFFF [] 0).stRem.toNat ∧ (copying 0xFFFF [] 0).outLen = (copying 0xFFFF [] 0).params.outCap) := by
  decide

theorem witness_AppendingElementsStoreOneByte :
    (∃ t, exec (.lit 0x41) (ready [] .sym) = .next t ∧ t.fsm ≠ .error) ∧
    (∃ t, exec (.storedByte 0x41) (copying 1 [] 1) = .next t ∧ t.fsm ≠ .error) :=
  ⟨⟨_, rfl, by decide⟩, _, rfl, by decide⟩

theorem witness_DynHeaderStep :
    (getBits (Memory.writeBytes [] 0 [0xFF, 0xFF]) 2 5 (rd 0 0 0) = .ok (31, rd 1 3 7) ∧
      getBits (Memory.writeBytes [] 0 [0xFF, 0xFF]) 2 5 (rd 1 3 7) = .ok (31, rd 2 6 0x3F) ∧
      getBits (Memory.writeBytes [] 0 [0xFF, 0xFF]) 2 4 (rd 2 6 0x3F) = .ok (15, rd 2 2 3)) ∧
    getBits [] 0 5 (rd 0 0 0) = .error (.raise .truncated) ∧
    (getBits [(0, 0xFF)] 1 5 (rd 0 0 0) = .ok (31, rd 1 3 7) ∧
      getBits [(0, 0xFF)] 1 5 (rd 1 3 7) = .error (.raise .truncated)) ∧
    (getBits [(0, 0xFF)] 1 5 (rd 0 5 0) = .ok (0, rd 0 0 0) ∧ getBits [(0, 0xFF)] 1 5 (rd 0 0 0) = .ok (31, rd 1 3 7) ∧
      getBits [(0, 0xFF)] 1 4 (rd 1 3 7) = .error (.raise .truncated)) ∧
    ((ready [0xFF] .dynHdr).host = [] ∧ (ready [0xFF] .dynHdr).fsm = .dynHdr) := by decide

/-- CL_IDX at both ends of its range. -/
theorem witness_ClLenStep :
    (∀ s ∈ [{ ready [0x07] .dynClLen with clIdx := 0, hclen := 4 }, { ready [0x07] .dynClLen with clIdx := 18, hclen := 19 }],
      s.host = [] ∧ s.fsm = .dynClLen ∧ s.clIdx.toNat < s.hclen.toNat ∧ s.hclen.toNat ≤ 19 ∧
      getBits s.inMem s.inLen 3 s.br = .ok (7, rd 1 5 0)) ∧
    getBits [] 0 3 (rd 0 2 0) = .error (.raise .truncated) := by decide

theorem witness_DynHeaderElementsComplete :
    State.reset.clIdx.toNat < 19 ∧ { State.reset with clIdx := 18 }.clIdx.toNat < 19 := by decide

theorem witness_BuildAndBlockEndSteps :
    ((ready [] .dynClBuild).host = [] ∧ (ready [] .dynClBuild).fsm = .dynClBuild) ∧
    ({ ready [] .dynBuild with hlit := 288, hdist := 32 }.host = [] ∧
      { ready [] .dynBuild with hlit := 288, hdist := 32 }.fsm = .dynBuild ∧
      { ready [] .dynBuild with hlit := 288, hdist := 32 }.hlit.toNat ≤ 288 ∧
      { ready [] .dynBuild with hlit := 288, hdist := 32 }.hdist.toNat ≤ 32) ∧
    ((ready [] .blockEnd).host = [] ∧ (ready [] .blockEnd).fsm = .blockEnd) := by decide

/-- A state of DYN_LENS with the target 258, `k` lengths read and one byte of input. -/
def lengths (k : BitVec 9) : State := { ready [0xFF] .dynLens with hlit := 257, hdist := 1, lk := k }

theorem inputLoaded_of_decide {s : State} (h : ∀ a, a < s.inLen → (s.inMem.read? a).isSome = true) :
    InputLoaded s := h

/-- A length and the longest repeats, each ending exactly at the target; and F10's `CL16 3` at LK = 257 of
260 and P3's `CL17 3` at LK = 257 of 264, which fit though the longest repeat would not. -/
theorem witness_ClSymbolsComplete :
    (∀ k ∈ [(252 : BitVec 9), 248, 120, 257], (lengths k).totalLens ≤ 320 ∧ (lengths k).lk ≠ 0) ∧
    (lengths 257).lk.toNat + (0 + 1) = (lengths 257).totalLens ∧
    (getBits (lengths 252).inMem 1 2 (lengths 252).br = .ok (3, rd 1 6 0x3F) ∧ 252 + (3 + 3) = (lengths 252).totalLens) ∧
    (getBits (lengths 248).inMem 1 3 (lengths 248).br = .ok (7, rd 1 5 0x1F) ∧ 248 + (7 + 3) = (lengths 248).totalLens) ∧
    (getBits (lengths 120).inMem 1 7 (lengths 120).br = .ok (127, rd 1 1 1) ∧
      120 + (127 + 11) = (lengths 120).totalLens) ∧
    (getBits [(0, 0x00)] 1 2 (rd 0 0 0) = .ok (0, rd 1 6 0) ∧
      257 + (0 + 3) = { lengths 257 with hdist := 3 }.totalLens) ∧
    (getBits [(0, 0x00)] 1 3 (rd 0 0 0) = .ok (0, rd 1 5 0) ∧
      257 + (0 + 3) < { lengths 257 with hlit := 261, hdist := 3 }.totalLens) := by decide

/-- A state of DYN_LENS with the flat code, 5 bits held and no more input, and `k` lengths read. -/
def lastSymbol (bits : Nat) (k : BitVec 9) : State :=
  { ready [] .dynLens with cl := flatCl, br := rd 0 5 bits, lk := k }

/-- Symbols 16, 17 and 18 of the flat code with no extra bit left, and input that ends inside a codeword. -/
theorem witness_DynLensStep :
    ((lastSymbol 1 0).host = [] ∧ (lastSymbol 1 0).fsm = .dynLens) ∧
    decodeSym flatCl [] 0 (rd 0 4 0) = .error (.raise .truncated) ∧
    (decodeSym flatCl [] 0 (lastSymbol 1 0).br = .ok (16, rd 0 0 0) ∧ decode .clSymbol 16 = .ok .cl16) ∧
    ((lastSymbol 1 0).lk = 0 ∧ (lastSymbol 1 1).lk ≠ 0) ∧
    decodeSym flatCl [] 0 (lastSymbol 0x11 0).br = .ok (17, rd 0 0 0) ∧
    decodeSym flatCl [] 0 (lastSymbol 0x09 0).br = .ok (18, rd 0 0 0) ∧
    (∀ n ∈ [2, 3, 7], getBits [] 0 n (rd 0 0 0) = .error (.raise .truncated)) := by decide

/-- Each repeat one past the target, and exactly at it. -/
theorem witness_RepeatsAreChecked :
    (lengths 0).lk = 0 ∧
    (∀ k ∈ [(120 : BitVec 9), 121, 248, 249, 252, 253],
      (lengths k).totalLens ≤ 320 ∧ (lengths k).lk.toNat ≤ (lengths k).totalLens ∧ (lengths k).lk ≠ 0) ∧
    (getBits (lengths 252).inMem 1 2 (rd 0 0 0) = .ok (3, rd 1 6 0x3F) ∧ (lengths 252).totalLens = 252 + (3 + 3) ∧
      (lengths 253).totalLens < 253 + (3 + 3)) ∧
    (getBits (lengths 248).inMem 1 3 (rd 0 0 0) = .ok (7, rd 1 5 0x1F) ∧ (lengths 248).totalLens = 248 + (7 + 3) ∧
      (lengths 249).totalLens < 249 + (7 + 3)) ∧
    (getBits (lengths 120).inMem 1 7 (rd 0 0 0) = .ok (127, rd 1 1 1) ∧ (lengths 120).totalLens = 120 + (127 + 11) ∧
      (lengths 121).totalLens < 121 + (127 + 11)) := by decide

/-- Codewords of the fixed code in stream order: 0 and 143 (8 bits), 255 (9 bits), 256, 257, 279, 284, 285,
286, 287 (H6); the input `FF` ends inside a codeword, and symbol 266 without its extra bit (Z7). -/
theorem witness_LitlenStep :
    ((ready [0x0C] .sym).host = [] ∧ (ready [0x0C] .sym).fsm = .sym ∧ (ready [0x0C] .sym).tsel = .fixed) ∧
    decodeSym fll [(0, 0x0C)] 1 (rd 0 0 0) = .ok (0, rd 1 0 0) ∧
    decodeSym fll [(0, 0xFF), (1, 0xFF)] 2 (rd 0 0 0) = .ok (255, rd 2 7 0x7F) ∧
    decodeSym fll [(0, 0x00)] 1 (rd 0 0 0) = .ok (256, rd 1 1 0) ∧
    (decodeSym fll [(0, 0x40)] 1 (rd 0 0 0) = .ok (257, rd 1 1 0) ∧
      getBits [(0, 0x40)] 1 (lenExtra 0) (rd 1 1 0) = .ok (0, rd 1 1 0)) ∧
    decodeSym fll [(0, 0xA3)] 1 (rd 0 0 0) = .ok (285, rd 1 0 0) ∧
    decodeSym fll [(0, 0x63)] 1 (rd 0 0 0) = .ok (286, rd 1 0 0) ∧
    decodeSym fll [(0, 0xE3)] 1 (rd 0 0 0) = .ok (287, rd 1 0 0) ∧
    (decodeSym fll [(0, 0x28)] 1 (rd 0 7 0x28) = .ok (266, rd 0 0 0) ∧
      getBits [(0, 0x28)] 0 (lenExtra 9) (rd 0 0 0) = .error (.raise .truncated)) ∧
    decodeSym fll [(0, 0xFF)] 1 (rd 0 0 0) = .error (.raise .truncated) := by decide

theorem witness_LiteralAndEndComplete :
    (copying 1 [] 1).outLen ≠ (copying 1 [] 1).params.outCap ∧
    (copying 1 [] 0).outLen = (copying 1 [] 0).params.outCap := by decide

theorem witness_LengthSymbolsComplete :
    InputLoaded (ready [0xFF] .sym) ∧
    (Instr.lsym257.lengthCode? = some 0 ∧ lenExtra 0 ≤ (ready [0xFF] .sym).br.bitsAhead 1) ∧
    (Instr.lsym284.lengthCode? = some 27 ∧ lenExtra 27 ≤ (ready [0xFF] .sym).br.bitsAhead 1) ∧
    (Instr.lsym285.lengthCode? = some 28 ∧ lenExtra 28 ≤ (ready [0xFF] .sym).br.bitsAhead 1) :=
  ⟨inputLoaded_of_decide (by decide), by decide, by decide, by decide⟩

theorem witness_LengthAndDistanceTables :
    (27 ≤ 28 ∧ 31 < 2 ^ lenExtra 27) ∧ (28 ≤ 28 ∧ 0 < 2 ^ lenExtra 28) ∧ (29 < 30 ∧ 8191 < 2 ^ distExtra 29) := by
  decide

/-- Fixed distance codes 0, 29, 30 and 31 in stream order; distances at and beyond OUT_LEN. -/
theorem witness_DistanceStep :
    ((ready [0x00] .dist).host = [] ∧ (ready [0x00] .dist).fsm = .dist ∧ (ready [0x00] .dist).tsel = .fixed) ∧
    (decodeSym fdt [(0, 0x00)] 1 (rd 0 0 0) = .ok (0, rd 1 3 0) ∧
      getBits [(0, 0x00)] 1 (distExtra 0) (rd 1 3 0) = .ok (0, rd 1 3 0) ∧ distOf 0 0 ≤ 1 ∧ 0 < distOf 0 0) ∧
    (decodeSym fdt [(0, 0x17)] 1 (rd 0 0 0) = .ok (29, rd 1 3 0) ∧
      getBits [(0, 0x17)] 1 (distExtra 29) (rd 1 3 0) = .error (.raise .truncated)) ∧
    decodeSym fdt [(0, 0x0F)] 1 (rd 0 0 0) = .ok (30, rd 1 3 0) ∧
    decodeSym fdt [(0, 0x1F)] 1 (rd 0 0 0) = .ok (31, rd 1 3 0) ∧
    decodeSym fdt [] 0 (rd 0 4 0) = .error (.raise .truncated) := by decide

theorem witness_DistanceSymbolsComplete :
    InputLoaded (ready [0xFF, 0xFF] .dist) ∧
    (Instr.dsym0.distanceCode? = some 0 ∧ 0 < 30 ∧ distExtra 0 ≤ (ready [0xFF, 0xFF] .dist).br.bitsAhead 2 ∧
      distOf 0 (2 ^ distExtra 0 - 1) ≤ 1) ∧
    (Instr.dsym29.distanceCode? = some 29 ∧ 29 < 30 ∧ distExtra 29 ≤ (ready [0xFF, 0xFF] .dist).br.bitsAhead 2 ∧
      distOf 29 (2 ^ distExtra 29 - 1) ≤ 32768) :=
  ⟨inputLoaded_of_decide (by decide), by decide, by decide⟩

/-- A state of COPY: `n` bytes left at distance 1, "A" in the output, an OUT_CAP of `cap`. -/
def matching (n : BitVec 9) (cap : Nat) : State :=
  { ready [] .copy with
    mDist := 1, mRem := n, outLen := 1, outMem := [(0, 0x41)], params := { addrW := 17, outCap := cap } }

theorem witness_CopyStep :
    (∀ s ∈ [matching 1 2, matching 258 1], s.host = [] ∧ s.fsm = .copy ∧ 1 ≤ s.mRem.toNat ∧ 1 ≤ s.mDist.toNat ∧
      s.mDist.toNat ≤ s.outLen ∧ s.outMem.read? (s.outLen - s.mDist.toNat) = some 0x41) ∧
    (matching 1 2).outLen ≠ (matching 1 2).params.outCap ∧
    (matching 258 1).outLen = (matching 258 1).params.outCap := by decide

theorem agrees_of_empty (mem : Memory) : BitReader.Agrees mem BitReader.empty :=
  ⟨Nat.zero_le _, fun _ h => absurd h (Nat.not_lt_zero _)⟩

theorem witness_OverlappingCopyRepeats :
    Inv (matching 258 1000) ∧ (matching 258 1000).host = [] ∧ (matching 258 1000).fsm = .copy ∧
    (matching 258 1000).outLen + (matching 258 1000).mRem.toNat ≤ (matching 258 1000).params.outCap := by
  refine ⟨?_, rfl, rfl, by decide⟩
  constructor
  case reader => exact fun _ => ⟨by decide, agrees_of_empty _⟩
  case clSymbols => exact fun h => by cases h
  case clean => exact BitReader.clean_empty
  case params => unfold Params.Ok; decide
  case tables => exact fun _ h => by cases h
  case clBounds => exact fun h => by cases h
  all_goals decide

theorem witness_StartWriteBeginsARun :
    { ready [] .error with host := [.write 0 0xFFFFFFFF] }.host = .write 0x00 0xFFFFFFFF :: [] ∧
    ((0xFFFFFFFF : Word).toNat % 2 = 1 ∧ (0xFFFFFFFE : Word).toNat % 2 = 0) ∧
    ((ready [] .copy).fsm ≠ .idle ∧ (ready [] .copy).fsm ≠ .done ∧ (ready [] .copy).fsm ≠ .error) :=
  ⟨rfl, by decide, by decide⟩

theorem witness_StartCompletes :
    (State.reset.fsm = .idle ∨ State.reset.fsm = .done ∨ State.reset.fsm = .error) ∧
    ((ready [] .hdr).fsm ≠ .idle ∧ (ready [] .hdr).fsm ≠ .done ∧ (ready [] .hdr).fsm ≠ .error) := by decide

theorem witness_OtherHostMoves :
    ({ State.reset with host := [.write 0x0C 5] }.host = .write 0x0C 5 :: [] ∧ State.reset.fsm.waiting = true) ∧
    (ready [] .sym).fsm.waiting = false ∧
    ({ State.reset with host := [.write 0x14 5] }.host = .write 0x14 5 :: []) ∧
    ({ State.reset with host := [.load 0xFFFFFFFF 5] }.host = .load 0xFFFFFFFF 5 :: [] ∧
      0xFFFFFFFF < 2 ^ State.reset.params.addrW) := ⟨⟨rfl, rfl⟩, rfl, rfl, rfl, by decide⟩

theorem witness_HostRegisterReads :
    State.reset.params.Ok ∧ State.reset.inLen < 2 ^ State.reset.params.addrW ∧
    State.reset.br.pos < 2 ^ State.reset.params.addrW ∧ State.reset.outLen < 2 ^ State.reset.params.addrW ∧
    0x18 ∉ [0x00, 0x04, 0x08, 0x0C, 0x10, 0x14] := by
  unfold Params.Ok
  decide

theorem witness_ResetFromAnyState : { ready [] .copy with host := [.reset] }.host = .reset :: [] := rfl

theorem witness_EqualReadsAreEqualMemories :
    Memory.wf [(0, 0x41), (3, 0x42)] ∧ (∀ a, Memory.read? [(0, 0x41), (3, 0x42)] a =
      Memory.read? [(0, 0x41), (3, 0x42)] a) := ⟨by decide, fun _ => rfl⟩

/-- An idle or finished state with one byte of input and the invariant. -/
theorem inv_waiting (f : Fsm) (h : f = .idle ∨ f = .done) : Inv (ready [0x07] f) := by
  rcases h with rfl | rfl <;> constructor
  all_goals first
    | exact BitReader.clean_empty
    | (unfold Params.Ok; decide)
    | decide
    | exact fun h => by rcases h with h | h | h <;> cases h

theorem witness_ResultIsTheOutputBytes :
    State.reset.fsm ≠ .done ∧ Inv (ready [0x07] .done) ∧ (ready [0x07] .done).fsm = .done :=
  ⟨by decide, inv_waiting _ (.inr rfl), rfl⟩

theorem witness_EveryStepKeepsInvariant :
    Inv (ready [0x07] .idle) ∧ ∃ t, step (ready [0x07] .idle) = .next t := ⟨inv_waiting _ (.inl rfl), _, rfl⟩

theorem witness_LoadedRunsNeverFault :
    Inv (ready [0x07] .idle) ∧ InputLoaded (ready [0x07] .idle) ∧ (ready [0x07] .idle).host = [] :=
  ⟨inv_waiting _ (.inl rfl), inputLoaded_of_decide (by decide), rfl⟩

theorem startable (f : Fsm) (h : f = .idle ∨ f = .done) : Startable (ready [0x07] f) where
  inv := inv_waiting f h
  waiting := by rcases h with rfl | rfl <;> rfl
  loaded := by rcases h with rfl | rfl <;> exact inputLoaded_of_decide (by decide)
  silent := rfl

theorem witness_EveryRunTerminates : Startable (ready [0x07] .idle) ∧
    (∃ t, core.run 1 (ready [0x07] .idle).runInit = .next t) ∧
    1032 * (ready [0x07] .idle).inLen ≤ (ready [0x07] .idle).params.outCap :=
  ⟨startable _ (.inl rfl), ⟨_, rfl⟩, by decide⟩

theorem witness_RunsAreIndependent :
    Startable (ready [0x07] .idle) ∧ Startable (ready [0x07] .done) ∧
    (∀ a, a < (ready [0x07] .idle).inLen → (ready [0x07] .idle).inMem.read? a = (ready [0x07] .done).inMem.read? a) ∧
    (∃ t, core.run 1 (ready [0x07] .idle).runInit = .next t) ∧
    (∃ t, core.run 1 (ready [0x07] .done).runInit = .next t) :=
  ⟨startable _ (.inl rfl), startable _ (.inr rfl), fun _ _ => rfl, ⟨_, rfl⟩, _, rfl⟩

theorem witness_BytesPastTheReaderAreNotRead :
    ∃ t, blockStep (ready [0x03, 0xFF] .hdr) = .next t ∧ t.fsm ≠ .error ∧ t.br.pos = 1 ∧
      (∀ a, a < 1 → Memory.read? [(0, 0x03)] a = (ready [0x03, 0xFF] .hdr).inMem.read? a) :=
  ⟨_, rfl, by decide, rfl, by decide⟩

end Sys2Proof.Tests
end

section
/-! What the host reads: one rule per register of R44, what each says of the field behind it, and the
level outputs of R45 as the states in which each stands. -/

namespace Sys2Proof.Machine

/-! ## The numbers of the errors -/

/-- R331, read from the number to the name; a number that R331 does not list gives `none`. -/
def errOfNumber : Nat → ErrCode
  | 1 => .truncated
  | 2 => .unknownBlockType
  | 3 => .storedLenMismatch
  | 4 => .invalidCode
  | 5 => .invalidLitlenCode
  | 6 => .invalidDistanceCode
  | 7 => .invalidDynamicTree
  | 8 => .noPreviousLength
  | 9 => .distanceTooFar
  | 10 => .bitRequestTooWide
  | 11 => .outputOverflow
  | _ => .none

theorem errOfNumber_errNumber (e : ErrCode) : errOfNumber (errNumber e) = e := by
  cases e <;> rfl

theorem errNumber_injective : Function.Injective errNumber :=
  Function.LeftInverse.injective errOfNumber_errNumber

theorem errNumber_lt (e : ErrCode) : errNumber e < 12 := by
  cases e <;> decide

/-! ## STATUS.RUN and the level outputs -/

theorem run_setWidth_toNat (f : Fsm) :
    (f.run.setWidth 32).toNat = if f = .idle then 0 else if f = .done then 2 else if f = .error then 3 else 1 := by
  cases f <;> rfl

theorem run_eq_one_iff (f : Fsm) : f.run = 1 ↔ f ≠ .idle ∧ f ≠ .done ∧ f ≠ .error := by
  cases f <;> decide

theorem run_eq_two_iff (f : Fsm) : f.run = 2 ↔ f = .done := by
  cases f <;> decide

theorem run_eq_three_iff (f : Fsm) : f.run = 3 ↔ f = .error := by
  cases f <;> decide

theorem busy_iff (s : State) : s.busy = true ↔ s.fsm ≠ .idle ∧ s.fsm ≠ .done ∧ s.fsm ≠ .error :=
  beq_iff_eq.trans (run_eq_one_iff s.fsm)

theorem doneLevel_iff (s : State) : s.doneLevel = true ↔ s.fsm = .done :=
  beq_iff_eq.trans (run_eq_two_iff s.fsm)

theorem errorLevel_iff (s : State) : s.errorLevel = true ↔ s.fsm = .error :=
  beq_iff_eq.trans (run_eq_three_iff s.fsm)

/-! ## One rule per register -/

section Registers
variable (s : State)

theorem hostRead_ctrl : hostRead s 0x00 = some 0 := rfl

theorem hostRead_status : hostRead s 0x04 = some (s.fsm.run.setWidth 32) := rfl

theorem hostRead_err : hostRead s 0x08 = some (BitVec.ofNat 32 (errNumber s.errCode)) := rfl

theorem hostRead_inLen : hostRead s 0x0C = some (BitVec.ofNat 32 (s.inLen % 2 ^ s.params.addrW)) := rfl

theorem hostRead_inPos : hostRead s 0x10 = some (BitVec.ofNat 32 (s.br.pos % 2 ^ s.params.addrW)) := rfl

theorem hostRead_outLen : hostRead s 0x14 = some (BitVec.ofNat 32 (s.outLen % 2 ^ s.params.addrW)) := rfl

theorem hostRead_unmapped {offset : Nat} (h : offset ∉ [0x00, 0x04, 0x08, 0x0C, 0x10, 0x14]) :
    hostRead s offset = none := by
  simp only [List.mem_cons, List.not_mem_nil, or_false, not_or] at h
  obtain ⟨hctrl, hstatus, herr, hinLen, hinPos, houtLen⟩ := h
  simp only [hostRead, if_neg hctrl, if_neg hstatus, if_neg herr, if_neg hinLen, if_neg hinPos, if_neg houtLen]

end Registers

/-! ## No bit of a register is lost -/

theorem ofNat_errNumber_toNat (e : ErrCode) : (BitVec.ofNat 32 (errNumber e)).toNat = errNumber e :=
  (BitVec.toNat_ofNat ..).trans (Nat.mod_eq_of_lt ((errNumber_lt e).trans (by decide)))

/-- An ADDR_W-bit field stands whole in a 32-bit host register (log 3 bounds ADDR_W by 32). -/
theorem addrField_toNat {p : Params} (hp : p.Ok) {n : Nat} (hn : n < 2 ^ p.addrW) :
    (BitVec.ofNat 32 (n % 2 ^ p.addrW)).toNat = n := by
  obtain ⟨_, hle, _⟩ := hp
  have hword : n < 2 ^ 32 := hn.trans_le (Nat.pow_le_pow_right (by decide) hle)
  rw [Nat.mod_eq_of_lt hn, BitVec.toNat_ofNat, Nat.mod_eq_of_lt hword]

/-- Settles O48: the rule of each register, with the field behind it whole in the word. -/
theorem hostRegisterReads : Obligations.HostRegisterReads := by
  refine ⟨rfl, fun e e' h => errNumber_injective h, fun s hp hin hpos hout => ?_⟩
  exact ⟨hostRead_ctrl s,
    ⟨_, hostRead_status s, run_setWidth_toNat s.fsm⟩,
    ⟨_, hostRead_err s, ofNat_errNumber_toNat s.errCode⟩,
    ⟨_, hostRead_inLen s, addrField_toNat hp hin⟩,
    ⟨_, hostRead_inPos s, addrField_toNat hp hpos⟩,
    ⟨_, hostRead_outLen s, addrField_toNat hp hout⟩,
    busy_iff s, doneLevel_iff s, errorLevel_iff s, fun _ => hostRead_unmapped s⟩

end Sys2Proof.Machine
end

section
/-! GET_BITS as a reader of the stream of R85: what the loop of R171 holds, read against the stream, and
from it the value returned and where the reader stands. -/

namespace Sys2Proof.Machine

/-- R33: the leftover bits, masked as GET_BITS takes them up, are the next bits of the stream. -/
theorem BitReader.Agrees.leftover_bits {mem : Memory} {r : BitReader} (ha : r.Agrees mem) {k : Nat}
    (hk : k < r.cnt.toNat) : streamBit? mem (r.streamPos + k) = some (r.leftover.testBit k) := by
  obtain ⟨-, hbits⟩ := ha
  rw [hbits k hk, BitReader.leftover_eq, Nat.testBit_mod_two_pow, decide_eq_true hk, Bool.true_and, BitVec.getLsbD]

/-- Begun on the leftover bits of a reader that agrees with the stream, the loop holds the stream's next
bits from the reader's own position, with no seam between the leftover bits and the bytes pulled. -/
theorem BitReader.Agrees.refill_bits {mem : Memory} {len n k acc held pos : Nat} {r : BitReader}
    (ha : r.Agrees mem) (h : refill mem len n k r.leftover r.cnt.toNat r.pos = .ok (acc, held, pos))
    {j : Nat} (hj : j < held) : streamBit? mem (r.streamPos + j) = some (acc.testBit j) := by
  obtain ⟨-, hkept, hpulled⟩ := Machine.refill_bits h r.leftover_lt
  by_cases hc : j < r.cnt.toNat
  · rw [hkept j hc]
    exact ha.leftover_bits hc
  · have hpos : r.streamPos + j = 8 * r.pos + (j - r.cnt.toNat) := by
      obtain ⟨hle, -⟩ := ha
      unfold BitReader.streamPos
      omega
    rw [hpos]
    exact hpulled j (Nat.le_of_not_lt hc) hj

/-- R180: the stream position moves by the number of bits asked for. -/
theorem getBits_streamPos {mem : Memory} {len n v : Nat} {r r' : BitReader}
    (h : getBits mem len n r = .ok (v, r')) (hle : r.cnt.toNat ≤ 8 * r.pos) :
    r'.streamPos = r.streamPos + n := by
  obtain ⟨-, -, hpos, hcnt, -⟩ := getBits_ok h
  unfold BitReader.streamPos
  omega

/-- R85: bit `k` of the value is the stream bit `k` places after the reader's position. -/
theorem getBits_testBit {mem : Memory} {len n v : Nat} {r r' : BitReader} (ha : r.Agrees mem)
    (h : getBits mem len n r = .ok (v, r')) {k : Nat} (hk : k < n) :
    streamBit? mem (r.streamPos + k) = some (v.testBit k) := by
  obtain ⟨-, -, -, -, -, -, -, acc, hr, rfl, -⟩ := getBits_ok h
  rw [ha.refill_bits hr (Nat.lt_add_left _ hk), Nat.testBit_mod_two_pow, decide_eq_true hk, Bool.true_and]

/-- Settles O12: the value's bits and the new position from the loop's bits, the new leftover bits from
`getBits_advance`. -/
theorem getBitsReadsTheStream : Obligations.GetBitsReadsTheStream := by
  intro mem len n v r r' ha h
  have ⟨hle, _⟩ := ha
  obtain ⟨-, hv, -, -, -, hclean, -⟩ := getBits_ok h
  exact ⟨hv, fun k hk => getBits_testBit ha h hk, getBits_streamPos h hle, (getBits_advance h).agrees ha, hclean⟩

end Sys2Proof.Machine
end

section
/-! The length and distance functions of R119 and R121: extra bits count up from a code's base value, so a
code's values are bounded by its base and its number of extra bits. -/

namespace Sys2Proof.Machine

/-- Extra bits below the shifted leading bits of a code are added to them. -/
theorem extra_or_shiftLeft {x n : Nat} (hx : x < 2 ^ n) (k : Nat) : x ||| k <<< n = k <<< n + x := by
  rw [Nat.lor_comm, Nat.shiftLeft_add_eq_or_of_lt hx]

/-- R119: the codes without extra bits take `x = 0` only; the others add `x` to their leading bits. -/
theorem lenOf_eq_base_add {c x : Nat} (hx : x < 2 ^ lenExtra c) : lenOf c x = lenOf c 0 + x := by
  by_cases hc : c < 8 ∨ c = 28
  · have hx0 : x = 0 := by simpa [lenExtra, hc] using hx
    rw [hx0, Nat.add_zero]
  · obtain ⟨h8, h28⟩ := not_or.mp hc
    simp only [lenOf, if_neg h8, if_neg h28, extra_or_shiftLeft hx, Nat.zero_or]
    omega

/-- R121: codes 0 to 3 take `x = 0` only; the others add `x` to their leading bits. -/
theorem distOf_eq_base_add {c x : Nat} (hx : x < 2 ^ distExtra c) : distOf c x = distOf c 0 + x := by
  by_cases hc : c < 4
  · have hx0 : x = 0 := by simpa [distExtra, hc] using hx
    rw [hx0, Nat.add_zero]
  · simp only [distOf, if_neg hc, extra_or_shiftLeft hx, Nat.zero_or]
    omega

/-- The first value of every length code, and one past its last, lie within 3 to 259. -/
theorem lenOf_base_bounds : ∀ c < 29, 3 ≤ lenOf c 0 ∧ lenOf c 0 + 2 ^ lenExtra c ≤ 259 := by
  decide

/-- The first value of every distance code, and one past its last, lie within 1 to 32769. -/
theorem distOf_base_bounds : ∀ c < 30, 1 ≤ distOf c 0 ∧ distOf c 0 + 2 ^ distExtra c ≤ 32769 := by
  decide

theorem lenOf_range {c x : Nat} (hc : c ≤ 28) (hx : x < 2 ^ lenExtra c) : 3 ≤ lenOf c x ∧ lenOf c x ≤ 258 := by
  obtain ⟨hfirst, hlast⟩ := lenOf_base_bounds c (Nat.lt_succ_of_le hc)
  have := lenOf_eq_base_add hx
  omega

theorem distOf_range {c x : Nat} (hc : c < 30) (hx : x < 2 ^ distExtra c) :
    1 ≤ distOf c x ∧ distOf c x ≤ 32768 := by
  obtain ⟨hfirst, hlast⟩ := distOf_base_bounds c hc
  have := distOf_eq_base_add hx
  omega

/-- Settles O39: the tables by evaluation of each code, the values above a base by `lenOf_eq_base_add` and
`distOf_eq_base_add`, their ranges from the bases. -/
theorem lengthAndDistanceTables : Obligations.LengthAndDistanceTables :=
  ⟨by decide, fun _ _ hc hx => ⟨lenOf_eq_base_add hx, lenOf_range hc hx⟩,
    by decide, fun _ _ hc hx => ⟨distOf_eq_base_add hx, distOf_range hc hx⟩⟩

end Sys2Proof.Machine
end

section
/-! The rest of the bit reader: GET_BITS read in parts (R178), its limit (R172), and the aligned reads
(R174 to R176). A plan of calls is compared with one request of its total that has no limit: the loop of
R171 passes through the state in which a smaller request ends, and goes on from there. -/

namespace Sys2Proof.Machine

/-! ## The loop of GET_BITS, interrupted and taken up again -/

/-- The loop for `n'` bits passes through the end of the loop for `n ≤ n'` bits, or stops as it does. -/
theorem refill_through {mem : Memory} {len n n' k k' acc held pos : Nat} (hle : n ≤ n')
    (hk : n ≤ held + 8 * k) (hk' : n' ≤ held + 8 * k') :
    refill mem len n' k' acc held pos =
      (refill mem len n k acc held pos).bind fun p => refill mem len n' n' p.1 p.2.1 p.2.2 := by
  induction k generalizing k' acc held pos with
  | zero => exact refill_rounds hk' (by omega)
  | succ k ih =>
    by_cases hn : n ≤ held
    · rw [refill_done hn]
      exact refill_rounds hk' (by omega)
    · obtain ⟨k', rfl⟩ : ∃ j, k' = j + 1 := Nat.exists_eq_add_one.2 (by omega)
      rw [refill_pull (by omega), refill_pull (by omega)]
      split
      · rfl
      · cases inByte mem pos with
        | error e => rfl
        | ok b => exact ih (by omega) (by omega)

/-- The bits a loop begins with are the low bits of its answer. -/
theorem refill_mod {mem : Memory} {len n k acc held pos : Nat} {p : Nat × Nat × Nat}
    (h : refill mem len n k acc held pos = .ok p) (hacc : acc < 2 ^ held) {j : Nat} (hj : j ≤ held) :
    p.1 % 2 ^ j = acc % 2 ^ j := by
  obtain ⟨-, hkept, -⟩ := refill_bits h hacc
  refine Nat.eq_of_testBit_eq fun i => ?_
  rw [Nat.testBit_mod_two_pow, Nat.testBit_mod_two_pow]
  by_cases hi : i < j
  · rw [hkept i (hi.trans_le hj)]
  · simp [hi]

/-- The loop's answer with its first `n` bits taken away. -/
def dropHeld (n : Nat) : Nat × Nat × Nat → Nat × Nat × Nat
  | (acc, held, pos) => (acc / 2 ^ n, held - n, pos)

/-- Taking away `n` bits moves a byte placed above them down by `n`. -/
theorem or_shiftLeft_div_two_pow (a b n k : Nat) : (a ||| b <<< (k + n)) / 2 ^ n = a / 2 ^ n ||| b <<< k := by
  rw [Nat.or_div_two_pow, Nat.shiftLeft_add, ← Nat.shiftRight_eq_div_pow (_ <<< n), Nat.shiftLeft_shiftRight]

/-- The loop only carries along the lowest `n` bits it holds: without them it pulls the same bytes. -/
theorem refill_dropHeld {mem : Memory} {len n m k acc held pos : Nat} :
    refill mem len m k (acc / 2 ^ n) held pos =
      (refill mem len (n + m) k acc (held + n) pos).map (dropHeld n) := by
  induction k generalizing acc held pos with
  | zero => simp [refill, Except.map, dropHeld]
  | succ k ih =>
    by_cases hm : m ≤ held
    · rw [refill_done hm, refill_done (by omega)]
      simp [Except.map, dropHeld]
    · rw [refill_pull (by omega), refill_pull (by omega)]
      split
      · rfl
      · cases inByte mem pos with
        | error e => rfl
        | ok b =>
          have := @ih (acc ||| b.toNat <<< (held + n)) (held + 8) (pos + 1)
          rwa [or_shiftLeft_div_two_pow, Nat.add_right_comm] at this

/-! ## GET_BITS without its limit -/

/-- What GET_BITS makes of the loop's answer: the `n` bits to return, and the reader that holds the rest. -/
def splitHeld (n : Nat) : Nat × Nat × Nat → Nat × BitReader
  | (acc, held, pos) =>
    (acc % 2 ^ n, { pos := pos, buf := BitVec.ofNat 7 (acc / 2 ^ n), cnt := BitVec.ofNat 3 (held - n) })

/-- GET_BITS (R171) without the test of R172. -/
def getBitsUnlimited (mem : Memory) (len n : Nat) (r : BitReader) : Result (Nat × BitReader) :=
  (refill mem len n n r.leftover r.cnt.toNat r.pos).map (splitHeld n)

theorem getBits_eq_unlimited {mem : Memory} {len n : Nat} {r : BitReader} (h : n ≤ 25) :
    getBits mem len n r = getBitsUnlimited mem len n r := by
  rw [getBits_eq h, getBitsUnlimited]
  cases refill mem len n n r.leftover r.cnt.toNat r.pos <;> rfl

theorem getBitsUnlimited_zero {mem : Memory} {len : Nat} {r : BitReader} (h : r.Clean) :
    getBitsUnlimited mem len 0 r = .ok (0, r) :=
  (getBits_eq_unlimited (Nat.zero_le _)).symm.trans (getBits_zero h)

/-- GET_BITS stops where its loop does. -/
theorem refill_of_getBits_error {mem : Memory} {len n : Nat} {r : BitReader} {e : Stop} (hn : n ≤ 25)
    (h : getBits mem len n r = .error e) : refill mem len n n r.leftover r.cnt.toNat r.pos = .error e := by
  rw [getBits_eq hn] at h
  split at h
  · cases h
  · rename_i e' hr
    cases h
    exact hr

/-- A later result placed above the `n` bits of an earlier value `v`. -/
def placeAfter (v n : Nat) : Nat × BitReader → Nat × BitReader
  | (w, r) => (v ||| w <<< n, r)

/-- Splitting off `n` bits and then `m` is splitting off `n + m`. -/
theorem placeAfter_splitHeld (n m : Nat) (p : Nat × Nat × Nat) :
    placeAfter (p.1 % 2 ^ n) n (splitHeld m (dropHeld n p)) = splitHeld (n + m) p := by
  obtain ⟨acc, held, pos⟩ := p
  have hval : acc % 2 ^ n ||| (acc / 2 ^ n % 2 ^ m) <<< n = acc % 2 ^ (n + m) := by
    rw [Nat.lor_comm, ← Nat.shiftLeft_add_eq_or_of_lt (Nat.mod_lt _ (Nat.two_pow_pos n)), Nat.pow_add,
      Nat.mod_mul, Nat.shiftLeft_eq, Nat.mul_comm, Nat.add_comm]
  simp only [placeAfter, splitHeld, dropHeld, hval, Nat.div_div_eq_div_mul, ← Nat.pow_add, Nat.sub_sub]

/-- R178 for one call and a rest: a request of `n + m` bits is a call of `n`, then a request of `m`. -/
theorem getBitsUnlimited_add {mem : Memory} {len n m : Nat} {r : BitReader} (hn : n ≤ 25) :
    getBitsUnlimited mem len (n + m) r =
      (getBits mem len n r).bind fun p => (getBitsUnlimited mem len m p.2).map (placeAfter p.1 n) := by
  rw [getBitsUnlimited, refill_through (Nat.le_add_right n m) (k := n) (by omega) (by omega)]
  cases h : getBits mem len n r with
  | error e => rw [refill_of_getBits_error hn h]; rfl
  | ok p =>
    obtain ⟨v, r1⟩ := p
    obtain ⟨-, -, -, -, -, hclean, -, acc, hr, rfl, hbuf⟩ := getBits_ok h
    obtain ⟨hacc, -⟩ := refill_bits hr r.leftover_lt
    have hrest : getBitsUnlimited mem len m r1 =
        ((refill mem len (n + m) (n + m) acc (r1.cnt.toNat + n) r1.pos).map (dropHeld n)).map (splitHeld m) := by
      rw [getBitsUnlimited, BitReader.leftover_of_clean hclean, hbuf,
        refill_rounds (k' := n + m) (by omega) (by omega), refill_dropHeld]
    rw [hr]
    simp only [Except.bind, hrest]
    cases hp : refill mem len (n + m) (n + m) acc (r1.cnt.toNat + n) r1.pos with
    | error e => rfl
    | ok q => simp only [Except.map, ← refill_mod hp hacc (Nat.le_add_left ..), placeAfter_splitHeld]

/-! ## Plans of calls -/

theorem readPlan_cons {mem : Memory} {len n : Nat} {ns : List Nat} {r : BitReader} :
    readPlan mem len (n :: ns) r =
      (getBits mem len n r).bind fun p => (readPlan mem len ns p.2).map (placeAfter p.1 n) := by
  rw [readPlan]
  cases getBits mem len n r with
  | error e => rfl
  | ok p =>
    simp only [Except.bind]
    cases readPlan mem len ns p.2 <;> rfl

/-- A plan is one request of its total. Only a plan of no calls needs a clean reader: every call masks off
the bits above `BR_CNT`, and no call does not. -/
theorem readPlan_eq_unlimited {mem : Memory} {len : Nat} {ns : List Nat} {r : BitReader}
    (hns : ∀ n, n ∈ ns → n ≤ 25) (hr : ns = [] → r.Clean) :
    readPlan mem len ns r = getBitsUnlimited mem len ns.sum r := by
  induction ns generalizing r with
  | nil => exact (getBitsUnlimited_zero (hr rfl)).symm
  | cons n ns ih =>
    rw [readPlan_cons, List.sum_cons, getBitsUnlimited_add (hns n List.mem_cons_self)]
    cases h : getBits mem len n r with
    | error e => rfl
    | ok p =>
      obtain ⟨-, -, -, -, -, hclean, -⟩ := getBits_ok h
      simp only [Except.bind, ih (fun m hm => hns m (List.mem_cons_of_mem n hm)) fun _ => hclean]

/-- Settles O15: both plans are the one request of their common total. -/
theorem chunkedReadsAreAssociative : Obligations.ChunkedReadsAreAssociative := by
  intro mem len r ns ms hns hms hn hm hsum
  rw [readPlan_eq_unlimited hn fun h => absurd h hns, readPlan_eq_unlimited hm fun h => absurd h hms, hsum]

/-! ## The limit of a request -/

/-- No rule of a block step writes ERR_CODE; only error entry does. -/
theorem Completes.errCode_eq {s t : State} (h : Completes s t) : t.errCode = s.errCode := by
  cases h <;> rfl

/-- Settles O11: a completed rule keeps ERR_CODE, and no step raises this error. -/
theorem wideRequestIsRefused : Obligations.WideRequestIsRefused := by
  refine ⟨fun _ _ _ _ hn => getBits_tooWide hn, fun s t hs h => ?_⟩
  rcases blockStep_next h with hc | ⟨e, -, he, rfl⟩
  · rwa [hc.errCode_eq]
  · exact he

/-! ## Aligned reads -/

@[simp] theorem dropAlign_pos (r : BitReader) : (dropAlign r).pos = r.pos := rfl

theorem dropAlign_of_empty {r : BitReader} (hclean : r.Clean) (hcnt : r.cnt = 0) : dropAlign r = r := by
  obtain ⟨pos, buf, cnt⟩ := r
  obtain rfl : cnt = 0 := hcnt
  have hbuf : buf.toNat < 1 := hclean
  obtain rfl : buf = 0 := BitVec.eq_of_toNat_eq (Nat.lt_one_iff.1 hbuf)
  rfl

theorem readByte_truncated {mem : Memory} {len : Nat} {r : BitReader} (h : len ≤ r.pos) :
    readByte mem len r = .error (.raise .truncated) := by
  rw [readByte, if_pos h]

/-- With nothing held, a loop for 8 bits pulls one byte. -/
theorem refill_eight {mem : Memory} {len pos : Nat} :
    refill mem len 8 8 0 0 pos =
      if len ≤ pos then .error (.raise .truncated) else (inByte mem pos).map fun b => (b.toNat, 8, pos + 1) := by
  rw [refill_pull (by decide)]
  split
  · rfl
  · cases inByte mem pos with
    | error e => rfl
    | ok b =>
      show refill mem len 8 7 (0 ||| b.toNat <<< 0) 8 (pos + 1) = .ok (b.toNat, 8, pos + 1)
      rw [refill_done (Nat.le_refl 8), Nat.zero_or, Nat.shiftLeft_zero]

/-- A whole byte held is returned whole, and nothing is left over. -/
theorem splitHeld_eight (b : Byte) (pos : Nat) :
    splitHeld 8 (b.toNat, 8, pos) = (b.toNat, { pos := pos, buf := 0, cnt := 0 }) := by
  rw [splitHeld, Nat.mod_eq_of_lt b.isLt, Nat.div_eq_of_lt b.isLt]
  rfl

theorem getBits_eight_dropAlign {mem : Memory} {len : Nat} {r : BitReader} :
    getBits mem len 8 (dropAlign r) = (readByte mem len (dropAlign r)).map fun p => (p.1.toNat, p.2) := by
  rw [getBits_eq_unlimited (by decide), getBitsUnlimited, BitReader.leftover_of_clean r.clean_dropAlign]
  show (refill mem len 8 8 0 0 r.pos).map (splitHeld 8) = _
  rw [refill_eight, readByte, dropAlign_pos]
  split
  · rfl
  · cases inByte mem r.pos with
    | error e => rfl
    | ok b => exact congrArg Except.ok (splitHeld_eight b (r.pos + 1))

/-- Settles O16: a clean reader with no bits left over is what DROP_ALIGN leaves, so `getBits_eight_dropAlign`
speaks of it. -/
theorem readByteIsGetBitsEight : Obligations.ReadByteIsGetBitsEight := by
  refine ⟨fun _ _ _ h => readByte_truncated h, fun _ _ _ _ hpos hb => readByte_ok.2 ⟨hpos, hb, rfl⟩,
    fun mem len r hclean hcnt => ?_⟩
  rw [← dropAlign_of_empty hclean hcnt]
  exact getBits_eight_dropAlign

theorem readU16le_of_bytes {mem : Memory} {len : Nat} {r : BitReader} {lo hi : Byte} (hpos : r.pos + 1 < len)
    (hlo : mem.read? r.pos = some lo) (hhi : mem.read? (r.pos + 1) = some hi) :
    readU16le mem len r = .ok (lo.toNat + 256 * hi.toNat, { r with pos := r.pos + 2 }) := by
  rw [readU16le, readByte_ok.2 ⟨Nat.lt_of_succ_lt hpos, hlo, rfl⟩]
  simp only [readByte_ok (r := { r with pos := r.pos + 1 }).2 ⟨hpos, hhi, rfl⟩, bytes_or_eq]

theorem readU16le_truncated {mem : Memory} {len : Nat} {r : BitReader}
    (hm : ∀ a, a < len → (mem.read? a).isSome = true) (hpos : len ≤ r.pos + 1) :
    readU16le mem len r = .error (.raise .truncated) := by
  rw [readU16le]
  by_cases h : len ≤ r.pos
  · rw [readByte_truncated h]
  · obtain ⟨lo, hlo⟩ := Option.isSome_iff_exists.1 (hm r.pos (Nat.lt_of_not_le h))
    rw [readByte_ok.2 ⟨Nat.lt_of_not_le h, hlo, rfl⟩]
    simp only [readByte_truncated (r := { r with pos := r.pos + 1 }) hpos]

/-- Settles O17: READ_U16LE by the two READ_BYTEs it is, of which the second meets the end of the input where
the first does not. -/
theorem alignedReads : Obligations.AlignedReads :=
  ⟨fun _ => rfl, fun _ => dropAlign_of_empty, fun _ _ _ _ _ => readU16le_of_bytes,
    fun _ _ _ => readU16le_truncated⟩

end Sys2Proof.Machine
end

section
/-! The canonical Huffman code (R117, R201 to R206): where BUILD places each symbol, and DECODE's loop read
against the canonical codeword bit by bit. -/

namespace Sys2Proof.Machine

/-! ## The buckets of ORDER -/

theorem bucketStart_succ {len : List Nat} {L : Nat} (hL : L ≠ 0) :
    bucketStart len (L + 1) = bucketStart len L + len.count L := by
  obtain ⟨L, rfl⟩ := Nat.exists_eq_succ_of_ne_zero hL
  rfl

theorem bucketStart_add_count_le {len : List Nat} {L L' : Nat} (hL : L ≠ 0) (h : L < L') :
    bucketStart len L + len.count L ≤ bucketStart len L' := by
  induction h with
  | refl => exact (bucketStart_succ hL).ge
  | step h ih =>
    rw [bucketStart_succ (Nat.ne_zero_of_lt h)]
    exact Nat.le_add_right_of_le ih

theorem countP_lt_succ (len : List Nat) (L : Nat) :
    len.countP (· < L + 1) = len.countP (· < L) + len.count L := by
  induction len with
  | nil => rfl
  | cons l len ih =>
    simp only [List.countP_cons, List.count_cons, ih, decide_eq_true_eq, beq_iff_eq]
    split_ifs <;> omega

theorem bucketStart_le_countP (len : List Nat) (L : Nat) : bucketStart len L ≤ len.countP (· < L) := by
  induction L using bucketStart.induct with
  | case1 => exact Nat.zero_le _
  | case2 => exact Nat.zero_le _
  | case3 L ih =>
    rw [bucketStart, countP_lt_succ]
    exact Nat.add_le_add_right ih _

theorem bucketEnd_le_length (len : List Nat) (L : Nat) : bucketStart len L + len.count L ≤ len.length :=
  calc bucketStart len L + len.count L
    _ ≤ len.countP (· < L) + len.count L := Nat.add_le_add_right (bucketStart_le_countP len L) _
    _ = len.countP (· < L + 1) := (countP_lt_succ len L).symm
    _ ≤ len.length := List.countP_le_length

/-! ## Placing the symbols -/

/-- Index `i` lies in what symbols of the lengths `len` will fill of the bucket of length `L`, where the next
free places are `offs`. -/
def Awaits (len offs : List Nat) (i L : Nat) : Prop :=
  offs.getD L 0 ≤ i ∧ i < offs.getD L 0 + len.count L

theorem getD_advance (offs : List Nat) {l : Nat} (hl : l < offs.length) (L : Nat) :
    (offs.set l (offs.getD l 0 + 1)).getD L 0 = offs.getD L 0 + if l = L then 1 else 0 := by
  simp only [List.getD_eq_getElem?_getD, List.getElem?_set, hl, if_true]
  split <;> simp_all

theorem Awaits.of_cons_zero {len offs : List Nat} {i L : Nat} (hL : L ≠ 0) (h : Awaits len offs i L) :
    Awaits (0 :: len) offs i L := by
  unfold Awaits at *
  rwa [List.count_cons_of_ne hL.symm]

/-- A symbol of length `l` takes one place of its bucket, so what is left to fill was to be filled before. -/
theorem Awaits.of_advance {len offs : List Nat} {i l L : Nat} (hl : l < offs.length)
    (h : Awaits len (offs.set l (offs.getD l 0 + 1)) i L) : Awaits (l :: len) offs i L := by
  unfold Awaits at *
  rw [getD_advance offs hl] at h
  rw [List.count_cons]
  simp only [beq_iff_eq]
  omega

theorem placeSymbols_of_not_awaits {ow n s i : Nat} {len offs : List Nat} {o : Vector (BitVec ow) n}
    (hlen : ∀ l, l ∈ len → l < offs.length) (hi : ∀ L, L ≠ 0 → ¬ Awaits len offs i L) :
    (placeSymbols s len offs o)[i]? = o[i]? := by
  induction len generalizing s offs o with
  | nil => rfl
  | cons l len ih =>
    have hl : l < offs.length := hlen l List.mem_cons_self
    have hlen' : ∀ x, x ∈ len → x < offs.length := fun x hx => hlen x (List.mem_cons_of_mem l hx)
    rw [placeSymbols]
    split
    · rename_i h0
      subst h0
      exact ih hlen' fun L hL h => hi L hL (h.of_cons_zero hL)
    · rename_i h0
      have hne : offs.getD l 0 ≠ i := fun h => hi l h0 ⟨h.le, by rw [List.count_cons_self]; omega⟩
      rw [ih (by rwa [List.length_set]) fun L hL h => hi L hL (h.of_advance hl),
        Vector.getElem?_setIfInBounds_ne hne]

/-- A symbol goes to its bucket after the symbols of its length before it, and keeps that place if no other
bucket reaches it. -/
theorem placeSymbols_getElem? {ow n s k i L : Nat} {len offs : List Nat} {o : Vector (BitVec ow) n}
    (hlen : ∀ l, l ∈ len → l < offs.length) (hk : len[k]? = some L) (hL : L ≠ 0)
    (hi : i = offs.getD L 0 + (len.take k).count L) (hn : i < n)
    (hother : ∀ L', L' ≠ 0 → L' ≠ L → ¬ Awaits len offs i L') :
    (placeSymbols s len offs o)[i]? = some (BitVec.ofNat ow (s + k)) := by
  induction len generalizing s k offs o with
  | nil => cases hk
  | cons l len ih =>
    have hl : l < offs.length := hlen l List.mem_cons_self
    have hlen' : ∀ x, x ∈ len → x < offs.length := fun x hx => hlen x (List.mem_cons_of_mem l hx)
    have hlen'' : ∀ x, x ∈ len → x < (offs.set l (offs.getD l 0 + 1)).length := by rwa [List.length_set]
    rw [placeSymbols]
    cases k with
    | zero =>
      cases hk
      replace hi : i = offs.getD L 0 := hi
      rw [if_neg hL, placeSymbols_of_not_awaits hlen'', ← hi, Vector.getElem?_setIfInBounds_self_of_lt hn,
        Nat.add_zero]
      intro L' hL' h
      by_cases he : L' = L
      · obtain ⟨hge, -⟩ := h
        rw [getD_advance offs hl, if_pos he.symm, he] at hge
        omega
      · exact hother L' hL' he (h.of_advance hl)
    | succ k =>
      rw [List.getElem?_cons_succ] at hk
      rw [List.take_succ_cons, List.count_cons] at hi
      rw [show s + (k + 1) = s + 1 + k by omega]
      split
      · rename_i h0
        subst h0
        refine ih hlen' hk ?_ fun L' h0 hne h => hother L' h0 hne (h.of_cons_zero h0)
        simpa [hL.symm] using hi
      · refine ih hlen'' hk ?_ fun L' h0 hne h => hother L' h0 hne (h.of_advance hl)
        rw [getD_advance offs hl]
        simp only [beq_iff_eq] at hi
        omega

/-! ## ORDER after BUILD -/

/-- Where BUILD places symbol `s` (R201): in the bucket of its length, after the symbols of that length
before it. -/
def orderIndex (len : List Nat) (s : Nat) : Nat :=
  bucketStart len (len.getD s 0) + (len.take s).count (len.getD s 0)

theorem getElem?_of_getD_ne_zero {len : List Nat} {s : Nat} (h : len.getD s 0 ≠ 0) :
    len[s]? = some (len.getD s 0) := by
  rw [List.getD_eq_getElem?_getD] at h ⊢
  cases hs : len[s]? with
  | none => simp [hs] at h
  | some l => rfl

/-- The symbol itself is one of its length, after those before it. -/
theorem count_take_lt {len : List Nat} {s : Nat} (h : len.getD s 0 ≠ 0) :
    (len.take s).count (len.getD s 0) < len.count (len.getD s 0) := by
  have hs : (len.take (s + 1)).count (len.getD s 0) = (len.take s).count (len.getD s 0) + 1 := by
    rw [List.take_add_one, getElem?_of_getD_ne_zero h, List.count_append]
    simp
  have := (List.take_sublist (s + 1) len).count_le (len.getD s 0)
  omega

theorem orderIndex_lt_bucketEnd {len : List Nat} {s : Nat} (h : len.getD s 0 ≠ 0) :
    orderIndex len s < bucketStart len (len.getD s 0) + len.count (len.getD s 0) :=
  Nat.add_lt_add_left (count_take_lt h) _

theorem orderIndex_lt_length {len : List Nat} {s : Nat} (h : len.getD s 0 ≠ 0) : orderIndex len s < len.length :=
  (orderIndex_lt_bucketEnd h).trans_le (bucketEnd_le_length len _)

theorem getD_bucketStarts (len : List Nat) {L : Nat} (hL : L < 16) :
    ((List.range 16).map (bucketStart len)).getD L 0 = bucketStart len L := by
  simp [List.getD_eq_getElem?_getD, hL]

/-- Buckets do not overlap: the places of length `L` lie in no other bucket. -/
theorem not_awaits_bucketStarts {len : List Nat} {L L' i : Nat} (hlen : ∀ l, l ∈ len → l ≤ 15) (hL : L ≠ 0)
    (hL' : L' ≠ 0) (hne : L' ≠ L) (hge : bucketStart len L ≤ i) (hlt : i < bucketStart len L + len.count L) :
    ¬ Awaits len ((List.range 16).map (bucketStart len)) i L' := by
  rintro ⟨hge', hlt'⟩
  by_cases h16 : L' < 16
  · rw [getD_bucketStarts len h16] at hge' hlt'
    rcases Nat.lt_or_gt_of_ne hne with h | h
    · have := bucketStart_add_count_le (len := len) hL' h
      omega
    · have := bucketStart_add_count_le (len := len) hL h
      omega
  · have hnot : L' ∉ len := fun h => h16 (Nat.lt_succ_of_le (hlen L' h))
    rw [List.count_eq_zero_of_not_mem hnot] at hlt'
    omega

/-- BUILD's ORDER (R201), where the table can hold the symbols. -/
theorem HuffTable.orderAt_build {cw ow n : Nat} (t : HuffTable cw ow n) {len : List Nat} {s : Nat}
    (hn : len.length ≤ n) (how : n ≤ 2 ^ ow) (hlen : ∀ l, l ∈ len → l ≤ 15) (hs : len.getD s 0 ≠ 0) :
    (t.build len).orderAt (orderIndex len s) = .ok s := by
  have hget := getElem?_of_getD_ne_zero hs
  obtain ⟨hlt, -⟩ := List.getElem?_eq_some_iff.1 hget
  have h15 : len.getD s 0 ≤ 15 := hlen _ (List.mem_of_getElem? hget)
  have hplaced : (t.build len).order[orderIndex len s]? = some (BitVec.ofNat ow (0 + s)) := by
    refine placeSymbols_getElem? (by simpa [Nat.lt_succ_iff] using hlen) hget hs ?_
      ((orderIndex_lt_length hs).trans_le hn) fun L' hL' hne => ?_
    · rw [getD_bucketStarts len (Nat.lt_succ_of_le h15), orderIndex]
    · exact not_awaits_bucketStarts hlen hs hL' hne (Nat.le_add_right _ _) (orderIndex_lt_bucketEnd hs)
  refine HuffTable.orderAt_ok.2 ⟨_, hplaced, ?_⟩
  rw [Nat.zero_add, BitVec.toNat_ofNat, Nat.mod_eq_of_lt (by omega)]

/-! ## Canonical codewords -/

/-- R117's recurrence, from the codeword after the last one of length `L`. -/
theorem firstCode_succ {len : List Nat} {L : Nat} (hL : L ≠ 0) :
    firstCode len (L + 1) = 2 * (firstCode len L + len.count L) := by
  obtain ⟨L, rfl⟩ := Nat.exists_eq_succ_of_ne_zero hL
  rw [firstCode, Nat.shiftLeft_eq, Nat.mul_comm, pow_one]

/-- Every codeword longer by `m + 1` bits begins after the codewords of length `L`. -/
theorem codeEnd_mul_le_firstCode {len : List Nat} {L : Nat} (hL : L ≠ 0) (m : Nat) :
    (firstCode len L + len.count L) * 2 ^ (m + 1) ≤ firstCode len (L + (m + 1)) := by
  induction m with
  | zero => rw [firstCode_succ hL]; omega
  | succ m ih =>
    rw [← Nat.add_assoc L, firstCode_succ (by omega), Nat.pow_succ, ← Nat.mul_assoc]
    omega

/-- The codewords up to length `L` take their terms of the Kraft sum. -/
theorem codeEnd_mul_eq_kraft (len : List Nat) {L : Nat} (hL : L < 15) :
    (firstCode len (L + 1) + len.count (L + 1)) * 2 ^ (15 - (L + 1)) =
      ((List.range' 1 (L + 1)).map fun l => len.count l * 2 ^ (15 - l)).sum := by
  induction L with
  | zero => simp [firstCode]
  | succ L ih =>
    have hpow : 2 ^ (15 - (L + 1)) = 2 * 2 ^ (15 - (L + 2)) := by
      rw [← Nat.pow_succ', show (15 - (L + 2)).succ = 15 - (L + 1) by omega]
    rw [List.range'_concat, List.map_append, List.sum_append, ← ih (by omega), firstCode_succ (by omega), hpow]
    simp only [List.map_cons, List.map_nil, List.sum_singleton, Nat.one_mul, Nat.add_comm 1 (L + 1)]
    ring

/-- R206: with a Kraft sum of at most 1, the codewords of length `L` fit in `L` bits. -/
theorem codeEnd_le_two_pow {len : List Nat} (hkraft : KraftAtMostOne len) {L : Nat} (hL : L ≠ 0) (h15 : L ≤ 15) :
    firstCode len L + len.count L ≤ 2 ^ L := by
  obtain ⟨L, rfl⟩ := Nat.exists_eq_succ_of_ne_zero hL
  have hsum : ((List.range' 1 (L + 1)).map fun l => len.count l * 2 ^ (15 - l)).sum ≤ 2 ^ 15 := by
    refine Nat.le_trans (List.Sublist.sum_le_sum (List.Sublist.map _ ?_) fun _ _ => Nat.zero_le _) hkraft
    exact List.range'_sublist_right.2 h15
  rw [← codeEnd_mul_eq_kraft len h15] at hsum
  refine Nat.le_of_mul_le_mul_right ?_ (Nat.two_pow_pos (15 - (L + 1)))
  rwa [← Nat.pow_add, Nat.add_sub_cancel' h15]

theorem codeword_lt_codeEnd {len : List Nat} {s : Nat} (h : len.getD s 0 ≠ 0) :
    codeword len s < firstCode len (len.getD s 0) + len.count (len.getD s 0) :=
  Nat.add_lt_add_left (count_take_lt h) _

theorem codeBits_succ (n v : Nat) : codeBits (n + 1) v = v.testBit n :: codeBits n v := by
  simp [codeBits, fieldBits, List.range_succ]

/-! ## DECODE -/

/-- The next bit of a codeword `v`, after the bits above its lowest `m + 1`. -/
theorem two_mul_div_add_testBit (v m : Nat) : 2 * (v / 2 ^ (m + 1)) + (v.testBit m).toNat = v / 2 ^ m := by
  rw [Nat.toNat_testBit, Nat.pow_succ, ← Nat.div_div_eq_div_mul, Nat.div_add_mod]

/-- DECODE's loop on a codeword of which `m + 1` bits are left, `acc` being how far the bits read stand after
the codewords of the lengths tried: every length but the codeword's own is passed over, for its codewords
end before those bits, and at its own the offset in the bucket is the symbol's. -/
theorem decodeLoop_codeword {cw ow n : Nat} {t : HuffTable cw ow n} {mem : Memory} {inLen L m k acc sym : Nat}
    {len : List Nat} {r r' : BitReader} (hsym : len.getD sym 0 ≠ 0) (h15 : len.getD sym 0 ≤ 15)
    (hcount : ∀ l, l ≤ 15 → t.countOf l = len.count l) (horder : t.orderAt (orderIndex len sym) = .ok sym)
    (hL : L ≠ 0) (hm : L + m = len.getD sym 0) (hk : m < k)
    (hacc : 2 * acc + firstCode len L = 2 * (codeword len sym / 2 ^ (m + 1)))
    (h : TakesBits mem inLen (codeBits (m + 1) (codeword len sym)) r r') :
    decodeLoop t mem inLen k L acc (bucketStart len L) r = .ok (sym, r') := by
  induction m generalizing L k acc r with
  | zero =>
    obtain ⟨k, rfl⟩ := Nat.exists_eq_succ_of_ne_zero (Nat.ne_zero_of_lt hk)
    rw [codeBits_succ] at h
    obtain ⟨r1, hb, rfl⟩ := h
    rw [getBit_eq] at hb
    obtain rfl : L = len.getD sym 0 := hm
    have hoff : 2 * acc + ((codeword len sym).testBit 0).toNat = (len.take sym).count (len.getD sym 0) := by
      have hbit := two_mul_div_add_testBit (codeword len sym) 0
      have hword : codeword len sym = firstCode len (len.getD sym 0) + _ := rfl
      omega
    rw [decodeLoop_succ, hb]
    simp only [hoff, hcount _ h15, if_pos (count_take_lt hsym)]
    rw [← orderIndex, horder]
  | succ m ih =>
    obtain ⟨k, rfl⟩ := Nat.exists_eq_succ_of_ne_zero (Nat.ne_zero_of_lt hk)
    rw [codeBits_succ] at h
    obtain ⟨r1, hb, hrest⟩ := h
    rw [getBit_eq] at hb
    have hbit := two_mul_div_add_testBit (codeword len sym) (m + 1)
    have hpast : firstCode len L + len.count L ≤ codeword len sym / 2 ^ (m + 1) := by
      rw [Nat.le_div_iff_mul_le (Nat.two_pow_pos _)]
      exact (codeEnd_mul_le_firstCode hL m).trans (hm ▸ Nat.le_add_right _ _)
    rw [decodeLoop_succ, hb]
    simp only [hcount L (by omega)]
    rw [if_neg (by omega), ← bucketStart_succ hL]
    exact ih (by omega) (by omega) (by omega) (by rw [firstCode_succ hL]; omega) hrest

/-- Settles O22: `decodeLoop_codeword` from the first bit, where the codeword fits in its length by the Kraft
sum. -/
theorem canonicalCodewordsDecode : Obligations.CanonicalCodewordsDecode := by
  intro cw ow n t len mem inLen sym r r' hn hcw how hlen hkraft _ hsym h
  have h15 : len.getD sym 0 ≤ 15 := hlen _ (List.mem_of_getElem? (getElem?_of_getD_ne_zero hsym))
  obtain ⟨m, hm : len.getD sym 0 = m + 1⟩ := Nat.exists_eq_succ_of_ne_zero hsym
  have hfits : codeword len sym < 2 ^ (m + 1) :=
    hm ▸ (codeword_lt_codeEnd hsym).trans_le (codeEnd_le_two_pow hkraft hsym h15)
  refine decodeLoop_codeword hsym h15
    (fun l hl => t.countOf_build len (Nat.lt_succ_of_le hl) (hn.trans_lt hcw))
    (t.orderAt_build hn how hlen hsym) Nat.one_ne_zero (m := m) (by omega) ?_ ?_ (hm ▸ h)
  · show m < 15
    omega
  · rw [Nat.div_eq_of_lt hfits]
    rfl

end Sys2Proof.Machine
end

section
/-! The ROM tables FLL and FDT (R209, R210): their contents as listed, BUILD's counts and places for the fixed
code lengths, and from both that BUILD makes the tables. -/

namespace Sys2Proof.Machine

/-! ## When a table is the one BUILD makes -/

/-- Two tables are the same if DECODE reads the same from both. -/
theorem HuffTable.eq_of_reads {cw ow n : Nat} {t t' : HuffTable cw ow n}
    (hcount : ∀ L, L < 16 → t.countOf L = t'.countOf L) (horder : ∀ i, i < n → t.orderAt i = t'.orderAt i) :
    t = t' := by
  obtain ⟨count, order⟩ := t
  obtain ⟨count', order'⟩ := t'
  congr 1
  · refine Vector.ext fun L hL => BitVec.eq_of_toNat_eq ?_
    simpa [HuffTable.countOf, hL] using hcount L hL
  · refine Vector.ext fun i hi => BitVec.eq_of_toNat_eq ?_
    simpa [HuffTable.orderAt, hi] using horder i hi

/-- BUILD makes a table that holds its counts and, at every index, the symbol it places there. -/
theorem HuffTable.eq_build {cw ow n : Nat} {t t' : HuffTable cw ow n} {len : List Nat} (hn : len.length ≤ n)
    (hcw : n < 2 ^ cw) (how : n ≤ 2 ^ ow) (hlen : ∀ l, l ∈ len → l ≤ 15)
    (hcount : ∀ L, L < 16 → t.countOf L = len.count L)
    (horder : ∀ i, i < n → ∃ s, len.getD s 0 ≠ 0 ∧ orderIndex len s = i ∧ t.orderAt i = .ok s) :
    t = t'.build len := by
  refine HuffTable.eq_of_reads (fun L hL => ?_) fun i hi => ?_
  · rw [hcount L hL, t'.countOf_build len hL (hn.trans_lt hcw)]
  · obtain ⟨s, hs, rfl, hread⟩ := horder i hi
    rw [hread, t'.orderAt_build hn how hlen hs]

/-- ORDER given as a list of symbols that its entries can hold. -/
theorem HuffTable.orderAt_of_toList {cw ow n : Nat} {t : HuffTable cw ow n} {syms : List Nat}
    (ho : t.order.toList = syms.map (BitVec.ofNat ow)) {i s : Nat} (hi : syms[i]? = some s) (hs : s < 2 ^ ow) :
    t.orderAt i = .ok s := by
  refine HuffTable.orderAt_ok.2 ⟨BitVec.ofNat ow s, ?_, ?_⟩
  · rw [← Vector.getElem?_toList, ho, List.getElem?_map, hi]
    rfl
  · rw [BitVec.toNat_ofNat, Nat.mod_eq_of_lt hs]

/-! ## The fixed literal/length code -/

theorem fixedLitlenLengths_length : fixedLitlenLengths.length = 288 := by
  simp only [fixedLitlenLengths, List.length_append, List.length_replicate]

theorem le_of_mem_fixedLitlenLengths {l : Nat} (h : l ∈ fixedLitlenLengths) : l ≤ 15 := by
  simp only [fixedLitlenLengths, List.mem_append, List.mem_replicate] at h
  omega

theorem count_fixedLitlenLengths (L : Nat) :
    fixedLitlenLengths.count L = if L = 7 then 24 else if L = 8 then 152 else if L = 9 then 112 else 0 := by
  simp only [fixedLitlenLengths, List.count_append, List.count_replicate, beq_iff_eq]
  split_ifs <;> omega

theorem fixedLitlenLengths_getD {s : Nat} (h : s < 288) :
    fixedLitlenLengths.getD s 0 = if s < 144 then 8 else if s < 256 then 9 else if s < 280 then 7 else 8 := by
  simp only [fixedLitlenLengths, List.getD_eq_getElem?_getD, List.getElem?_append, List.getElem?_replicate,
    List.length_append, List.length_replicate, apply_ite (Option.getD · 0), Option.getD_some, Option.getD_none]
  split_ifs <;> omega

/-- How many symbols of its own length stand before symbol `s`. -/
theorem fixedLitlenLengths_rank {s : Nat} (h : s < 288) :
    (fixedLitlenLengths.take s).count (fixedLitlenLengths.getD s 0) =
      if s < 144 then s else if s < 256 then s - 144 else if s < 280 then s - 256 else 144 + (s - 280) := by
  rw [fixedLitlenLengths_getD h]
  simp only [fixedLitlenLengths, List.take_append, List.take_replicate, List.count_append, List.length_append,
    List.length_replicate]
  split_ifs <;> simp [List.count_replicate] <;> omega

/-- R123 is the canonical code of the fixed lengths: the codewords of lengths 7, 8 and 9 begin at 0, 48 and
400. -/
theorem fixedLitlenCode_eq {s : Nat} (h : s < 288) :
    fixedLitlenCode s = (fixedLitlenLengths.getD s 0, codeword fixedLitlenLengths s) := by
  have h7 : firstCode fixedLitlenLengths 7 = 0 := by simp [firstCode, count_fixedLitlenLengths]
  have h8 : firstCode fixedLitlenLengths 8 = 48 := by simp [firstCode, count_fixedLitlenLengths]
  have h9 : firstCode fixedLitlenLengths 9 = 400 := by simp [firstCode, count_fixedLitlenLengths]
  rw [codeword, fixedLitlenLengths_rank h, fixedLitlenLengths_getD h, fixedLitlenCode]
  split_ifs <;> simp only [h7, h8, h9, Prod.mk.injEq, true_and] <;> omega

/-- R209's list of ORDER: 256 to 279, 0 to 143, 280 to 287, 144 to 255. -/
def fllSymbol (i : Nat) : Nat :=
  if i < 24 then 256 + i else if i < 168 then i - 24 else if i < 176 then 280 + (i - 168) else 144 + (i - 176)

theorem fllSymbol_lt {i : Nat} (h : i < 288) : fllSymbol i < 288 := by
  unfold fllSymbol
  split_ifs <;> omega

/-- BUILD places the symbols as R209 lists them: the buckets of lengths 7, 8 and 9 begin at 0, 24 and 176. -/
theorem orderIndex_fllSymbol {i : Nat} (h : i < 288) : orderIndex fixedLitlenLengths (fllSymbol i) = i := by
  have h7 : bucketStart fixedLitlenLengths 7 = 0 := by simp [bucketStart, count_fixedLitlenLengths]
  have h8 : bucketStart fixedLitlenLengths 8 = 24 := by simp [bucketStart, count_fixedLitlenLengths]
  have h9 : bucketStart fixedLitlenLengths 9 = 176 := by simp [bucketStart, count_fixedLitlenLengths]
  rw [orderIndex, fixedLitlenLengths_rank (fllSymbol_lt h), fixedLitlenLengths_getD (fllSymbol_lt h), fllSymbol]
  split_ifs <;> simp only [h7, h8, h9] <;> omega

theorem fll_countOf : ∀ L, L < 16 →
    fll.countOf L = if L = 7 then 24 else if L = 8 then 152 else if L = 9 then 112 else 0 := by
  decide

theorem fll_orderAt {i s : Nat} (h : i < 288) (hs : fllSymbol i = s) : fll.orderAt i = .ok s := by
  subst hs
  refine HuffTable.orderAt_of_toList
    (syms := List.range' 256 24 ++ List.range' 0 144 ++ List.range' 280 8 ++ List.range' 144 112) rfl ?_
    ((fllSymbol_lt h).trans (by decide))
  simp only [List.getElem?_append, List.length_append, List.length_range']
  split_ifs <;> rw [List.getElem?_range' (by omega), Option.some_inj, fllSymbol] <;> split_ifs <;> omega

theorem fll_eq_build (t : LLTable) : fll = t.build fixedLitlenLengths := by
  refine HuffTable.eq_build fixedLitlenLengths_length.le (by decide) (by decide)
    (fun _ => le_of_mem_fixedLitlenLengths) (fun L hL => ?_) fun i hi => ?_
  · rw [fll_countOf L hL, count_fixedLitlenLengths]
  · refine ⟨fllSymbol i, ?_, orderIndex_fllSymbol hi, fll_orderAt hi rfl⟩
    rw [fixedLitlenLengths_getD (fllSymbol_lt hi)]
    split_ifs <;> decide

/-! ## The fixed distance code -/

theorem fixedDistLengths_getD {c : Nat} (h : c < 32) : fixedDistLengths.getD c 0 = 5 :=
  List.getD_replicate _ h

theorem count_fixedDistLengths (L : Nat) : fixedDistLengths.count L = if L = 5 then 32 else 0 := by
  simp only [fixedDistLengths, List.count_replicate, beq_iff_eq, eq_comm (b := L)]

theorem count_take_fixedDistLengths {c : Nat} (h : c < 32) : (fixedDistLengths.take c).count 5 = c := by
  rw [fixedDistLengths, List.take_replicate, List.count_replicate_self, Nat.min_eq_left h.le]

theorem codeword_fixedDistLengths {c : Nat} (h : c < 32) : codeword fixedDistLengths c = c := by
  have h5 : firstCode fixedDistLengths 5 = 0 := by simp [firstCode, count_fixedDistLengths]
  rw [codeword, fixedDistLengths_getD h, count_take_fixedDistLengths h, h5, Nat.zero_add]

theorem orderIndex_fixedDistLengths {c : Nat} (h : c < 32) : orderIndex fixedDistLengths c = c := by
  have h5 : bucketStart fixedDistLengths 5 = 0 := by simp [bucketStart, count_fixedDistLengths]
  rw [orderIndex, fixedDistLengths_getD h, count_take_fixedDistLengths h, h5, Nat.zero_add]

theorem fdt_countOf : ∀ L, L < 16 → fdt.countOf L = if L = 5 then 32 else 0 := by
  decide

theorem fdt_orderAt {i : Nat} (h : i < 32) : fdt.orderAt i = .ok i :=
  HuffTable.orderAt_of_toList (syms := List.range 32) rfl (List.getElem?_range h) h

theorem fdt_eq_build (t : DTTable) : fdt = t.build fixedDistLengths := by
  refine HuffTable.eq_build (by decide) (by decide) (by decide) (by decide) (fun L hL => ?_) fun c hc => ?_
  · rw [fdt_countOf L hL, count_fixedDistLengths]
  · exact ⟨c, by rw [fixedDistLengths_getD hc]; decide, orderIndex_fixedDistLengths hc, fdt_orderAt hc⟩

/-- Settles O18: BUILD makes the two tables whatever the old table holds, so also from one of zeros. -/
theorem fixedTablesAreBuilt : Obligations.FixedTablesAreBuilt :=
  ⟨fll_eq_build _, fll_countOf,
    fun _ h => fll_orderAt (h.trans (by decide)) (if_pos h),
    fun _ _ => fll_orderAt (by omega) (by unfold fllSymbol; split_ifs <;> omega),
    fun _ _ => fll_orderAt (by omega) (by unfold fllSymbol; split_ifs <;> omega),
    fun _ _ => fll_orderAt (by omega) (by unfold fllSymbol; split_ifs <;> omega),
    fdt_eq_build _, fdt_countOf, fun _ => fdt_orderAt, fun _ => fixedLitlenCode_eq,
    fun _ h => ⟨fixedDistLengths_getD h, codeword_fixedDistLengths h⟩⟩

end Sys2Proof.Machine
end

section
/-! One step of the block as an equation: `fetch` takes exactly what `Fetches` lists, and the step is that
element's meaning committed whole, or the error of the read that failed (R10, R127, R332). -/

namespace Sys2Proof.Machine

/-! ## Taking an element -/

/-- The row of a length code is the length symbol of that code. -/
theorem decode_of_lengthCode {i : Instr} {c : Nat} (h : i.lengthCode? = some c) :
    decode .litlenSymbol (257 + c) = .ok i := by
  cases i
  case lit b =>
    have hb : ¬ 257 ≤ b.toNat := Nat.not_le_of_lt (Nat.lt_trans b.isLt (by decide))
    simp [Instr.lengthCode?, encode, hb] at h
  all_goals
    simp [Instr.lengthCode?, encode] at h
  all_goals
    subst h
    rfl

/-- The row of a distance code is the distance symbol of that code. -/
theorem decode_of_distanceCode {i : Instr} {c : Nat} (h : i.distanceCode? = some c) :
    decode .distanceSymbol c = .ok i := by
  cases i <;> simp [Instr.distanceCode?, encode] at h
  all_goals
    subst h
    rfl

/-- `fetch` takes everything that `Fetches` lists; `fetch_ok` is the converse. -/
theorem Fetches.fetch_eq {s : State} {i : Instr} {r : BitReader} (h : Fetches s i r) :
    fetch s = some (.ok (i, r)) := by
  cases h with
  | header hs hf ht =>
    simp only [fetch, hs, fetchHeader, hf, ht, element,
      decode_header _ _ (getBits_ok hf).2.1 (getBits_ok ht).2.1]
  | storedHeader hs hl hn =>
    simp only [fetch, hs, fetchStoredHeader, hl, hn, element, decode_stored (readU16le_lt hl) (readU16le_lt hn)]
  | storedByte hs hb => simp only [fetch, hs, fetchStoredByte, hb, element, decode_storedData]
  | dynHeader hs ha hb hc =>
    simp only [fetch, hs, fetchDynHeader, ha, hb, hc, element,
      decode_dynamicHeader (getBits_ok ha).2.1 (getBits_ok hb).2.1 (getBits_ok hc).2.1]
  | clLength hs hl => simp only [fetch, hs, fetchClLength, hl, element, decode_clLength (getBits_ok hl).2.1]
  | cl hs hv hd => simp only [fetch, hs, fetchClSymbol, hd, element, decode_cl hv]
  | cl16 hs hd => simp only [fetch, hs, fetchClSymbol, hd, element, decode_cl16]
  | cl17 hs hd => simp only [fetch, hs, fetchClSymbol, hd, element, decode_cl17]
  | cl18 hs hd => simp only [fetch, hs, fetchClSymbol, hd, element, decode_cl18]
  | lit hs hv hd => simp only [fetch, hs, fetchLitlen, hd, element, decode_lit hv]
  | eob hs hd => simp only [fetch, hs, fetchLitlen, hd, element, decode_eob]
  | lengthCode hs _ hi hd => simp only [fetch, hs, fetchLitlen, hd, element, decode_of_lengthCode hi]
  | lsym286 hs hd => simp only [fetch, hs, fetchLitlen, hd, element, decode_lsym286]
  | lsym287 hs hd => simp only [fetch, hs, fetchLitlen, hd, element, decode_lsym287]
  | distanceCode hs _ hi hd => simp only [fetch, hs, fetchDistance, hd, element, decode_of_distanceCode hi]

/-! ## The step that takes it -/

theorem ite_ne_error {p : Prop} [Decidable p] {f g : Fsm} (hf : f ≠ .error) (hg : g ≠ .error) :
    (if p then f else g) ≠ .error := by
  split <;> assumption

section Step
variable {s t : State} {i : Instr} {r : BitReader} {e : ErrCode}

theorem step_of_fetches (hs : s.host = []) (h : Fetches s i r) : step s = commit s (exec i (s.setBr r)) := by
  rw [step_silent hs, blockStep_of_fetch h.fetch_eq, runElement]

/-- A meaning that completes is committed whole. -/
theorem step_completes (hs : s.host = []) (h : Fetches s i r) (hx : exec i (s.setBr r) = .next t)
    (ht : t.fsm ≠ .error) : step s = .next t := by
  rw [step_of_fetches hs h, hx, commit_next ht]

/-- A meaning that raises gives back the bits its element took. -/
theorem step_raises (hs : s.host = []) (h : Fetches s i r)
    (hx : exec i (s.setBr r) = .next ((s.setBr r).raiseError e)) : step s = .next (s.raiseError e) := by
  rw [step_of_fetches hs h, hx]
  rfl

/-- An element that cannot be read raises the error of its read. -/
theorem step_of_fetch_raise (hs : s.host = []) (h : fetch s = some (.error (.raise e))) :
    step s = .next (s.raiseError e) := by
  rw [step_silent hs, blockStep_of_fetch h]
  rfl

/-- A state that takes no element runs its own rule. -/
theorem step_internal (hs : s.host = []) (h : fetch s = none) (hx : internalStep s = .next t) :
    step s = .next t := by
  rw [step_silent hs, blockStep, h, hx]

end Step

end Sys2Proof.Machine
end

section
/-! The block header and the stored block in a step: HDR (R241), STORED_HDR (R243) and STORED_COPY (R244). -/

namespace Sys2Proof.Machine

/-! ## HDR -/

/-- Settles O23: one case for each BTYPE, and one for each of the two reads that can fail. -/
theorem headerStepDispatches : Obligations.HeaderStepDispatches := by
  intro s hs hfsm
  refine ⟨fun f r1 t r2 hf ht => ⟨?_, ?_, ?_, ?_⟩, fun e hf => ?_, fun f r1 e hf ht => ?_⟩
  · rintro rfl
    exact step_completes hs (.header hfsm hf ht) rfl nofun
  · rintro rfl
    exact step_completes hs (.header hfsm hf ht) rfl nofun
  · rintro rfl
    exact step_completes hs (.header hfsm hf ht) rfl nofun
  · rintro rfl
    exact step_raises hs (.header hfsm hf ht) rfl
  · exact step_of_fetch_raise hs (by simp only [fetch, hfsm, fetchHeader, hf])
  · exact step_of_fetch_raise hs (by simp only [fetch, hfsm, fetchHeader, hf, ht])

/-! ## STORED_HDR -/

theorem toNat_ofNat_of_lt {w n : Nat} (h : n < 2 ^ w) : (BitVec.ofNat w n).toNat = n := by
  rw [BitVec.toNat_ofNat, Nat.mod_eq_of_lt h]

theorem eq_complement16_iff {len nlen : BitVec 16} : len = complement16 nlen ↔ len.toNat = 0xFFFF - nlen.toNat := by
  rw [complement16, BitVec.toNat_eq, BitVec.toNat_not]

theorem exec_stored_match {len nlen : BitVec 16} {s : State} (h : len.toNat = 0xFFFF - nlen.toNat) :
    exec (.stored len nlen) s =
      .next { s with stRem := len, fsm := if len = 0 then .blockEnd else .storedCopy } := by
  rw [exec, execStored, if_neg (not_not.2 (eq_complement16_iff.2 h))]
  rfl

theorem exec_stored_mismatch {len nlen : BitVec 16} {s : State} (h : len.toNat ≠ 0xFFFF - nlen.toNat) :
    exec (.stored len nlen) s = .next (s.raiseError .storedLenMismatch) := by
  rw [exec, execStored, if_pos (mt eq_complement16_iff.1 h)]
  rfl

/-- Settles O25: the two fields are below 2^16, so the registers they go to hold them unchanged. -/
theorem storedHeaderStep : Obligations.StoredHeaderStep := by
  intro s hs hfsm
  refine ⟨fun len r1 nlen r2 hl hn => ?_, fun e hl => ?_, fun len r1 e hl hn => ?_⟩
  · have hlen : (BitVec.ofNat 16 len).toNat = len := toNat_ofNat_of_lt (readU16le_lt hl)
    have hnlen : (BitVec.ofNat 16 nlen).toNat = nlen := toNat_ofNat_of_lt (readU16le_lt hn)
    have hfetch := Fetches.storedHeader hfsm hl hn
    refine ⟨fun hne => step_raises hs hfetch (exec_stored_mismatch (by rwa [hlen, hnlen])), fun heq => ?_⟩
    have hzero : BitVec.ofNat 16 len = 0 ↔ len = 0 := by rw [← BitVec.toNat_inj, hlen]; rfl
    rw [step_completes hs hfetch (exec_stored_match (by rwa [hlen, hnlen])) (ite_ne_error nofun nofun)]
    simp only [hzero]
    rfl
  · exact step_of_fetch_raise hs (by simp only [fetch, hfsm, fetchStoredHeader, dropAlign, hl])
  · exact step_of_fetch_raise hs (by simp only [fetch, hfsm, fetchStoredHeader, dropAlign, hl, hn])

/-! ## STORED_COPY -/

/-- A stored byte while one is left to copy and the output has room, with the count in numbers. -/
theorem exec_storedByte_append {b : Byte} {s : State} (h : 1 ≤ s.stRem.toNat) (ho : s.outLen ≠ s.params.outCap) :
    exec (.storedByte b) s = .next { s with
      outMem := s.outMem.write s.outLen b, outLen := s.outLen + 1,
      stRem := BitVec.ofNat 16 (s.stRem.toNat - 1),
      fsm := if s.stRem.toNat = 1 then .blockEnd else s.fsm } := by
  have h0 : s.stRem ≠ 0 := by bv_omega
  have hsub : s.stRem - 1 = BitVec.ofNat 16 (s.stRem.toNat - 1) := by bv_omega
  have hlast : s.stRem - 1 = 0 ↔ s.stRem.toNat = 1 := by bv_omega
  rw [exec, execStoredByte, if_neg h0, outAppend_ok.2 ⟨ho, rfl⟩]
  simp only [finish_ok, State.countStored, State.pushByte, hlast]
  rw [hsub]

theorem exec_storedByte_full {b : Byte} {s : State} (h : 1 ≤ s.stRem.toNat) (ho : s.outLen = s.params.outCap) :
    exec (.storedByte b) s = .next (s.raiseError .outputOverflow) := by
  have h0 : s.stRem ≠ 0 := by bv_omega
  rw [exec, execStoredByte, if_neg h0, outAppend_error.2 ⟨ho, rfl⟩]
  rfl

/-- Settles O26: READ_BYTE has two outcomes, and the byte that it reads may find the output full. -/
theorem storedCopyStep : Obligations.StoredCopyStep := by
  intro s hs hfsm hrem
  refine ⟨fun b hpos hb ho => ?_, fun hpos => ?_, fun b hpos hb ho => ?_⟩
  · have hfetch := Fetches.storedByte hfsm (readByte_ok.2 ⟨hpos, hb, rfl⟩)
    rw [step_completes hs hfetch (exec_storedByte_append hrem ho) (ite_ne_error nofun (hfsm ▸ nofun)), ← hfsm]
    rfl
  · exact step_of_fetch_raise hs (by simp only [fetch, hfsm, fetchStoredByte, readByte_truncated hpos])
  · have hfetch := Fetches.storedByte hfsm (readByte_ok.2 ⟨hpos, hb, rfl⟩)
    exact step_raises hs hfetch (exec_storedByte_full hrem ho)

end Sys2Proof.Machine
end

section
/-! The dynamic header in a step: DYN_HDR (R245), DYN_CLLEN (R246), the steps that build the tables (R247,
R255), BLOCK_END (R256), and the checks of a repeat (R250, R253). -/

namespace Sys2Proof.Machine

/-! ## DYN_HDR and DYN_CLLEN -/

/-- Settles O29: the reads in order, each of which can fail. -/
theorem dynHeaderStep : Obligations.DynHeaderStep := by
  intro s hs hfsm
  refine ⟨fun a r1 b r2 c r3 ha hb hc => step_completes hs (.dynHeader hfsm ha hb hc) rfl nofun, ?_⟩
  rintro e (ha | ⟨a, r1, ha, hb⟩ | ⟨a, r1, b, r2, ha, hb, hc⟩)
  · exact step_of_fetch_raise hs (by simp only [fetch, hfsm, fetchDynHeader, ha])
  · exact step_of_fetch_raise hs (by simp only [fetch, hfsm, fetchDynHeader, ha, hb])
  · exact step_of_fetch_raise hs (by simp only [fetch, hfsm, fetchDynHeader, ha, hb, hc])

theorem perm_getElem? {k : Nat} (h : k < 19) : perm[k]? = some (perm.getD k 0) := by
  have hk : k < perm.length := h
  rw [List.getElem?_eq_getElem hk, List.getD_eq_getElem _ _ hk]

/-- CLLEN while PERM has an entry for CL_IDX, with the index in numbers. -/
theorem exec_cllen {l : BitVec 3} {s : State} (h : s.clIdx.toNat < 19) :
    exec (.cllen l) s = .next { s with
      clLens := s.clLens.setIfInBounds (perm.getD s.clIdx.toNat 0) l,
      clIdx := BitVec.ofNat 5 (s.clIdx.toNat + 1),
      fsm := if s.clIdx.toNat + 1 = s.hclen.toNat then .dynClBuild else s.fsm } := by
  have hadd : s.clIdx + 1 = BitVec.ofNat 5 (s.clIdx.toNat + 1) := by bv_omega
  have hlast : s.clIdx + 1 = s.hclen ↔ s.clIdx.toNat + 1 = s.hclen.toNat := by bv_omega
  rw [exec, execCllen, perm_getElem? h]
  simp only [hlast]
  rw [hadd]
  rfl

/-- Settles O30: CL_IDX is below HCLEN, so PERM has an entry for it. -/
theorem clLenStep : Obligations.ClLenStep := by
  refine ⟨rfl, fun s hs hfsm hidx hclen => ⟨fun l r hl => ?_, fun e hl => ?_⟩⟩
  · rw [step_completes hs (.clLength hfsm hl) (exec_cllen (Nat.lt_of_lt_of_le hidx hclen))
      (ite_ne_error nofun (hfsm ▸ nofun)), ← hfsm]
    rfl
  · exact step_of_fetch_raise hs (by simp only [fetch, hfsm, fetchClLength, hl])

/-! ## The steps that read no bit -/

/-- The code lengths a table is built from: `k` entries of an array from `a` on, read one by one. -/
theorem window_eq_map_range {w n a k : Nat} (v : Vector (BitVec w) n) (h : a + k ≤ n) :
    ((v.toList.map BitVec.toNat).drop a).take k = (List.range k).map fun i => (v[a + i]?.getD 0).toNat := by
  refine List.ext_getElem (by simp; omega) fun i hi _ => ?_
  have hik : a + i < n := by simp at hi; omega
  simp [hik]

theorem clLens_eq_map_range (s : State) :
    s.clLens.toList.map BitVec.toNat = (List.range 19).map fun i => (s.clLens[i]?.getD 0).toNat := by
  have h := window_eq_map_range (a := 0) (k := 19) s.clLens (by decide)
  rw [List.drop_zero, List.take_of_length_le (by simp)] at h
  simpa only [Nat.zero_add] using h

theorem litlenLengths_eq_map_range {s : State} (h : s.hlit.toNat ≤ 320) :
    s.litlenLengths = (List.range s.hlit.toNat).map fun i => (s.lens[i]?.getD 0).toNat := by
  have h := window_eq_map_range (a := 0) s.lens (by omega : 0 + s.hlit.toNat ≤ 320)
  simpa only [State.litlenLengths, List.drop_zero, Nat.zero_add] using h

theorem distLengths_eq_map_range {s : State} (h : s.hlit.toNat + s.hdist.toNat ≤ 320) :
    s.distLengths = (List.range s.hdist.toNat).map fun i => (s.lens[s.hlit.toNat + i]?.getD 0).toNat :=
  window_eq_map_range s.lens h

/-- Settles O32: the lists that BUILD is given are windows of CL_LENS and of LENS. -/
theorem buildAndBlockEndSteps : Obligations.BuildAndBlockEndSteps := by
  refine ⟨fun s hs hfsm => ?_, fun s hs hfsm hlit hdist => ?_, fun s hs hfsm => ?_⟩
  · rw [step_internal hs (by rw [fetch, hfsm]) (by rw [internalStep, hfsm]), dynClBuildStep, clLens_eq_map_range]
    rfl
  · have hcounts : ¬ (Config.llAlphaMax < s.hlit.toNat ∨ Config.distAlphaMax < s.hdist.toNat) := by
      unfold Config.llAlphaMax Config.distAlphaMax
      omega
    rw [step_internal hs (by rw [fetch, hfsm]) (by rw [internalStep, hfsm, dynBuildStep, if_neg hcounts, finish_ok]),
      litlenLengths_eq_map_range (by omega), distLengths_eq_map_range (by omega)]
    rfl
  · rw [step_internal hs (by rw [fetch, hfsm]) (by rw [internalStep, hfsm]), blockEndStep]
    split <;> rfl

/-! ## The checks of a repeat -/

/-- A repeat whose extra bits can be read is the check of its fit (R250 to R253). -/
theorem exec_repeat {i : Instr} {s : State} {n base x : Nat} {r : BitReader} (hlk : s.lk.toNat ≤ 320)
    (hi : i = .cl16 ∧ s.lk ≠ 0 ∧ n = 2 ∧ base = 3 ∨ i = .cl17 ∧ n = 3 ∧ base = 3 ∨
      i = .cl18 ∧ n = 7 ∧ base = 11)
    (hx : getBits s.inMem s.inLen n s.br = .ok (x, r)) :
    ∃ v, exec i s = finish s (fitLens v (x + base) (s.setBr r)) := by
  obtain ⟨rfl, h0, rfl, rfl⟩ | ⟨rfl, rfl, rfl⟩ | ⟨rfl, rfl, rfl⟩ := hi
  · have hprev : s.lk.toNat - 1 < 320 := by bv_omega
    refine ⟨s.lens[s.lk.toNat - 1], ?_⟩
    rw [exec, execCl16, repeatPrev, if_neg h0, State.getBits, hx]
    simp only [State.lensAt_ok.2 (Vector.getElem?_eq_getElem hprev), repeatCount16]
  · exact ⟨0, by rw [exec, execCl17, zeroLens, State.getBits, hx]; rfl⟩
  · exact ⟨0, by rw [exec, execCl18, zeroLens, State.getBits, hx]; rfl⟩

theorem fitLens_past {v : BitVec 4} {k : Nat} {s : State} (h : s.totalLens < s.lk.toNat + k) :
    fitLens v k s = .error (.raise .invalidDynamicTree) := by
  rw [fitLens, if_pos h]

theorem fitLens_fits {v : BitVec 4} {k : Nat} {s : State} (ht : s.totalLens ≤ 320)
    (h : s.lk.toNat + k ≤ s.totalLens) :
    fitLens v k s = .ok { s with
      lens := fillLens s.lens s.lk.toNat v k, lk := BitVec.ofNat 9 (s.lk.toNat + k),
      fsm := if s.lk.toNat + k = s.totalLens then .dynBuild else s.fsm } :=
  fitLens_ok.2 ⟨h, putLens_ok.2 ⟨h.trans ht, rfl⟩⟩

/-- Settles O35: a repeat comes down to `fitLens`, which the target splits. -/
theorem repeatsAreChecked : Obligations.RepeatsAreChecked := by
  refine ⟨fun s h0 => ?_, fun i s n base x r ht hlk hi hx => ?_⟩
  · rw [exec, execCl16, repeatPrev, if_pos h0]
    rfl
  · obtain ⟨v, hexec⟩ := exec_repeat (hlk.trans ht) hi hx
    refine ⟨fun hpast => ?_, fun hfit => ?_⟩
    · rw [hexec, fitLens_past (s := s.setBr r) hpast]
      rfl
    · rw [fitLens_fits (s := s.setBr r) ht hfit.le] at hexec
      refine ⟨_, hexec, if_pos hfit, ?_⟩
      show (BitVec.ofNat 9 (s.lk.toNat + (x + base))).toNat = s.totalLens
      rw [hfit, toNat_ofNat_of_lt (by omega)]

end Sys2Proof.Machine
end

section
/-! The body of a compressed block in a step: SYM (R290 to R294), DIST (R295, R296) and COPY (R297), and what
the COPY steps of one back-reference write together (R298). -/

namespace Sys2Proof.Machine

/-! ## Literals, end of block and the invalid symbols -/

theorem exec_lit_append {b : Byte} {s : State} (ho : s.outLen ≠ s.params.outCap) :
    exec (.lit b) s = .next (s.pushByte b) := by
  rw [exec, execLit, outAppend_ok.2 ⟨ho, rfl⟩, finish_ok]

theorem exec_lit_full {b : Byte} {s : State} (ho : s.outLen = s.params.outCap) :
    exec (.lit b) s = .next (s.raiseError .outputOverflow) := by
  rw [exec, execLit, outAppend_error.2 ⟨ho, rfl⟩, finish_raise]

/-- Settles O37: a literal is OutAppend of its byte, which the capacity splits. -/
theorem literalAndEndComplete : Obligations.LiteralAndEndComplete :=
  fun _ _ => ⟨exec_lit_append, exec_lit_full, rfl⟩

/-- A distance code that R295 rejects stops before its extra bits. -/
theorem distanceSymbol_invalid {c : Nat} {s : State} (h : 30 ≤ c) :
    distanceSymbol c s = .error (.raise .invalidDistanceCode) := by
  rw [distanceSymbol, if_pos h]

/-- Settles O42: both meanings are the error alone. -/
theorem invalidSymbolsRaise : Obligations.InvalidSymbolsRaise := by
  refine fun s => ⟨rfl, rfl, ?_, ?_⟩
  · rw [exec_distanceCode (c := 30) rfl, distanceSymbol_invalid (by decide)]
    rfl
  · rw [exec_distanceCode (c := 31) rfl, distanceSymbol_invalid (by decide)]
    rfl

/-! ## SYM -/

theorem llSel_eq (s : State) : s.llSel = if s.tsel = .fixed then fll else s.ll := by
  rw [State.llSel]
  cases s.tsel <;> rfl

/-- A value above the alphabet has no row, and takes the last branch of R290. -/
theorem fetch_litlen_above {s : State} {v : Nat} {r : BitReader} (hfsm : s.fsm = .sym)
    (hd : decodeSym s.llSel s.inMem s.inLen s.br = .ok (v, r)) (hv : 288 ≤ v) :
    fetch s = some (.error (.raise .invalidLitlenCode)) := by
  obtain ⟨e, he⟩ := decode_litlen_error hv
  simp only [fetch, hfsm, fetchLitlen, hd, element, he]

theorem exec_lengthCode_error {i : Instr} {c : Nat} {s : State} {e : ErrCode} (hi : i.lengthCode? = some c)
    (hx : getBits s.inMem s.inLen (lenExtra c) s.br = .error (.raise e)) :
    exec i s = .next (s.raiseError e) := by
  rw [exec_lengthCode hi, lengthSymbol_error.2 hx, finish_raise]

theorem exec_lengthCode_of_getBits {i : Instr} {c x : Nat} {s : State} {r : BitReader}
    (hi : i.lengthCode? = some c) (hx : getBits s.inMem s.inLen (lenExtra c) s.br = .ok (x, r)) :
    exec i s = .next { s with br := r, mLen := BitVec.ofNat 9 (lenOf c x), fsm := .dist } := by
  rw [exec_lengthCode hi, lengthSymbol_of_getBits hx, finish_ok]

/-- Every symbol above 285 raises the same error (R290, R294). -/
theorem step_invalid_litlen {s : State} {v : Nat} {r : BitReader} (hs : s.host = []) (hfsm : s.fsm = .sym)
    (hd : decodeSym s.llSel s.inMem s.inLen s.br = .ok (v, r)) (hv : 286 ≤ v) :
    step s = .next (s.raiseError .invalidLitlenCode) := by
  obtain rfl | rfl | habove : v = 286 ∨ v = 287 ∨ 288 ≤ v := by omega
  · exact step_raises hs (.lsym286 hfsm hd) rfl
  · exact step_raises hs (.lsym287 hfsm hd) rfl
  · exact step_of_fetch_raise hs (fetch_litlen_above hfsm hd habove)

/-- Settles O36: the symbol's range says which element the step takes. -/
theorem litlenStep : Obligations.LitlenStep := by
  intro s hs hfsm
  rw [← llSel_eq]
  refine ⟨fun v r hd => ⟨fun hv ho => ?_, fun hv ho => ?_, ?_, fun hv hv' => ?_, ?_⟩, fun e hd => ?_⟩
  · exact step_completes hs (.lit hfsm (Nat.lt_succ_of_le hv) hd) (exec_lit_append ho) (hfsm ▸ nofun)
  · exact step_raises hs (.lit hfsm (Nat.lt_succ_of_le hv) hd) (exec_lit_full ho)
  · rintro rfl
    exact step_completes hs (.eob hfsm hd) rfl nofun
  · obtain ⟨i, -, hi⟩ := decode_lengthCode hv hv'
    have hfetch : Fetches s i r := .lengthCode hfsm (by omega) hi (by rwa [Nat.add_sub_cancel' hv])
    exact ⟨fun x r2 hx => step_completes hs hfetch (exec_lengthCode_of_getBits hi hx) nofun,
      fun e hx => step_raises hs hfetch (exec_lengthCode_error hi hx)⟩
  · exact step_invalid_litlen hs hfsm hd
  · exact step_of_fetch_raise hs (by simp only [fetch, hfsm, fetchLitlen, hd])

/-! ## DIST -/

theorem dtSel_eq (s : State) : s.dtSel = if s.tsel = .fixed then fdt else s.dt := by
  rw [State.dtSel]
  cases s.tsel <;> rfl

/-- A value that 5 bits cannot hold has no row, and takes the error of R295. -/
theorem fetch_distance_above {s : State} {c : Nat} {r : BitReader} (hfsm : s.fsm = .dist)
    (hd : decodeSym s.dtSel s.inMem s.inLen s.br = .ok (c, r)) (hc : 32 ≤ c) :
    fetch s = some (.error (.raise .invalidDistanceCode)) := by
  simp only [fetch, hfsm, fetchDistance, hd, element, decode_tooWide (f := .distanceSymbol) hc]

/-- Every code above 29 raises the same error (R295). -/
theorem step_invalid_distance {s : State} {c : Nat} {r : BitReader} (hs : s.host = []) (hfsm : s.fsm = .dist)
    (hd : decodeSym s.dtSel s.inMem s.inLen s.br = .ok (c, r)) (hc : 30 ≤ c) :
    step s = .next (s.raiseError .invalidDistanceCode) := by
  by_cases habove : 32 ≤ c
  · exact step_of_fetch_raise hs (fetch_distance_above hfsm hd habove)
  · obtain ⟨i, -, hi⟩ := decode_distanceCode (not_le.1 habove)
    refine step_raises hs (.distanceCode hfsm (not_le.1 habove) hi hd) ?_
    rw [exec_distanceCode hi, distanceSymbol_invalid hc, finish_raise]

theorem distanceSymbol_tooFar {c x : Nat} {s : State} {r : BitReader} (hc : c < 30)
    (hx : getBits s.inMem s.inLen (distExtra c) s.br = .ok (x, r)) (hfar : s.outLen < distOf c x) :
    distanceSymbol c s = .error (.raise .distanceTooFar) := by
  rw [distanceSymbol, if_neg (not_le.2 hc), State.getBits, hx]
  exact if_pos hfar

theorem distanceSymbol_of_getBits_error {c : Nat} {s : State} {e : Stop} (hc : c < 30)
    (hx : getBits s.inMem s.inLen (distExtra c) s.br = .error e) : distanceSymbol c s = .error e := by
  rw [distanceSymbol, if_neg (not_le.2 hc), State.getBits, hx]

/-- Settles O40: the checks in R295's order, each before the next thing is read or written. -/
theorem distanceStep : Obligations.DistanceStep := by
  intro s hs hfsm
  rw [← dtSel_eq]
  refine ⟨fun c r hd => ⟨step_invalid_distance hs hfsm hd, fun hc => ?_⟩, fun e hd => ?_⟩
  · obtain ⟨i, -, hi⟩ := decode_distanceCode (hc.trans (by decide : 30 < 32))
    have hfetch : Fetches s i r := .distanceCode hfsm (hc.trans (by decide)) hi hd
    have hexec := exec_distanceCode hi (s.setBr r)
    refine ⟨fun x r2 hx => ⟨fun hnear => ?_, fun hfar => ?_⟩, fun e hx => ?_⟩
    · rw [distanceSymbol_of_getBits (s := s.setBr r) hc hx hnear, finish_ok] at hexec
      exact step_completes hs hfetch hexec nofun
    · rw [distanceSymbol_tooFar (s := s.setBr r) hc hx hfar, finish_raise] at hexec
      exact step_raises hs hfetch hexec
    · rw [distanceSymbol_of_getBits_error (s := s.setBr r) hc hx, finish_raise] at hexec
      exact step_raises hs hfetch hexec
  · exact step_of_fetch_raise hs (by simp only [fetch, hfsm, fetchDistance, hd])

/-! ## COPY -/

theorem step_copy {s : State} (hs : s.host = []) (hfsm : s.fsm = .copy) : step s = finish s (copyStep s) := by
  rw [step_silent hs, blockStep, show fetch s = none by rw [fetch, hfsm]]
  show internalStep s = _
  rw [internalStep, hfsm]

/-- The count of COPY while bytes are left, in numbers. -/
theorem State.countCopy_eq {s : State} (h : 1 ≤ s.mRem.toNat) :
    s.countCopy = { s with
      mRem := BitVec.ofNat 9 (s.mRem.toNat - 1), fsm := if s.mRem.toNat = 1 then .sym else s.fsm } := by
  have hsub : s.mRem - 1 = BitVec.ofNat 9 (s.mRem.toNat - 1) := by bv_omega
  have hlast : s.mRem - 1 = 0 ↔ s.mRem.toNat = 1 := by bv_omega
  simp only [State.countCopy, hlast]
  rw [hsub]

section Operands
variable {s : State} {b : Byte}

/-- COPY within its operands while the output has room (R297). -/
theorem step_copy_append (hs : s.host = []) (hfsm : s.fsm = .copy) (hrem : 1 ≤ s.mRem.toNat)
    (hdist : 1 ≤ s.mDist.toNat) (hle : s.mDist.toNat ≤ s.outLen)
    (hb : s.outMem.read? (s.outLen - s.mDist.toNat) = some b) (ho : s.outLen ≠ s.params.outCap) :
    step s = .next { s with
      outMem := s.outMem.write s.outLen b, outLen := s.outLen + 1,
      mRem := BitVec.ofNat 9 (s.mRem.toNat - 1), fsm := if s.mRem.toNat = 1 then .sym else .copy } := by
  have h0 : s.mRem ≠ 0 := by bv_omega
  rw [step_copy hs hfsm, copyStep_ok.2 ⟨h0, hle, ho, b, by omega, hb, rfl⟩, finish_ok,
    State.countCopy_eq (s := s.pushByte b) hrem, ← hfsm]
  rfl

/-- COPY within its operands where the output is full (R297). -/
theorem step_copy_full (hs : s.host = []) (hfsm : s.fsm = .copy) (hrem : 1 ≤ s.mRem.toNat)
    (hdist : 1 ≤ s.mDist.toNat) (hle : s.mDist.toNat ≤ s.outLen)
    (hb : s.outMem.read? (s.outLen - s.mDist.toNat) = some b) (ho : s.outLen = s.params.outCap) :
    step s = .next (s.raiseError .outputOverflow) := by
  have h0 : s.mRem ≠ 0 := by bv_omega
  rw [step_copy hs hfsm, copyStep, if_neg h0, if_neg (not_lt.2 hle), outRead_ok.2 ⟨by omega, hb⟩]
  simp only [outAppend_error.2 ⟨ho, rfl⟩, finish_raise]

end Operands

/-- Settles O43: the capacity splits the step. (The model's own function has the name `copyStep`.) -/
theorem copyStepCopiesOneByte : Obligations.CopyStep :=
  fun _ _ hs hfsm hrem hdist hle hb =>
    ⟨step_copy_append hs hfsm hrem hdist hle hb, step_copy_full hs hfsm hrem hdist hle hb⟩

/-! ## The COPY steps of one back-reference -/

/-- `n` bytes of a back-reference are left to copy, with the operands and the output they need; where none
is left the block is in SYM. -/
structure CopiesLeft (s : State) (n : Nat) : Prop where
  host     : s.host = []
  fsm      : s.fsm = if n = 0 then .sym else .copy
  rem      : s.mRem.toNat = n
  distPos  : 1 ≤ s.mDist.toNat
  distLe   : s.mDist.toNat ≤ s.outLen
  room     : s.outLen + n ≤ s.params.outCap
  written  : ∀ a, a < s.outLen → (s.outMem.read? a).isSome = true

/-- The invariant gives the operands of a back-reference in COPY (R297). -/
theorem Inv.copiesLeft {s : State} (hinv : Inv s) (hs : s.host = []) (hfsm : s.fsm = .copy)
    (hroom : s.outLen + s.mRem.toNat ≤ s.params.outCap) : CopiesLeft s s.mRem.toNat := by
  obtain ⟨hrem, -, hpos, hle⟩ := hinv.copy hfsm
  exact ⟨hs, by rw [hfsm, if_neg (by omega)], rfl, hpos, hle, hroom, hinv.outWritten⟩

/-- One COPY step of a back-reference: the byte at the distance is appended, and one byte fewer is left. -/
theorem CopiesLeft.step_next {s : State} {n : Nat} (h : CopiesLeft s (n + 1)) :
    ∃ u, step s = .next u ∧ CopiesLeft u n ∧ u.mDist = s.mDist ∧ u.outLen = s.outLen + 1 ∧
      u.outMem.read? s.outLen = s.outMem.read? (s.outLen - s.mDist.toNat) ∧
      ∀ a, a < s.outLen → u.outMem.read? a = s.outMem.read? a := by
  obtain ⟨hs, hfsm, hrem, hpos, hle, hroom, hwritten⟩ := h
  obtain ⟨b, hb⟩ := Option.isSome_iff_exists.1 (hwritten (s.outLen - s.mDist.toNat) (by omega))
  refine ⟨_, step_copy_append hs hfsm (by omega) hpos hle hb (by omega), ?_, rfl, rfl, by simp [hb],
    fun a ha => by simp [ha.ne]⟩
  have hn : n < 2 ^ 9 := by have := s.mRem.isLt; omega
  refine ⟨hs, by simp [hrem], ?_, hpos, Nat.le_succ_of_le hle, ?_, fun a ha => ?_⟩
  · show (BitVec.ofNat 9 (s.mRem.toNat - 1)).toNat = n
    rw [hrem, Nat.add_sub_cancel, toNat_ofNat_of_lt hn]
  · show s.outLen + 1 + n ≤ s.params.outCap
    omega
  · rw [Memory.read?_write]
    split
    case isTrue => rfl
    case isFalse hne => exact hwritten a (Nat.lt_of_le_of_ne (Nat.le_of_lt_succ ha) hne)

/-- The COPY steps of a back-reference make every byte that they write equal to the byte at the distance
before it, in the output as they leave it. -/
theorem CopiesLeft.run_next {s : State} {n : Nat} (h : CopiesLeft s n) :
    ∃ t : State, core.run n s = .next t ∧ t.fsm = .sym ∧ t.outLen = s.outLen + n ∧
      (∀ i, i < n → t.outMem.read? (s.outLen + i) = t.outMem.read? (s.outLen + i - s.mDist.toNat)) ∧
      ∀ a, a < s.outLen → t.outMem.read? a = s.outMem.read? a := by
  induction n generalizing s with
  | zero => exact ⟨s, core_run_zero s, h.fsm, rfl, nofun, fun _ _ => rfl⟩
  | succ n ih =>
    obtain ⟨u, hstep, hleft, hdist, hlen, hnew, hkeep⟩ := h.step_next
    obtain ⟨t, hrun, hsym, hout, hperiod, hframe⟩ := ih hleft
    rw [hlen] at hout hperiod hframe
    rw [hdist] at hperiod
    have hpos := h.distPos
    have hle := h.distLe
    refine ⟨t, (core_run_succ n hstep).trans hrun, hsym, by omega, fun i hi => ?_, fun a ha => ?_⟩
    · cases i with
      | zero =>
        have hsource : s.outLen - s.mDist.toNat < s.outLen := by omega
        rw [Nat.add_zero, hframe _ (Nat.lt_succ_self _), hnew, hframe _ (hsource.trans (Nat.lt_succ_self _)),
          hkeep _ hsource]
      | succ i =>
        have hshift : s.outLen + (i + 1) = s.outLen + 1 + i := by omega
        rw [hshift]
        exact hperiod i (Nat.lt_of_succ_lt_succ hi)
    · rw [hframe a (by omega), hkeep a ha]

/-- Bytes that each equal the one `d` before repeat the `d` bytes before the first of them. -/
theorem Memory.read?_of_period {m : Memory} {a d n : Nat} (hd : 1 ≤ d) (hle : d ≤ a)
    (h : ∀ i, i < n → m.read? (a + i) = m.read? (a + i - d)) (i : Nat) (hi : i < n) :
    m.read? (a + i) = m.read? (a - d + i % d) := by
  induction i using Nat.strong_induction_on with
  | _ i ih =>
    rw [h i hi]
    by_cases hid : i < d
    · rw [Nat.mod_eq_of_lt hid, Nat.sub_add_comm hle]
    · have hid : d ≤ i := not_lt.1 hid
      rw [Nat.add_sub_assoc hid, ih (i - d) (by omega) (by omega), ← Nat.mod_eq_sub_mod hid]

/-- Settles O44: the copied bytes have the period M_DIST, and those before them are as they were. -/
theorem overlappingCopyRepeats : Obligations.OverlappingCopyRepeats := by
  intro s hinv hs hfsm hroom
  have hleft := hinv.copiesLeft hs hfsm hroom
  obtain ⟨t, hrun, hsym, hout, hperiod, hframe⟩ := hleft.run_next
  refine ⟨t, hrun, hsym, hout, fun i hi => ?_, hframe⟩
  have hmod : i % s.mDist.toNat < s.mDist.toNat := Nat.mod_lt _ hleft.distPos
  have hle := hleft.distLe
  rw [Memory.read?_of_period hleft.distPos hle hperiod i hi, hframe _ (by omega)]

end Sys2Proof.Machine
end

section
/-! Error entry and the way out of it: a step that raises (60_exceptions.md R332), and a host write of CTRL
(R338, R339). -/

namespace Sys2Proof.Machine

/-! ## Error entry -/

/-- ERROR is entered by a raise alone (R332): no rule that completes leads there. -/
theorem Completes.fsm_ne_error {s t : State} (h : Completes s t) (hs : s.fsm ≠ .error) : t.fsm ≠ .error := by
  cases h with
  | waiting | lit => exact hs
  | storedHeader | storedByte | clLength | lens | copy | blockEnd => exact ite_ne_error nofun nofun
  | stored | fixed | dynamic | dynHeader | clBuild | build | eob | length | distance => exact nofun

/-- Settles O7: the step did not complete a rule, so it raised, and its error is its next state's. -/
theorem failingStepCommitsOnlyError : Obligations.FailingStepCommitsOnlyError := by
  intro s t hs hfsm hstep ht
  rw [step_silent hs] at hstep
  rcases blockStep_next hstep with hc | ⟨e, hne, -, rfl⟩
  · exact absurd ht (hc.fsm_ne_error hfsm)
  · exact ⟨hne, rfl⟩

/-! ## The CTRL register -/

theorem waiting_iff (f : Fsm) : f.waiting = true ↔ f = .idle ∨ f = .done ∨ f = .error := by
  cases f <;> decide

theorem exec_start_waiting {s : State} (h : s.fsm.waiting = true) : exec .start s = .next s.runInit :=
  if_pos h

theorem exec_start_ignored {s : State} (h : s.fsm.waiting ≠ true) : exec .start s = .next s :=
  if_neg h

/-- A write of CTRL with START = 1 is the instruction START, whatever the reserved bits hold. -/
theorem hostWrite_ctrl_start {v : Word} (h : v.toNat % 2 = 1) (s : State) :
    hostWrite 0x00 v s = exec .start s := by
  rw [hostWrite, if_pos rfl, decode_start h v.isLt]

theorem hostWrite_ctrl_zero {v : Word} (h : v.toNat % 2 = 0) (s : State) : hostWrite 0x00 v s = .next s := by
  obtain ⟨e, he⟩ := decode_ctrl_error h
  rw [hostWrite, if_pos rfl, he]

/-- The step that takes a pending write of the host. -/
theorem step_hostWrite {s : State} {offset : Nat} {v : Word} {rest : List HostAct}
    (h : s.host = .write offset v :: rest) : step s = hostWrite offset v (s.setHost rest) :=
  step_host h

/-- Settles O45: START runs RUN_INIT in a waiting state and nothing in any other, and no element stands at a
value with bit 0 = 0. -/
theorem startWriteBeginsARun : Obligations.StartWriteBeginsARun := by
  intro s v rest hs
  rw [step_hostWrite hs]
  refine ⟨fun hv hw => ?_, fun hv hidle hdone herr => ?_, fun hv => hostWrite_ctrl_zero hv _⟩
  · have hwait : (s.setHost rest).fsm.waiting = true := (waiting_iff s.fsm).2 hw
    rw [hostWrite_ctrl_start hv, exec_start_waiting hwait]
    rfl
  · have hbusy : (s.setHost rest).fsm.waiting ≠ true := fun h => by
      simpa [hidle, hdone, herr] using (waiting_iff s.fsm).1 h
    rw [hostWrite_ctrl_start hv, exec_start_ignored hbusy]
    rfl

end Sys2Proof.Machine
end

section
/-! What BUILD leaves for DECODE to read: an index with a codeword lies in a bucket, so a table that was just
built stays in bounds, holds symbols of its alphabet, and does not depend on what the table held before
(R201, R203). -/

namespace Sys2Proof.Machine

/-! ## The buckets, counted -/

theorem bucketStart_eq_sum (len : List Nat) (k : Nat) :
    bucketStart len (k + 1) = ((List.range' 1 k).map len.count).sum := by
  induction k with
  | zero => rfl
  | succ k ih =>
    rw [bucketStart_succ k.succ_ne_zero, ih, List.range'_concat, List.map_append, List.sum_append]
    simp [Nat.add_comm]

/-- The buckets of the lengths 1 to `k` leave no gap before the bucket that follows them. -/
theorem exists_bucket {len : List Nat} {i k : Nat} (h : i < bucketStart len (k + 1)) :
    ∃ L, 1 ≤ L ∧ L ≤ k ∧ bucketStart len L ≤ i ∧ i < bucketStart len L + len.count L := by
  induction k with
  | zero => exact absurd h (Nat.not_lt_zero i)
  | succ k ih =>
    by_cases hi : i < bucketStart len (k + 1)
    · obtain ⟨L, h1, hk, hge, hlt⟩ := ih hi
      exact ⟨L, h1, Nat.le_succ_of_le hk, hge, hlt⟩
    · rw [bucketStart_succ k.succ_ne_zero] at h
      exact ⟨k + 1, Nat.succ_pos k, le_rfl, not_lt.1 hi, h⟩

section Build
variable {cw ow n : Nat} {len : List Nat}

theorem HuffTable.assigned_build (t : HuffTable cw ow n) (h : len.length < 2 ^ cw) :
    (t.build len).assigned = bucketStart len 16 := by
  rw [bucketStart_eq_sum len 15, HuffTable.assigned]
  congr 1
  refine List.map_congr_left fun L hL => t.countOf_build len ?_ h
  have := List.mem_range'_1.1 hL
  omega

/-- An index that has a codeword waits to be filled when BUILD begins to place the symbols. -/
theorem HuffTable.awaits_of_lt_assigned {t : HuffTable cw ow n} (h : len.length < 2 ^ cw) {i : Nat}
    (hi : i < (t.build len).assigned) :
    ∃ L, L ≠ 0 ∧ L < 16 ∧ Awaits len ((List.range 16).map (bucketStart len)) i L := by
  rw [t.assigned_build h] at hi
  obtain ⟨L, h1, h15, hge, hlt⟩ := exists_bucket hi
  refine ⟨L, Nat.one_le_iff_ne_zero.1 h1, Nat.lt_succ_of_le h15, ?_⟩
  rw [Awaits, getD_bucketStarts len (Nat.lt_succ_of_le h15)]
  exact ⟨hge, hlt⟩

theorem HuffTable.inBounds_build (t : HuffTable cw ow n) (hn : len.length ≤ n) (h : len.length < 2 ^ cw) :
    (t.build len).InBounds := by
  have := bucketEnd_le_length len 16
  rw [HuffTable.InBounds, t.assigned_build h]
  omega

theorem HuffTable.symbolsBelow_build (t : HuffTable cw ow n) (h : len.length < 2 ^ cw) :
    (t.build len).SymbolsBelow len.length := by
  intro i x hi hx
  obtain ⟨L, h0, h16, hge, hlt⟩ := HuffTable.awaits_of_lt_assigned h hi
  exact placeSymbols_below (s := 0) (by simp) (by omega) (.inr ⟨L, Nat.one_le_iff_ne_zero.2 h0, h16, hge, hlt⟩) hx

end Build

/-! ## What a table held before BUILD -/

/-- An entry that waits to be filled comes out the same, whatever the array held. -/
theorem placeSymbols_congr {ow n i : Nat} {len offs : List Nat} {s : Nat} {o o' : Vector (BitVec ow) n}
    (hi : o[i]? = o'[i]? ∨ ∃ L, L ≠ 0 ∧ L < offs.length ∧ Awaits len offs i L) :
    (placeSymbols s len offs o)[i]? = (placeSymbols s len offs o')[i]? := by
  induction len generalizing s offs o o' with
  | nil =>
    rcases hi with hi | ⟨L, -, -, hge, hlt⟩
    · exact hi
    · rw [List.count_nil] at hlt
      omega
  | cons l len ih =>
    rw [placeSymbols, placeSymbols]
    split
    · rename_i hl
      refine ih (hi.imp_right fun ⟨L, h0, hL, hge, hlt⟩ => ⟨L, h0, hL, hge, ?_⟩)
      rwa [List.count_cons_of_ne (hl ▸ h0.symm)] at hlt
    · by_cases hset : offs.getD l 0 = i
      · exact ih (.inl (by simp only [Vector.getElem?_setIfInBounds, hset, if_true]))
      · refine ih ?_
        rw [Vector.getElem?_setIfInBounds_ne hset, Vector.getElem?_setIfInBounds_ne hset, List.length_set]
        refine hi.imp_right fun ⟨L, h0, hL, hge, hlt⟩ => ⟨L, h0, hL, ?_⟩
        by_cases hlL : l = L
        · subst hlL
          rw [Awaits, getD_advance offs hL, if_pos rfl]
          rw [List.count_cons_self] at hlt
          omega
        · rw [List.count_cons_of_ne hlL] at hlt
          rw [Awaits, List.getD_eq_getElem?_getD, List.getElem?_set_ne hlL, ← List.getD_eq_getElem?_getD]
          exact ⟨hge, hlt⟩

/-- Two tables agree on what DECODE can read: COUNT of the lengths it tries, and the entries of ORDER that
have a codeword. -/
structure HuffTable.ReadsAs {cw ow n : Nat} (t t' : HuffTable cw ow n) : Prop where
  count : ∀ L, L < 16 → t'.countOf L = t.countOf L
  order : ∀ i : Nat, i < t.assigned → t'.order[i]? = t.order[i]?

/-- BUILD leaves nothing of the old table for DECODE to read. -/
theorem HuffTable.readsAs_build {cw ow n : Nat} (t t' : HuffTable cw ow n) {len : List Nat}
    (h : len.length < 2 ^ cw) : (t.build len).ReadsAs (t'.build len) where
  count _ _ := rfl
  order i hi := by
    obtain ⟨L, h0, h16, hawaits⟩ := HuffTable.awaits_of_lt_assigned h hi
    exact placeSymbols_congr (.inr ⟨L, h0, by simpa using h16, hawaits⟩)

theorem HuffTable.ReadsAs.decodeSym_eq {cw ow n : Nat} {t t' : HuffTable cw ow n} (h : t.ReadsAs t')
    (mem : Memory) (len : Nat) (r : BitReader) : decodeSym t' mem len r = decodeSym t mem len r :=
  decodeLoop_congr (fun L _ hL => h.count L hL) fun i hi => h.order i (by rwa [Nat.zero_add] at hi)

end Sys2Proof.Machine
end

section
/-! The invariant through a step of the block: how the reader moves, what each FSM state's rule asks of its
operands, and that no rule leaves them out of bounds. -/

namespace Sys2Proof.Machine

/-! ## The reader -/

theorem getBits_clean {mem : Memory} {len n v : Nat} {r r' : BitReader} (h : getBits mem len n r = .ok (v, r')) :
    r'.Clean := by
  obtain ⟨-, -, -, -, -, hclean, -⟩ := getBits_ok h
  exact hclean

theorem readByte_clean {mem : Memory} {len : Nat} {r r' : BitReader} {b : Byte}
    (h : readByte mem len r = .ok (b, r')) (hr : r.Clean) : r'.Clean := by
  obtain ⟨-, -, rfl⟩ := readByte_ok.1 h
  exact hr

theorem readU16le_keeps {mem : Memory} {len v : Nat} {r r' : BitReader} (h : readU16le mem len r = .ok (v, r')) :
    r'.cnt = r.cnt ∧ (r.Clean → r'.Clean) := by
  obtain ⟨lo, hi, -, -, -, -, rfl⟩ := readU16le_ok h
  exact ⟨rfl, id⟩

/-- DROP_ALIGN consumes the bits held. -/
theorem dropAlign_advance (mem : Memory) (len : Nat) (r : BitReader) :
    Advance mem len r.cnt.toNat r (dropAlign r) where
  pos := le_rfl
  bound := .inl rfl
  ahead := by
    show 0 + 8 * (len - r.pos) + r.cnt.toNat = r.cnt.toNat + 8 * (len - r.pos)
    omega
  agrees _ := ⟨Nat.zero_le _, fun _ hk => absurd hk (Nat.not_lt_zero _)⟩

/-- Where DECODE answers: it consumed a bit, and returns an entry of ORDER that has a codeword. -/
theorem decodeSym_ok {cw ow n : Nat} {t : HuffTable cw ow n} {mem : Memory} {len v : Nat} {r r' : BitReader}
    (h : decodeSym t mem len r = .ok (v, r')) :
    ∃ m, 1 ≤ m ∧ Advance mem len m r r' ∧ r'.Clean ∧
      ∃ (i : Nat) (x : BitVec ow), i < t.assigned ∧ t.order[i]? = some x ∧ x.toNat = v := by
  obtain ⟨m, h1, -, hadv, hclean, i, x, hi, hx⟩ := decodeLoop_ok h
  exact ⟨m, h1, hadv, hclean, i, x, by rwa [Nat.zero_add] at hi, hx⟩

/-- The bits that a step in each state consumes at the least where it completes (R383). -/
def Fsm.minBits : Fsm → Nat
  | .hdr | .storedHdr | .storedCopy | .dynHdr | .dynClLen | .dynLens | .sym | .dist => 1
  | .idle | .dynClBuild | .dynBuild | .copy | .blockEnd | .done | .error | .unused15 => 0

theorem minBits_of_waiting {f : Fsm} (h : f.waiting = true) : f.minBits = 0 := by
  rcases (waiting_iff f).1 h with rfl | rfl | rfl <;> rfl

/-- A step that completes moves the reader over stream bits, and over one at least where its state reads an
element (R383). -/
theorem Completes.advance {s t : State} (hinv : Inv s) (h : Completes s t) :
    ∃ m, s.fsm.minBits ≤ m ∧ Advance s.inMem s.inLen m s.br t.br ∧ t.br.Clean := by
  cases h with
  | waiting hs => exact ⟨0, (minBits_of_waiting hs).le, .refl .., hinv.clean⟩
  | stored hs hf ht | fixed hs hf ht | dynamic hs hf ht =>
    exact ⟨1 + 2, hs ▸ by decide, (getBits_advance hf).trans (getBits_advance ht), getBits_clean ht⟩
  | storedHeader hs hl hn =>
    obtain ⟨hcnt, hclean⟩ := readU16le_keeps hl
    have hclean' := (readU16le_keeps hn).2 (hclean (BitReader.clean_dropAlign s.br))
    exact ⟨_, hs ▸ Nat.le_add_left 1 (s.br.cnt.toNat + 31), ((dropAlign_advance ..).trans
      (readU16le_advance rfl hl)).trans (readU16le_advance hcnt hn), hclean'⟩
  | storedByte hs _ hb =>
    exact ⟨8, hs ▸ by decide, readByte_advance (hinv.stored hs).2 hb, readByte_clean hb hinv.clean⟩
  | dynHeader hs ha hb hc =>
    exact ⟨5 + 5 + 4, hs ▸ by decide, ((getBits_advance ha).trans (getBits_advance hb)).trans (getBits_advance hc),
      getBits_clean hc⟩
  | clLength hs hl => exact ⟨3, hs ▸ by decide, getBits_advance hl, getBits_clean hl⟩
  | lens hs hv =>
    rw [hs]
    obtain ⟨sym, r1, hd, hv⟩ := hv
    obtain ⟨m, hm, hadv, hclean, -⟩ := decodeSym_ok hd
    obtain ⟨-, rfl, -⟩ | ⟨-, -, -, -, x, hx, -⟩ | ⟨-, -, -, x, hx, -⟩ | ⟨-, -, -, x, hx, -⟩ := hv
    · exact ⟨m, hm, hadv, hclean⟩
    all_goals exact ⟨_, Nat.le_add_right_of_le hm, hadv.trans (getBits_advance hx), getBits_clean hx⟩
  | lit hs _ hd | eob hs hd =>
    obtain ⟨m, hm, hadv, hclean, -⟩ := decodeSym_ok hd
    exact ⟨m, hs ▸ hm, hadv, hclean⟩
  | length hs _ hd hx | distance hs _ hd hx =>
    obtain ⟨m, hm, hadv, -⟩ := decodeSym_ok hd
    exact ⟨_, hs ▸ Nat.le_add_right_of_le hm, hadv.trans (getBits_advance hx), getBits_clean hx⟩
  | clBuild hs | build hs | copy hs | blockEnd hs => exact ⟨0, hs ▸ le_rfl, .refl .., hinv.clean⟩

/-! ## The operands -/

/-- The counts of a dynamic header (R245). -/
def State.HeaderCounts (s : State) : Prop :=
  257 ≤ s.hlit.toNat ∧ s.hlit.toNat ≤ 288 ∧ 1 ≤ s.hdist.toNat ∧ s.hdist.toNat ≤ 32 ∧
    4 ≤ s.hclen.toNat ∧ s.hclen.toNat ≤ 19

/-- The tables that the body of a block reads stay in bounds. -/
def State.TablesInBounds (s : State) : Prop := s.tsel = .dyn → s.ll.InBounds ∧ s.dt.InBounds

/-- What the invariant says of the operands of the state's own rule. -/
def State.OperandsOk (s : State) : Prop :=
  match s.fsm with
  | .storedCopy => s.stRem ≠ 0 ∧ s.br.cnt = 0
  | .dynClLen => s.HeaderCounts ∧ s.clIdx.toNat < s.hclen.toNat
  | .dynClBuild | .dynBuild => s.HeaderCounts
  | .dynLens => s.HeaderCounts ∧ s.lk.toNat < s.totalLens ∧ s.cl.InBounds ∧ s.cl.SymbolsBelow 19
  | .sym => s.TablesInBounds
  | .dist => s.TablesInBounds ∧ 3 ≤ s.mLen.toNat ∧ s.mLen.toNat ≤ 258
  | .copy => s.TablesInBounds ∧
    1 ≤ s.mRem.toNat ∧ s.mRem.toNat ≤ 258 ∧ 1 ≤ s.mDist.toNat ∧ s.mDist.toNat ≤ s.outLen
  | .idle | .hdr | .storedHdr | .dynHdr | .blockEnd | .done | .error => True
  | .unused15 => False

theorem Inv.operandsOk {s : State} (h : Inv s) : s.OperandsOk := by
  unfold State.OperandsOk
  split
  case h_1 hs => exact h.stored hs
  case h_2 hs => exact ⟨h.header (.inl hs), h.clIdx hs⟩
  case h_3 hs => exact h.header (.inr (.inl hs))
  case h_4 hs => exact h.header (.inr (.inr (.inr hs)))
  case h_5 hs => exact ⟨h.header (.inr (.inr (.inl hs))), h.lk hs, h.clBounds hs, h.clSymbols hs⟩
  case h_6 hs => exact h.tables (.inl hs)
  case h_7 hs => exact ⟨h.tables (.inr (.inl hs)), h.mLen hs⟩
  case h_8 hs => exact ⟨h.tables (.inr (.inr hs)), h.copy hs⟩
  case h_16 hs => exact h.fsm hs
  all_goals trivial

/-- Every rule leaves the operands of the next state's rule in bounds (R243 to R248, R255, R293 to R297). -/
theorem Completes.operandsOk {s t : State} (hinv : Inv s) (h : Completes s t) : t.OperandsOk := by
  have ho := hinv.operandsOk
  unfold State.OperandsOk at ho
  cases h with
  | waiting => exact hinv.operandsOk
  | stored | dynamic | eob => trivial
  | fixed => exact nofun
  | storedHeader hs hl hn hc =>
    rename_i len nlen r1 r2
    by_cases h0 : len = 0
    · simp only [State.OperandsOk, if_pos h0]
    · simp only [State.OperandsOk, if_neg h0]
      refine ⟨?_, ?_⟩
      · have := readU16le_lt hl
        bv_omega
      · rw [(readU16le_keeps hn).1, (readU16le_keeps hl).1]
        rfl
  | storedByte hs _ hb =>
    by_cases h0 : s.stRem - 1 = 0
    · simp only [State.OperandsOk, if_pos h0]
    · simp only [State.OperandsOk, if_neg h0]
      obtain ⟨-, -, rfl⟩ := readByte_ok.1 hb
      exact ⟨h0, (hinv.stored hs).2⟩
  | dynHeader hs ha hb hc =>
    have := (getBits_ok ha).2.1
    have := (getBits_ok hb).2.1
    have := (getBits_ok hc).2.1
    refine ⟨?_, ?_⟩
    · simp only [State.HeaderCounts, BitVec.toNat_ofNat]
      omega
    · show 0 < (BitVec.ofNat 5 _).toNat
      rw [toNat_ofNat_of_lt (by omega)]
      exact Nat.succ_pos _
  | clLength hs =>
    simp only [hs] at ho
    obtain ⟨hcounts, hidx⟩ := ho
    by_cases h1 : s.clIdx + 1 = s.hclen
    · simp only [State.OperandsOk, if_pos h1]
      exact hcounts
    · simp only [State.OperandsOk, if_neg h1]
      refine ⟨hcounts, ?_⟩
      obtain ⟨-, -, -, -, -, hhclen⟩ := hcounts
      bv_omega
  | clBuild hs =>
    simp only [hs] at ho
    have hlen : (s.clLens.toList.map BitVec.toNat).length = 19 := by simp
    refine ⟨ho, ?_, s.cl.inBounds_build hlen.le (by omega), hlen ▸ s.cl.symbolsBelow_build (by omega)⟩
    obtain ⟨hhlit, -⟩ := ho
    show 0 < s.hlit.toNat + s.hdist.toNat
    omega
  | lens hs hv hb =>
    rename_i v n r
    simp only [hs] at ho
    obtain ⟨hcounts, hlk, htables⟩ := ho
    by_cases h1 : s.lk.toNat + n = s.totalLens
    · simp only [State.OperandsOk, if_pos h1]
      exact hcounts
    · simp only [State.OperandsOk, if_neg h1]
      refine ⟨hcounts, ?_, htables⟩
      have hle : s.lk.toNat + n ≤ s.totalLens := by
        obtain ⟨sym, r1, -, hv⟩ := hv
        obtain ⟨-, -, -, rfl⟩ | ⟨-, -, -, hle, -⟩ | ⟨-, -, hle, -⟩ | ⟨-, -, hle, -⟩ := hv <;> omega
      show (BitVec.ofNat 9 (s.lk.toNat + n)).toNat < s.totalLens
      rw [toNat_ofNat_of_lt (by omega)]
      omega
  | build hs hl hd =>
    have hll : s.litlenLengths.length ≤ 288 := (List.length_take_le ..).trans hl
    have hdt : s.distLengths.length ≤ 32 := (List.length_take_le ..).trans hd
    exact fun _ => ⟨s.ll.inBounds_build hll (by omega), s.dt.inBounds_build hdt (by omega)⟩
  | lit hs =>
    simp only [State.OperandsOk, hs] at ho ⊢
    exact ho
  | length hs hc hd hx =>
    simp only [hs] at ho
    have hlen := lenOf_range hc (getBits_ok hx).2.1
    refine ⟨ho, ?_⟩
    rw [toNat_ofNat_of_lt (by omega)]
    exact hlen
  | distance hs hc hd hx hle =>
    simp only [hs] at ho
    obtain ⟨htables, hlen, hlen'⟩ := ho
    have hdist := distOf_range hc (getBits_ok hx).2.1
    refine ⟨htables, Nat.le_of_add_left_le hlen, hlen', ?_⟩
    rw [toNat_ofNat_of_lt (by omega)]
    exact ⟨hdist.1, hle⟩
  | copy hs _ hd _ hb =>
    simp only [hs] at ho
    obtain ⟨htables, hrem, hrem', hpos, hle⟩ := ho
    by_cases h1 : s.mRem - 1 = 0
    · simp only [State.OperandsOk, if_pos h1]
      exact htables
    · simp only [State.OperandsOk, if_neg h1]
      refine ⟨htables, ?_, ?_, hpos, Nat.le_succ_of_le hle⟩ <;> bv_omega
  | blockEnd =>
    by_cases h1 : s.bfinal = 1
    · simp only [State.OperandsOk, if_pos h1]
    · simp only [State.OperandsOk, if_neg h1]

/-! ## What no rule changes, and what appending changes -/

/-- No rule writes the parameters, the host's list, the input memory or its length. -/
theorem Completes.keeps {s t : State} (h : Completes s t) :
    t.params = s.params ∧ t.host = s.host ∧ t.inMem = s.inMem ∧ t.inLen = s.inLen := by
  cases h <;> exact ⟨rfl, rfl, rfl, rfl⟩

/-- A rule leaves the output alone, or appends one byte where there is room (R84). -/
theorem Completes.output {s t : State} (h : Completes s t) :
    t.outMem = s.outMem ∧ t.outLen = s.outLen ∨
      s.outLen ≠ s.params.outCap ∧ t.outLen = s.outLen + 1 ∧ ∃ b, t.outMem = s.outMem.write s.outLen b := by
  cases h with
  | storedByte _ _ _ ho | lit _ _ _ ho | copy _ _ _ ho => exact .inr ⟨ho, rfl, _, rfl⟩
  | waiting | stored | fixed | dynamic | storedHeader | dynHeader | clLength | clBuild | lens | build | eob
  | length | distance | blockEnd => exact .inl ⟨rfl, rfl⟩

/-- R240: a waiting state takes no step. -/
theorem Completes.eq_of_waiting {s t : State} (h : Completes s t) (hs : s.fsm.waiting = true) : t = s := by
  cases h with
  | waiting => rfl
  | stored hf | fixed hf | dynamic hf | storedHeader hf | storedByte hf | dynHeader hf | clLength hf | clBuild hf
  | lens hf | build hf | lit hf | eob hf | length hf | distance hf | copy hf | blockEnd hf =>
    rw [hf] at hs
    cases hs

/-! ## The invariant -/

theorem ne_error_of_busy {f : Fsm} (h : f.waiting = false) : f ≠ .error := by
  rintro rfl
  cases h

/-- The invariant from the operands of the next state's rule and from what every state asks, where the input
and the parameters are as they were. -/
theorem Inv.of_operandsOk {s t : State} (hinv : Inv s) (ho : t.OperandsOk)
    (hkeeps : t.params = s.params ∧ t.inMem = s.inMem ∧ t.inLen = s.inLen) (houtWf : t.outMem.wf)
    (houtLen : t.outLen ≤ s.params.outCap) (hwritten : ∀ a, a < t.outLen → (t.outMem.read? a).isSome = true)
    (herr : t.fsm = .error ↔ t.errCode ≠ .none) (hclean : t.br.Clean)
    (hreader : t.fsm.waiting = false → t.br.pos ≤ s.inLen ∧ t.br.Agrees s.inMem) : Inv t := by
  obtain ⟨hparams, hmem, hlen⟩ := hkeeps
  exact {
    params := hparams ▸ hinv.params
    inWf := hmem ▸ hinv.inWf
    outWf := houtWf
    inLen := by rw [hlen, hparams]; exact hinv.inLen
    outLen := hparams ▸ houtLen
    outWritten := hwritten
    fsm := fun hf => by rwa [State.OperandsOk, hf] at ho
    errCode := herr
    clean := hclean
    reader := by rwa [hlen, hmem]
    stored := fun hf => by rwa [State.OperandsOk, hf] at ho
    header := by
      rintro (hf | hf | hf | hf) <;> rw [State.OperandsOk, hf] at ho
      · exact ho.1
      · exact ho
      · exact ho.1
      · exact ho
    clIdx := fun hf => by
      rw [State.OperandsOk, hf] at ho
      exact ho.2
    lk := fun hf => by
      rw [State.OperandsOk, hf] at ho
      obtain ⟨-, hlk, -⟩ := ho
      exact hlk
    clBounds := fun hf => by
      rw [State.OperandsOk, hf] at ho
      obtain ⟨-, -, hbounds, -⟩ := ho
      exact hbounds
    clSymbols := fun hf => by
      rw [State.OperandsOk, hf] at ho
      obtain ⟨-, -, -, hsymbols⟩ := ho
      exact hsymbols
    tables := by
      rintro (hf | hf | hf) <;> rw [State.OperandsOk, hf] at ho
      · exact ho
      · exact ho.1
      · exact ho.1
    mLen := fun hf => by
      rw [State.OperandsOk, hf] at ho
      exact ho.2
    copy := fun hf => by
      rw [State.OperandsOk, hf] at ho
      exact ho.2 }

/-- The output after a rule: canonical, within its capacity, and written up to OUT_LEN (R83, R84). -/
theorem Completes.output_ok {s t : State} (hinv : Inv s) (h : Completes s t) :
    t.outMem.wf ∧ t.outLen ≤ s.params.outCap ∧ ∀ a, a < t.outLen → (t.outMem.read? a).isSome = true := by
  have hcap := hinv.outLen
  obtain ⟨hmem, hlen⟩ | ⟨hroom, hlen, b, hmem⟩ := h.output <;> rw [hmem, hlen]
  · exact ⟨hinv.outWf, hcap, hinv.outWritten⟩
  · refine ⟨Memory.wf_write hinv.outWf _ _, by omega, fun a ha => ?_⟩
    rw [Memory.read?_write]
    split
    · rfl
    · exact hinv.outWritten a (by omega)

/-- A rule keeps the invariant. -/
theorem Completes.inv {s t : State} (hinv : Inv s) (h : Completes s t) : Inv t := by
  cases hs : s.fsm.waiting with
  | true => exact h.eq_of_waiting hs ▸ hinv
  | false =>
    obtain ⟨hparams, -, hkeeps⟩ := h.keeps
    obtain ⟨houtWf, houtLen, hwritten⟩ := h.output_ok hinv
    obtain ⟨m, -, hadv, hclean⟩ := h.advance hinv
    obtain ⟨hpos, hagrees⟩ := hinv.reader hs
    have hne := ne_error_of_busy hs
    refine hinv.of_operandsOk (h.operandsOk hinv) ⟨hparams, hkeeps⟩ houtWf houtLen hwritten ?_ hclean fun _ =>
      ⟨?_, hadv.agrees hagrees⟩
    · rw [h.errCode_eq]
      exact iff_of_false (h.fsm_ne_error hne) (mt hinv.errCode.2 hne)
    · rcases hadv.bound with hb | hb <;> omega

/-- Error entry keeps the invariant: ERROR has no operands. -/
theorem Inv.raiseError {s : State} (hinv : Inv s) {e : ErrCode} (he : e ≠ .none) : Inv (s.raiseError e) :=
  hinv.of_operandsOk trivial ⟨rfl, rfl, rfl⟩ hinv.outWf hinv.outLen hinv.outWritten (iff_of_true rfl he)
    hinv.clean nofun

/-- A step of the block keeps the invariant. -/
theorem Inv.of_blockStep {s t : State} (hinv : Inv s) (h : blockStep s = .next t) : Inv t := by
  rcases blockStep_next h with hc | ⟨e, he, -, rfl⟩
  · exact hc.inv hinv
  · exact hinv.raiseError he

/-- RUN_INIT keeps the invariant (R372): HDR has no operands, and the reader is empty. -/
theorem Inv.runInit {s : State} (hinv : Inv s) : Inv s.runInit :=
  hinv.of_operandsOk trivial ⟨rfl, rfl, rfl⟩ hinv.outWf (Nat.zero_le _) (fun _ h => absurd h (Nat.not_lt_zero _))
    (iff_of_false nofun (not_not_intro rfl)) BitReader.clean_empty fun _ =>
      ⟨Nat.zero_le _, Nat.zero_le _, fun _ h => absurd h (Nat.not_lt_zero _)⟩

end Sys2Proof.Machine
end

section
/-! A step of the block on a loaded input never stops with a fault of the model: no element's read does, and
no meaning does on operands that the invariant bounds. -/

namespace Sys2Proof.Machine

/-- An answer that is no fault of the model. -/
def NoFault {α : Type} (x : Result α) : Prop := ∀ f, x ≠ .error (.fault f)

theorem NoFault.ok {α : Type} (a : α) : NoFault (.ok a : Result α) := nofun

theorem NoFault.raise {α : Type} (e : ErrCode) : NoFault (.error (.raise e) : Result α) := nofun

/-! ## The reads -/

section Reads
variable {mem : Memory} {len : Nat} {r : BitReader} (hm : ∀ a, a < len → (mem.read? a).isSome = true)
include hm

theorem getBits_noFault {n : Nat} (hn : n ≤ 25) : NoFault (getBits mem len n r) := by
  intro f h
  obtain ⟨hok, htrunc⟩ := refill_loaded (mem := mem) (len := len) (n := n) (k := n) (acc := r.leftover)
    (held := r.cnt.toNat) (pos := r.pos) (by omega) fun a _ ha => hm a ha
  rw [getBits_eq hn] at h
  by_cases hbits : n ≤ r.cnt.toNat + 8 * (len - r.pos)
  · obtain ⟨p, hp⟩ := hok hbits
    rw [hp] at h
    cases h
  · rw [htrunc (not_le.1 hbits)] at h
    cases h

theorem readByte_noFault : NoFault (readByte mem len r) := by
  intro f h
  rcases readByte_error h with ⟨-, h⟩ | ⟨hpos, hnone, -⟩
  · cases h
  · exact absurd (hm _ hpos) (by simp [hnone])

theorem readU16le_noFault : NoFault (readU16le mem len r) := by
  intro f h
  unfold readU16le at h
  split at h
  case h_1 e he => cases h; exact readByte_noFault hm f he
  case h_2 =>
    split at h
    case h_1 e he => cases h; exact readByte_noFault hm f he
    case h_2 => cases h

theorem decodeSym_noFault {cw ow n : Nat} {t : HuffTable cw ow n} (ht : t.InBounds) :
    NoFault (decodeSym t mem len r) := by
  intro f h
  rcases decodeLoop_loaded (t := t) (k := 15) (L := 1) (acc := 0) (pos := 0) (r := r) hm
    ((Nat.zero_add _).trans_le ht) with ⟨v, r', hd⟩ | ⟨-, hd⟩ | ⟨-, hd⟩
  all_goals cases hd.symm.trans h

end Reads

theorem element_noFault {f : Format} {e : Stop} {w : Nat} {r : BitReader} {i : Instr} (h : decode f w = .ok i) :
    NoFault (element f e w r) := by
  rw [element_ok.2 ⟨h, rfl⟩]
  exact .ok _

/-! ## Taking an element -/

theorem fll_inBounds : fll.InBounds := by
  rw [fll_eq_build (HuffTable.zero 9 9 Config.llAlphaMax)]
  exact HuffTable.inBounds_build _ fixedLitlenLengths_length.le (by rw [fixedLitlenLengths_length]; omega)

theorem fdt_inBounds : fdt.InBounds := by
  rw [fdt_eq_build (HuffTable.zero 6 5 Config.distAlphaMax)]
  exact HuffTable.inBounds_build _ (by simp [fixedDistLengths, Config.distAlphaMax]) (by simp [fixedDistLengths])

theorem State.TablesInBounds.selected {s : State} (h : s.TablesInBounds) : s.llSel.InBounds ∧ s.dtSel.InBounds := by
  unfold State.llSel State.dtSel
  cases ht : s.tsel with
  | fixed => exact ⟨fll_inBounds, fdt_inBounds⟩
  | dyn => exact h ht

theorem decode_clSymbol {v : Nat} (h : v < 19) : ∃ i, decode .clSymbol v = .ok i := by
  interval_cases v <;> exact ⟨_, rfl⟩

/-- No read of an element ends in a fault. -/
theorem fetch_noFault {s : State} {x : Result (Instr × BitReader)} (hinv : Inv s) (hm : InputLoaded s)
    (h : fetch s = some x) : NoFault x := by
  unfold fetch at h
  split at h <;> cases h <;> intro f h
  case h_1 =>
    unfold fetchHeader at h
    split at h
    case h_1 he => cases h; exact getBits_noFault hm (by omega) f he
    case h_2 ha =>
      split at h
      case h_1 he => cases h; exact getBits_noFault hm (by omega) f he
      case h_2 hb => exact element_noFault (decode_header _ _ (getBits_ok ha).2.1 (getBits_ok hb).2.1) f h
  case h_2 =>
    unfold fetchStoredHeader at h
    split at h
    case h_1 he => cases h; exact readU16le_noFault hm f he
    case h_2 ha =>
      split at h
      case h_1 he => cases h; exact readU16le_noFault hm f he
      case h_2 hb => exact element_noFault (decode_stored (readU16le_lt ha) (readU16le_lt hb)) f h
  case h_3 =>
    unfold fetchStoredByte at h
    split at h
    case h_1 he => cases h; exact readByte_noFault hm f he
    case h_2 => exact element_noFault (decode_storedData _) f h
  case h_4 =>
    unfold fetchDynHeader at h
    split at h
    case h_1 he => cases h; exact getBits_noFault hm (by omega) f he
    case h_2 ha =>
      split at h
      case h_1 he => cases h; exact getBits_noFault hm (by omega) f he
      case h_2 hb =>
        split at h
        case h_1 he => cases h; exact getBits_noFault hm (by omega) f he
        case h_2 hc =>
          exact element_noFault
            (decode_dynamicHeader (getBits_ok ha).2.1 (getBits_ok hb).2.1 (getBits_ok hc).2.1) f h
  case h_5 =>
    unfold fetchClLength at h
    split at h
    case h_1 he => cases h; exact getBits_noFault hm (by omega) f he
    case h_2 ha => exact element_noFault (decode_clLength (getBits_ok ha).2.1) f h
  case h_6 hs =>
    unfold fetchClSymbol at h
    split at h
    case h_1 he => cases h; exact decodeSym_noFault hm (hinv.clBounds hs) f he
    case h_2 hd =>
      obtain ⟨m, -, -, -, i, x, hi, hx, rfl⟩ := decodeSym_ok hd
      obtain ⟨j, hj⟩ := decode_clSymbol (hinv.clSymbols hs i x hi hx)
      exact element_noFault hj f h
  case h_7 hs =>
    unfold fetchLitlen at h
    split at h
    case h_1 he =>
      have ht : s.TablesInBounds := hinv.tables (.inl hs)
      cases h
      exact decodeSym_noFault hm ht.selected.1 f he
    case h_2 => cases element_error h
  case h_8 hs =>
    unfold fetchDistance at h
    split at h
    case h_1 he =>
      have ht : s.TablesInBounds := hinv.tables (.inr (.inl hs))
      cases h
      exact decodeSym_noFault hm ht.selected.2 f he
    case h_2 => cases element_error h

/-! ## The meanings -/

theorem finish_of_noFault {r : Result State} (h : NoFault r) (s : State) : ∃ t, finish s r = .next t := by
  match r, h with
  | .ok u, _ => exact ⟨u, rfl⟩
  | .error (.raise e), _ => exact ⟨s.raiseError e, rfl⟩
  | .error (.fault f), h => exact absurd rfl (h f)

theorem outAppend_noFault (v : Byte) (s : State) : NoFault (outAppend v s) := by
  intro f h
  cases (outAppend_error.1 h).2

theorem fitLens_noFault {v : BitVec 4} {k : Nat} {s : State} (h : s.totalLens ≤ 320) : NoFault (fitLens v k s) := by
  intro f hf
  rcases fitLens_error hf with ⟨-, he⟩ | ⟨hpast, hfit, -⟩
  · cases he
  · omega

theorem zeroLens_noFault {n : Nat} {count : Nat → Nat} {s : State} (hm : InputLoaded s) (hn : n ≤ 25)
    (h : s.totalLens ≤ 320) : NoFault (zeroLens n count s) := by
  intro f hf
  rcases zeroLens_error hf with he | ⟨x, r, -, he⟩
  · exact getBits_noFault hm hn f he
  · exact fitLens_noFault (s := s.setBr r) h f he

theorem repeatPrev_noFault {s : State} (hm : InputLoaded s) (hlk : s.lk.toNat ≤ s.totalLens)
    (h : s.totalLens ≤ 320) : NoFault (repeatPrev s) := by
  intro f hf
  rcases repeatPrev_error hf with ⟨-, he⟩ | he | ⟨hpast, -⟩ | ⟨x, r, v, -, he⟩
  · cases he
  · exact getBits_noFault hm (by omega) f he
  · omega
  · exact fitLens_noFault (s := s.setBr r) h f he

theorem lengthSymbol_noFault {c : Nat} {s : State} (hm : InputLoaded s) (hc : c ≤ 28) :
    NoFault (lengthSymbol c s) := by
  intro f hf
  have := lenExtra_le c hc
  exact getBits_noFault hm (by omega) f (lengthSymbol_error.1 hf)

theorem distanceSymbol_noFault {c : Nat} {s : State} (hm : InputLoaded s) : NoFault (distanceSymbol c s) := by
  intro f hf
  rcases distanceSymbol_error hf with ⟨-, he⟩ | ⟨hc, he⟩ | ⟨-, he, -⟩
  · cases he
  · have := distExtra_le c hc
    exact getBits_noFault hm (by omega) f he
  · cases he

/-- COPY on its operands reads a byte that has been written. -/
theorem copyStep_noFault {s : State} (hinv : Inv s) (hs : s.fsm = .copy) : NoFault (copyStep s) := by
  obtain ⟨hrem, -, hpos, hle⟩ := hinv.copy hs
  obtain ⟨b, hb⟩ := Option.isSome_iff_exists.1 (hinv.outWritten (s.outLen - s.mDist.toNat) (by omega))
  have hread : outRead s (s.outLen - s.mDist.toNat) = .ok b := outRead_ok.2 ⟨by omega, hb⟩
  have hrem0 : s.mRem ≠ 0 := by bv_omega
  intro f hf
  rw [copyStep, if_neg hrem0, if_neg (not_lt.2 hle), hread] at hf
  simp only at hf
  split at hf
  case h_1 => cases hf
  case h_2 e he => cases hf; exact outAppend_noFault b s f he

theorem Inv.totalLens_le {s : State} (hinv : Inv s) (hs : s.fsm = .dynLens) : s.totalLens ≤ 320 := by
  obtain ⟨-, hhlit, -, hhdist, -⟩ := hinv.header (.inr (.inr (.inl hs)))
  unfold State.totalLens
  omega

/-- The meaning of every element that a step can take goes on. -/
theorem Fetches.exec_next {s : State} {i : Instr} {r : BitReader} (hinv : Inv s) (hm : InputLoaded s)
    (h : Fetches s i r) : ∃ t, exec i (s.setBr r) = .next t := by
  cases h with
  | header => split_ifs <;> exact ⟨_, rfl⟩
  | storedHeader =>
    refine finish_of_noFault ?_ _
    split
    · exact .raise _
    · exact .ok _
  | storedByte hs =>
    refine finish_of_noFault ?_ _
    rw [if_neg (show (s.setBr r).stRem ≠ 0 from (hinv.stored hs).1)]
    split
    · exact .ok _
    · rename_i e he
      intro f hf
      cases hf
      exact outAppend_noFault _ _ f he
  | dynHeader => exact ⟨_, rfl⟩
  | clLength hs =>
    obtain ⟨-, -, -, -, -, hhclen⟩ := hinv.header (.inl hs)
    exact ⟨_, exec_cllen (s := s.setBr r) ((hinv.clIdx hs).trans_le hhclen)⟩
  | cl hs =>
    refine finish_of_noFault (fun f hf => ?_) _
    have hlk : s.lk.toNat < s.totalLens := hinv.lk hs
    have hlen : 320 < s.lk.toNat + 1 := (putLens_error hf).1
    have := hinv.totalLens_le hs
    omega
  | cl16 hs =>
    exact finish_of_noFault (repeatPrev_noFault (s := s.setBr r) hm (hinv.lk hs).le (hinv.totalLens_le hs)) _
  | cl17 hs | cl18 hs =>
    exact finish_of_noFault (zeroLens_noFault (s := s.setBr r) hm (by decide) (hinv.totalLens_le hs)) _
  | lit => exact finish_of_noFault (outAppend_noFault _ _) _
  | eob | lsym286 | lsym287 => exact ⟨_, rfl⟩
  | lengthCode _ hc hi =>
    rw [exec_lengthCode hi]
    exact finish_of_noFault (lengthSymbol_noFault (s := s.setBr r) hm hc) _
  | distanceCode _ _ hi =>
    rw [exec_distanceCode hi]
    exact finish_of_noFault (distanceSymbol_noFault (s := s.setBr r) hm) _

theorem commit_of_next (s u : State) : ∃ t, commit s (.next u) = .next t := by
  rw [commit]
  split_ifs <;> exact ⟨_, rfl⟩

theorem internalStep_next {s : State} (hinv : Inv s) : ∃ t, internalStep s = .next t := by
  unfold internalStep
  split
  case h_2 hs =>
    obtain ⟨-, hhlit, -, hhdist, -⟩ := hinv.header (.inr (.inr (.inr hs)))
    refine finish_of_noFault ?_ s
    rw [dynBuildStep, if_neg (by unfold Config.llAlphaMax Config.distAlphaMax; omega)]
    exact .ok _
  case h_3 hs => exact finish_of_noFault (copyStep_noFault hinv hs) s
  case h_5 hs => exact absurd hs hinv.fsm
  all_goals exact ⟨_, rfl⟩

/-- On a loaded input every step of the block goes on. -/
theorem Inv.exists_blockStep {s : State} (hinv : Inv s) (hm : InputLoaded s) : ∃ t, blockStep s = .next t := by
  cases hf : fetch s with
  | none =>
    rw [blockStep, hf]
    exact internalStep_next hinv
  | some x =>
    rw [blockStep_of_fetch hf]
    match x, hf with
    | .ok (i, r), hf =>
      obtain ⟨u, hu⟩ := (fetch_ok hf).exec_next hinv hm
      rw [runElement, hu]
      exact commit_of_next s u
    | .error (.raise e), _ => exact ⟨s.raiseError e, rfl⟩
    | .error (.fault f), hf => exact absurd rfl (fetch_noFault hinv hm hf f)

end Sys2Proof.Machine
end

section
/-! The bounds of a run (R383): each stream bit pays for the bytes and the steps that it can lead to. -/

namespace Sys2Proof.Machine

/-! ## What a state owes -/

/-- The output bytes that the bits consumed so far can still lead to: a back-reference takes at least two bits
and copies at most 258 bytes, so its length symbol leaves at least 129 of them to be paid. -/
def State.owedBytes (s : State) : Nat :=
  match s.fsm with
  | .dist => 129
  | .copy => s.mRem.toNat
  | .idle | .hdr | .storedHdr | .storedCopy | .dynHdr | .dynClLen | .dynClBuild | .dynLens | .dynBuild | .sym
  | .blockEnd | .done | .error | .unused15 => 0

/-- The steps DYN_CLBUILD, DYN_BUILD and BLOCK_END that the block's header has paid for and that are still to
come. -/
def Fsm.owedSteps : Fsm → Nat
  | .dynHdr | .dynClLen | .dynClBuild => 3
  | .dynLens | .dynBuild => 2
  | .storedHdr | .storedCopy | .sym | .dist | .copy | .blockEnd => 1
  | .idle | .hdr | .done | .error | .unused15 => 0

/-- A rule pays for its output byte and for what it comes to owe with 129 bytes per bit consumed, and for its
own step as well with 131 steps per bit. -/
theorem Completes.owes {s t : State} (hinv : Inv s) (h : Completes s t) (hs : s.fsm.waiting = false) :
    t.outLen + t.owedBytes ≤ s.outLen + s.owedBytes + 129 * s.fsm.minBits ∧
    t.owedBytes + t.fsm.owedSteps + 1 ≤ s.owedBytes + s.fsm.owedSteps + 131 * s.fsm.minBits := by
  cases h with
  | waiting hw => simp [hw] at hs
  | stored hf | fixed hf | dynamic hf | dynHeader hf | clBuild hf | build hf | lit hf | eob hf | length hf =>
    simp [State.owedBytes, Fsm.owedSteps, Fsm.minBits, hf, dynClBuildStep]
  | storedHeader hf | storedByte hf | clLength hf | lens hf | blockEnd hf =>
    simp only [State.owedBytes, Fsm.owedSteps, Fsm.minBits, hf]
    split_ifs <;> simp
  | distance hf =>
    obtain ⟨-, hlen⟩ := hinv.mLen hf
    simp only [State.owedBytes, Fsm.owedSteps, Fsm.minBits, hf]
    omega
  | copy hf =>
    obtain ⟨hrem, -⟩ := hinv.copy hf
    have hnext : (s.mRem - 1).toNat = s.mRem.toNat - 1 := by bv_omega
    by_cases h1 : s.mRem - 1 = 0
    · simp only [State.owedBytes, Fsm.owedSteps, Fsm.minBits, hf, if_pos h1]
      omega
    · simp only [State.owedBytes, Fsm.owedSteps, Fsm.minBits, hf, if_neg h1]
      omega

/-! ## The two bounds -/

/-- The stream bits left to a state. -/
def State.bitsLeft (s : State) : Nat := s.br.bitsAhead s.inLen

/-- The output bytes of the run so far and the most that can still come. -/
def State.outBound (s : State) : Nat := s.outLen + s.owedBytes + 129 * s.bitsLeft

/-- The most steps that can still complete. -/
def State.stepBound (s : State) : Nat := s.owedBytes + s.fsm.owedSteps + 131 * s.bitsLeft

theorem runInit_bitsLeft (s : State) : s.runInit.bitsLeft = 8 * s.inLen := Nat.zero_add _

theorem Completes.bitsLeft_le {s t : State} (hinv : Inv s) (h : Completes s t) :
    t.bitsLeft + s.fsm.minBits ≤ s.bitsLeft := by
  obtain ⟨m, hm, hadv, -⟩ := h.advance hinv
  obtain ⟨-, -, -, hlen⟩ := h.keeps
  have hahead := hadv.ahead
  rw [State.bitsLeft, State.bitsLeft, hlen]
  omega

theorem Completes.outBound_le {s t : State} (hinv : Inv s) (h : Completes s t) : t.outBound ≤ s.outBound := by
  cases hs : s.fsm.waiting with
  | true => exact (congrArg State.outBound (h.eq_of_waiting hs)).le
  | false =>
    obtain ⟨howes, -⟩ := h.owes hinv hs
    have hbits := h.bitsLeft_le hinv
    unfold State.outBound
    omega

theorem Completes.stepBound_lt {s t : State} (hinv : Inv s) (h : Completes s t) (hs : s.fsm.waiting = false) :
    t.stepBound < s.stepBound := by
  obtain ⟨-, howes⟩ := h.owes hinv hs
  have hbits := h.bitsLeft_le hinv
  unfold State.stepBound
  omega

/-- Error entry owes nothing more. -/
theorem raiseError_outBound_le (s : State) (e : ErrCode) : (s.raiseError e).outBound ≤ s.outBound := by
  have howed : (s.raiseError e).owedBytes = 0 := rfl
  have hbits : (s.raiseError e).bitsLeft = s.bitsLeft := rfl
  unfold State.outBound
  rw [howed, hbits, State.raiseError_outLen]
  omega

/-- A step that raises OUTPUT_OVERFLOW had a byte still to append, which the bound counts. -/
theorem outCap_lt_outBound_of_overflow {s t : State} (hinv : Inv s) (h : blockStep s = .next t)
    (h0 : s.errCode ≠ .outputOverflow) (ht : t.errCode = .outputOverflow) : s.params.outCap < s.outBound := by
  obtain ⟨hfull, hcause⟩ := blockStep_overflow h h0 ht
  unfold State.outBound
  rcases hcause with hs | ⟨hs, b, r, hb⟩ | ⟨hs, v, r, -, hd⟩
  · obtain ⟨hrem, -⟩ := hinv.copy hs
    simp only [State.owedBytes, hs]
    omega
  · have hahead := (readByte_advance (hinv.stored hs).2 hb).ahead
    unfold State.bitsLeft
    omega
  · obtain ⟨m, hm, hadv, -⟩ := decodeSym_ok hd
    have hahead := hadv.ahead
    unfold State.bitsLeft
    omega

/-! ## Runs -/

/-- What every step keeps holds at the end of every run. -/
theorem core_run_invariant {P : State → Prop} (hstep : ∀ s t, P s → step s = .next t → P t) {k : Nat}
    {s t : State} (hs : P s) (h : core.run k s = .next t) : P t := by
  induction k generalizing s with
  | zero =>
    cases h
    exact hs
  | succ k ih =>
    obtain ⟨u, hu, hrun⟩ := core_run_next h
    exact ih (hstep s u hs hu) hrun

/-- A state of a run that was started from `s₀`. -/
structure InRun (s₀ s : State) : Prop where
  params     : s.params = s₀.params
  inv        : Inv s
  loaded     : InputLoaded s
  silent     : s.host = []
  outBound   : s.outBound ≤ 1032 * s₀.inLen
  noOverflow : 1032 * s₀.inLen ≤ s₀.params.outCap → s.errCode ≠ .outputOverflow

theorem Startable.inRun {s : State} (h : Startable s) : InRun s s.runInit where
  params := rfl
  inv := h.inv.runInit
  loaded := h.loaded
  silent := h.silent
  outBound := by
    show 0 + 0 + 129 * s.runInit.bitsLeft ≤ 1032 * s.inLen
    rw [runInit_bitsLeft]
    omega
  noOverflow _ := nofun

theorem blockStep_keeps {s t : State} (h : blockStep s = .next t) :
    t.params = s.params ∧ t.host = s.host ∧ t.inMem = s.inMem ∧ t.inLen = s.inLen := by
  rcases blockStep_next h with hc | ⟨e, -, -, rfl⟩
  · exact hc.keeps
  · exact ⟨rfl, rfl, rfl, rfl⟩

theorem InRun.of_step {s₀ s t : State} (h : InRun s₀ s) (hstep : step s = .next t) : InRun s₀ t := by
  rw [step_silent h.silent] at hstep
  obtain ⟨hparams, hhost, hmem, hlen⟩ := blockStep_keeps hstep
  refine ⟨hparams.trans h.params, h.inv.of_blockStep hstep, ?_, hhost.trans h.silent, ?_, fun hcap ht => ?_⟩
  · unfold InputLoaded
    rw [hmem, hlen]
    exact h.loaded
  · rcases blockStep_next hstep with hc | ⟨e, -, -, rfl⟩
    · exact (hc.outBound_le h.inv).trans h.outBound
    · exact (raiseError_outBound_le s e).trans h.outBound
  · have hfull := outCap_lt_outBound_of_overflow h.inv hstep (h.noOverflow hcap) ht
    rw [h.params] at hfull
    exact absurd h.outBound (not_le.2 (hcap.trans_lt hfull))

/-- A rule of a busy state leads to DONE or to a busy state. -/
theorem Completes.done_or_busy {s t : State} (h : Completes s t) (hs : s.fsm.waiting = false) :
    t.fsm = .done ∨ t.fsm.waiting = false := by
  cases h with
  | waiting | lit => exact .inr hs
  | stored | fixed | dynamic | dynHeader | clBuild | build | eob | length | distance => exact .inr rfl
  | storedHeader | storedByte | clLength | lens | copy =>
    refine .inr ?_
    dsimp only
    split_ifs <;> rfl
  | blockEnd =>
    dsimp only
    split_ifs
    · exact .inl rfl
    · exact .inr rfl

/-- A busy state ends after the steps that its bound counts and one more, which may raise. -/
theorem InRun.exists_ended {k : Nat} {s₀ s : State} (h : InRun s₀ s) (hs : s.fsm.waiting = false)
    (hk : s.stepBound ≤ k) : ∃ j t, j ≤ k + 1 ∧ core.run j s = .next t ∧ t.ended := by
  induction k using Nat.strong_induction_on generalizing s with
  | _ k ih =>
    obtain ⟨u, hu⟩ := h.inv.exists_blockStep h.loaded
    have hstep : step s = .next u := (step_silent h.silent).trans hu
    have hone : core.run 1 s = .next u := core_run_succ 0 hstep
    rcases blockStep_next hu with hc | ⟨e, -, -, rfl⟩
    · rcases hc.done_or_busy hs with hdone | hbusy
      · exact ⟨1, u, Nat.le_add_left 1 k, hone, .inl hdone⟩
      · have hlt := hc.stepBound_lt h.inv hs
        obtain ⟨j, t, hj, hrun, hended⟩ := ih u.stepBound (by omega) (h.of_step hstep) hbusy le_rfl
        exact ⟨j + 1, t, by omega, (core_run_succ j hstep).trans hrun, hended⟩
    · exact ⟨1, _, Nat.le_add_left 1 k, hone, .inr rfl⟩

/-- Settles O55: every bit is worth 129 bytes and 131 steps, and a run has 8 × IN_LEN of them. -/
theorem everyRunTerminates : Obligations.EveryRunTerminates := by
  intro s hs
  have hrun {k t} (h : core.run k s.runInit = .next t) : InRun s t :=
    core_run_invariant (fun _ _ => InRun.of_step) hs.inRun h
  refine ⟨hs.inRun.exists_ended rfl ?_, fun k t h => ?_, fun hcap k t h => ?_⟩
  · show 0 + 0 + 131 * s.runInit.bitsLeft ≤ 1048 * s.inLen
    rw [runInit_bitsLeft]
    omega
  · have hbound := (hrun h).outBound
    unfold State.outBound at hbound
    omega
  · exact (hrun h).noOverflow hcap

end Sys2Proof.Machine
end

section
/-! Two runs on the same input (R373): what makes two of their states twins, and the shared operations on
twins. -/

namespace Sys2Proof.Machine

/-! ## Reads of two input memories that are the same below IN_LEN -/

section Reads
variable {mem mem' : Memory} {len : Nat} (hm : ∀ a, a < len → mem'.read? a = mem.read? a)
include hm

theorem refill_congr {n k acc held pos : Nat} :
    refill mem' len n k acc held pos = refill mem len n k acc held pos := by
  induction k generalizing acc held pos with
  | zero => rfl
  | succ k ih =>
    by_cases hn : n ≤ held
    · rw [refill_done hn, refill_done hn]
    · rw [refill_pull (not_le.1 hn), refill_pull (not_le.1 hn)]
      split
      · rfl
      · rename_i hpos
        have hbyte : inByte mem' pos = inByte mem pos := by rw [inByte, inByte, hm pos (not_le.1 hpos)]
        rw [hbyte]
        cases inByte mem pos with
        | error e => rfl
        | ok b => exact ih

theorem getBits_congr (n : Nat) (r : BitReader) : getBits mem' len n r = getBits mem len n r := by
  rw [getBits, getBits, refill_congr hm]

theorem readByte_congr (r : BitReader) : readByte mem' len r = readByte mem len r := by
  rw [readByte, readByte]
  split
  · rfl
  · rename_i hpos
    rw [inByte, inByte, hm r.pos (not_le.1 hpos)]

theorem readU16le_congr (r : BitReader) : readU16le mem' len r = readU16le mem len r := by
  simp only [readU16le, readByte_congr hm]

theorem decodeLoop_mem_congr {cw ow n : Nat} (t : HuffTable cw ow n) {k L acc pos : Nat} {r : BitReader} :
    decodeLoop t mem' len k L acc pos r = decodeLoop t mem len k L acc pos r := by
  induction k generalizing L acc pos r with
  | zero => rfl
  | succ k ih => simp only [decodeLoop_succ, getBits_congr hm, ih]

theorem decodeSym_congr {cw ow n : Nat} {t t' : HuffTable cw ow n} (ht : t.ReadsAs t') (r : BitReader) :
    decodeSym t' mem' len r = decodeSym t mem len r :=
  (decodeLoop_mem_congr hm t').trans (ht.decodeSym_eq mem len r)

end Reads

/-! ## Twins -/

theorem HuffTable.ReadsAs.refl {cw ow n : Nat} (t : HuffTable cw ow n) : t.ReadsAs t :=
  ⟨fun _ _ => rfl, fun _ _ => rfl⟩

/-- The same counts of the length sequence. -/
def State.SameCounts (s s' : State) : Prop := s'.hlit = s.hlit ∧ s'.hdist = s.hdist

/-- The same table selected, and table RAMs that DECODE reads alike where it selects them. -/
def State.SameTables (s s' : State) : Prop :=
  s'.tsel = s.tsel ∧ (s.tsel = .dyn → s.ll.ReadsAs s'.ll ∧ s.dt.ReadsAs s'.dt)

/-- The same operands of the state's own rule, and of those after it that read them as they are now: the
registers and table RAMs that the run has written already and will read. -/
def State.SameOperands (s s' : State) : Prop :=
  match s.fsm with
  | .storedCopy => s'.stRem = s.stRem
  | .dynClLen => s.SameCounts s' ∧ s'.hclen = s.hclen ∧ s'.clIdx = s.clIdx ∧ s'.clLens = s.clLens
  | .dynClBuild => s.SameCounts s' ∧ s'.clLens = s.clLens
  | .dynLens => s.SameCounts s' ∧ s'.lk = s.lk ∧ (∀ i : Nat, i < s.lk.toNat → s'.lens[i]? = s.lens[i]?) ∧
    s.cl.ReadsAs s'.cl
  | .dynBuild => s.SameCounts s' ∧ ∀ i : Nat, i < s.totalLens → s'.lens[i]? = s.lens[i]?
  | .sym => s.SameTables s'
  | .dist => s.SameTables s' ∧ s'.mLen = s.mLen
  | .copy => s.SameTables s' ∧ s'.mRem = s.mRem ∧ s'.mDist = s.mDist
  | .idle | .hdr | .storedHdr | .dynHdr | .blockEnd | .done | .error | .unused15 => True

/-- Two states of runs on the same input: they show the same (R373), and the run of each goes on from the same
operands. -/
structure Twin (s s' : State) : Prop where
  silent   : s.host = [] ∧ s'.host = []
  fsm      : s'.fsm = s.fsm
  errCode  : s'.errCode = s.errCode
  br       : s'.br = s.br
  inLen    : s'.inLen = s.inLen
  outLen   : s'.outLen = s.outLen
  outCap   : s'.params.outCap = s.params.outCap
  input    : ∀ a, a < s.inLen → s'.inMem.read? a = s.inMem.read? a
  output   : ∀ a, a < s.outLen → s'.outMem.read? a = s.outMem.read? a
  bfinal   : s.fsm.waiting = false → s.fsm ≠ .hdr → s'.bfinal = s.bfinal
  operands : s.SameOperands s'

/-- Two answers that go on in twins, or stop for the same reason. -/
inductive TwinResult : Result State → Result State → Prop where
  | ok {t t' : State} (h : Twin t t') : TwinResult (.ok t) (.ok t')
  | error (e : Stop) : TwinResult (.error e) (.error e)

/-- Two steps that go on in twins, or end for the same reason. -/
inductive TwinOutcome : Host.Outcome State Fault Refusal → Host.Outcome State Fault Refusal → Prop where
  | next {t t' : State} (h : Twin t t') : TwinOutcome (.next t) (.next t')
  | fault (f : Fault) : TwinOutcome (.fault f) (.fault f)
  | refused (r : Refusal) : TwinOutcome (.refused r) (.refused r)

namespace Twin
variable {s s' : State}

theorem getBits_eq (h : Twin s s') (n : Nat) (r : BitReader) :
    getBits s'.inMem s'.inLen n r = getBits s.inMem s.inLen n r := by
  rw [h.inLen, getBits_congr h.input]

theorem readByte_eq (h : Twin s s') (r : BitReader) :
    readByte s'.inMem s'.inLen r = readByte s.inMem s.inLen r := by
  rw [h.inLen, readByte_congr h.input]

theorem readU16le_eq (h : Twin s s') (r : BitReader) :
    readU16le s'.inMem s'.inLen r = readU16le s.inMem s.inLen r := by
  rw [h.inLen, readU16le_congr h.input]

theorem decodeSym_eq (h : Twin s s') {cw ow n : Nat} {t t' : HuffTable cw ow n} (ht : t.ReadsAs t')
    (r : BitReader) : decodeSym t' s'.inMem s'.inLen r = decodeSym t s.inMem s.inLen r := by
  rw [h.inLen, decodeSym_congr h.input ht]

theorem raiseError (h : Twin s s') (e : ErrCode) : Twin (s.raiseError e) (s'.raiseError e) :=
  { h with fsm := rfl, errCode := rfl, bfinal := nofun, operands := trivial }

theorem setBr (h : Twin s s') (r : BitReader) : Twin (s.setBr r) (s'.setBr r) :=
  { h with br := rfl }

theorem pushByte (h : Twin s s') (v : Byte) : Twin (s.pushByte v) (s'.pushByte v) :=
  { h with
    outLen := congrArg (· + 1) h.outLen
    output := fun a ha => by
      rw [State.pushByte_outMem, State.pushByte_outMem, Memory.read?_write, Memory.read?_write, h.outLen]
      split
      · rfl
      · exact h.output a (Nat.lt_of_le_of_ne (Nat.le_of_lt_succ ha) ‹_›) }

theorem stop (h : Twin s s') (e : Stop) : TwinOutcome (stop s e) (stop s' e) := by
  cases e with
  | raise e => exact .next (h.raiseError e)
  | fault f => exact .fault f

theorem finish (h : Twin s s') {r r' : Result State} (hr : TwinResult r r') :
    TwinOutcome (finish s r) (finish s' r') := by
  cases hr with
  | ok ht => exact .next ht
  | error e => exact h.stop e

theorem commit (h : Twin s s') {o o' : Host.Outcome State Fault Refusal} (ho : TwinOutcome o o') :
    TwinOutcome (commit s o) (commit s' o') := by
  cases ho with
  | next ht =>
    rw [Machine.commit, Machine.commit, ht.fsm, ht.errCode]
    split
    · exact .next (h.raiseError _)
    · exact .next ht
  | fault f => exact .fault f
  | refused r => exact .refused r

theorem outAppend (h : Twin s s') (v : Byte) : TwinResult (outAppend v s) (outAppend v s') := by
  rw [Machine.outAppend, Machine.outAppend, h.outLen, h.outCap]
  split
  · exact .error _
  · exact .ok (h.pushByte v)

theorem outRead_eq (h : Twin s s') (a : Nat) : outRead s' a = outRead s a := by
  rw [outRead, outRead, h.outLen]
  split
  · rename_i ha
    rw [h.output a ha]
  · rfl

end Twin

end Sys2Proof.Machine
end

section
/-! Two runs on the same input (R373): every meaning, every step and every run leads twins to twins, whatever
the registers hold that they need not share. -/

namespace Sys2Proof.Machine
namespace Twin
variable {s s' : State}

/-! ## The meanings on twins -/

theorem bfinal_eq (h : Twin s s') {f : Fsm} (hs : s.fsm = f) (hbusy : f.waiting = false := by rfl)
    (hhdr : f ≠ .hdr := by decide) : s'.bfinal = s.bfinal :=
  h.bfinal (hs ▸ hbusy) (hs ▸ hhdr)

/-- What twins share in a given state, where `SameOperands` computes to the registers. -/
theorem operands_of_fsm (h : Twin s s') {f : Fsm} (hs : s.fsm = f) : ({ s with fsm := f } : State).SameOperands s' := by
  subst hs
  exact h.operands

theorem countStored (h : Twin s s') (hs : s.fsm = .storedCopy) : Twin s.countStored s'.countStored := by
  have hrem : s'.stRem = s.stRem := h.operands_of_fsm hs
  refine { h with fsm := ?_, bfinal := fun _ _ => h.bfinal_eq hs, operands := ?_ }
  · simp only [State.countStored_fsm, hrem, h.fsm]
  · by_cases h0 : s.stRem - 1 = 0
    · simp only [State.SameOperands, State.countStored_fsm, if_pos h0]
    · simp only [State.SameOperands, State.countStored_fsm, if_neg h0, hs]
      exact congrArg (· - 1) hrem

/-- What COPY reads, of twins. -/
theorem copyOperands (h : Twin s s') (hs : s.fsm = .copy) :
    s.SameTables s' ∧ s'.mRem = s.mRem ∧ s'.mDist = s.mDist :=
  h.operands_of_fsm hs

theorem countCopy (h : Twin s s') (hs : s.fsm = .copy) : Twin s.countCopy s'.countCopy := by
  obtain ⟨htables, hrem, hdist⟩ := h.copyOperands hs
  refine { h with fsm := ?_, bfinal := fun _ _ => h.bfinal_eq hs, operands := ?_ }
  · simp only [State.countCopy_fsm, hrem, h.fsm]
  · by_cases h0 : s.mRem - 1 = 0
    · simp only [State.SameOperands, State.countCopy_fsm, if_pos h0]
      exact htables
    · simp only [State.SameOperands, State.countCopy_fsm, if_neg h0, hs]
      exact ⟨htables, congrArg (· - 1) hrem, hdist⟩

theorem storedByte (h : Twin s s') (hs : s.fsm = .storedCopy) (b : Byte) :
    TwinOutcome (execStoredByte b s) (execStoredByte b s') := by
  have hrem : s'.stRem = s.stRem := h.operands_of_fsm hs
  refine h.finish ?_
  rw [hrem]
  split
  · exact .error _
  · rw [Machine.outAppend, Machine.outAppend, h.outLen, h.outCap]
    split_ifs
    · exact .error _
    · exact .ok ((h.pushByte b).countStored hs)

theorem copyStep (h : Twin s s') (hs : s.fsm = .copy) : TwinResult (copyStep s) (copyStep s') := by
  obtain ⟨-, hrem, hdist⟩ := h.copyOperands hs
  rw [Machine.copyStep, Machine.copyStep, hrem, hdist, h.outRead_eq, h.outLen]
  split
  · exact .error _
  · split
    · exact .error _
    · cases outRead s (s.outLen - s.mDist.toNat) with
      | error e => exact .error e
      | ok b =>
        simp only [Machine.outAppend, h.outLen, h.outCap]
        split_ifs
        · exact .error _
        · exact .ok ((h.pushByte b).countCopy hs)

theorem totalLens_eq (h : s.SameCounts s') : s'.totalLens = s.totalLens := by
  obtain ⟨hhlit, hhdist⟩ := h
  rw [State.totalLens, State.totalLens, hhlit, hhdist]

/-- What DYN_LENS reads, of twins. -/
theorem lensOperands (h : Twin s s') (hs : s.fsm = .dynLens) :
    s.SameCounts s' ∧ s'.lk = s.lk ∧ (∀ i : Nat, i < s.lk.toNat → s'.lens[i]? = s.lens[i]?) ∧
      s.cl.ReadsAs s'.cl :=
  h.operands_of_fsm hs

theorem putLens (h : Twin s s') (hs : s.fsm = .dynLens) (v : BitVec 4) (k : Nat) :
    TwinResult (putLens v k s) (putLens v k s') := by
  obtain ⟨hcounts, hlk, hlens, hcl⟩ := h.lensOperands hs
  rw [Machine.putLens, Machine.putLens, hlk, totalLens_eq hcounts, h.fsm]
  split
  · exact .error _
  · rename_i hk
    have hfill (i : Nat) (hi : i < s.lk.toNat + k) :
        (fillLens s'.lens s.lk.toNat v k)[i]? = (fillLens s.lens s.lk.toNat v k)[i]? := by
      rw [getElem?_fillLens, getElem?_fillLens]
      split
      · rfl
      · exact hlens i (by omega)
    refine .ok { h with fsm := rfl, bfinal := fun _ _ => h.bfinal_eq hs, operands := ?_ }
    by_cases hlast : s.lk.toNat + k = s.totalLens
    · simp only [State.SameOperands, if_pos hlast]
      exact ⟨hcounts, fun i hi => hfill i (hlast ▸ hi)⟩
    · simp only [State.SameOperands, if_neg hlast, hs]
      refine ⟨hcounts, trivial, fun i hi => hfill i ?_, hcl⟩
      rwa [toNat_ofNat_of_lt (by omega)] at hi

theorem fitLens (h : Twin s s') (hs : s.fsm = .dynLens) (v : BitVec 4) (k : Nat) :
    TwinResult (fitLens v k s) (fitLens v k s') := by
  obtain ⟨hcounts, hlk, -⟩ := h.lensOperands hs
  rw [Machine.fitLens, Machine.fitLens, hlk, totalLens_eq hcounts]
  split
  · exact .error _
  · exact h.putLens hs v k

theorem zeroLens (h : Twin s s') (hs : s.fsm = .dynLens) (n : Nat) (count : Nat → Nat) :
    TwinResult (zeroLens n count s) (zeroLens n count s') := by
  rw [Machine.zeroLens, Machine.zeroLens, State.getBits, State.getBits, h.br, h.getBits_eq]
  match getBits s.inMem s.inLen n s.br with
  | .ok (x, r) => exact (h.setBr r).fitLens hs 0 _
  | .error e => exact .error e

theorem repeatPrev (h : Twin s s') (hs : s.fsm = .dynLens) : TwinResult (repeatPrev s) (repeatPrev s') := by
  obtain ⟨-, hlk, hlens, -⟩ := h.lensOperands hs
  rw [Machine.repeatPrev, Machine.repeatPrev, State.getBits, State.getBits, hlk, h.br, h.getBits_eq]
  split
  · exact .error _
  · rename_i h0
    have hprev : s'.lensAt (s.lk.toNat - 1) = s.lensAt (s.lk.toNat - 1) := by
      rw [State.lensAt, State.lensAt, hlens _ (by bv_omega)]
    rw [hprev]
    match getBits s.inMem s.inLen 2 s.br with
    | .error e => exact .error e
    | .ok (x, r) =>
      match s.lensAt (s.lk.toNat - 1) with
      | .error e => exact .error e
      | .ok v => exact (h.setBr r).fitLens hs v _

theorem lengthSymbol (h : Twin s s') (hs : s.fsm = .sym) (c : Nat) :
    TwinResult (lengthSymbol c s) (lengthSymbol c s') := by
  rw [Machine.lengthSymbol, Machine.lengthSymbol, State.getBits, State.getBits, h.br, h.getBits_eq]
  match getBits s.inMem s.inLen (lenExtra c) s.br with
  | .error e => exact .error e
  | .ok (x, r) =>
    exact .ok { h with
      br := rfl, fsm := rfl, bfinal := fun _ _ => h.bfinal_eq hs, operands := ⟨h.operands_of_fsm hs, rfl⟩ }

theorem distanceSymbol (h : Twin s s') (hs : s.fsm = .dist) (c : Nat) :
    TwinResult (distanceSymbol c s) (distanceSymbol c s') := by
  obtain ⟨htables, hlen⟩ : s.SameTables s' ∧ s'.mLen = s.mLen := h.operands_of_fsm hs
  rw [Machine.distanceSymbol, Machine.distanceSymbol, State.getBits, State.getBits, h.br, h.getBits_eq, h.outLen]
  split
  · exact .error _
  · match getBits s.inMem s.inLen (distExtra c) s.br with
    | .error e => exact .error e
    | .ok (x, r) =>
      dsimp only
      split
      · exact .error _
      · exact .ok { h with
          br := rfl, fsm := rfl, bfinal := fun _ _ => h.bfinal_eq hs, operands := ⟨htables, hlen, rfl⟩ }

/-! ## A step of twins -/

theorem llSel_readsAs (h : s.SameTables s') : s.llSel.ReadsAs s'.llSel := by
  obtain ⟨htsel, htables⟩ := h
  rw [llSel_eq, llSel_eq, htsel]
  split
  · exact .refl fll
  · rename_i hne
    cases ht : s.tsel with
    | fixed => exact absurd ht hne
    | dyn => exact (htables ht).1

theorem dtSel_readsAs (h : s.SameTables s') : s.dtSel.ReadsAs s'.dtSel := by
  obtain ⟨htsel, htables⟩ := h
  rw [dtSel_eq, dtSel_eq, htsel]
  split
  · exact .refl fdt
  · rename_i hne
    cases ht : s.tsel with
    | fixed => exact absurd ht hne
    | dyn => exact (htables ht).2

/-- Twins take the same element, or fail to for the same reason. -/
theorem fetch_eq (h : Twin s s') : fetch s' = fetch s := by
  have ho := h.operands
  unfold State.SameOperands at ho
  cases hs : s.fsm <;> simp only [hs] at ho <;> simp only [fetch, h.fsm, hs]
  case hdr => simp only [fetchHeader, h.br, h.getBits_eq]
  case storedHdr => simp only [fetchStoredHeader, h.br, h.readU16le_eq]
  case storedCopy => simp only [fetchStoredByte, h.br, h.readByte_eq]
  case dynHdr => simp only [fetchDynHeader, h.br, h.getBits_eq]
  case dynClLen => simp only [fetchClLength, h.br, h.getBits_eq]
  case dynLens =>
    obtain ⟨-, -, -, hcl⟩ := ho
    simp only [fetchClSymbol, h.br, h.decodeSym_eq hcl]
  case sym => simp only [fetchLitlen, h.br, h.decodeSym_eq (llSel_readsAs ho)]
  case dist => simp only [fetchDistance, h.br, h.decodeSym_eq (dtSel_readsAs ho.1)]

theorem clLength (h : Twin s s') (hs : s.fsm = .dynClLen) (l : BitVec 3) :
    TwinOutcome (execCllen l s) (execCllen l s') := by
  obtain ⟨hcounts, hhclen, hidx, hlens⟩ : s.SameCounts s' ∧ s'.hclen = s.hclen ∧ s'.clIdx = s.clIdx ∧
    s'.clLens = s.clLens := h.operands_of_fsm hs
  refine h.finish ?_
  rw [hhclen, hidx, hlens, h.fsm]
  split
  · refine .ok { h with fsm := rfl, bfinal := fun _ _ => h.bfinal_eq hs, operands := ?_ }
    by_cases hlast : s.clIdx + 1 = s.hclen
    · simp only [State.SameOperands, if_pos hlast]
      exact ⟨hcounts, trivial⟩
    · simp only [State.SameOperands, if_neg hlast, hs]
      exact ⟨hcounts, trivial, trivial, trivial⟩
  · exact .error _

/-- The meaning of an element on twins whose reader is past it. -/
theorem exec (h : Twin s s') {i : Instr} {r : BitReader} (hf : Fetches s i r) :
    TwinOutcome (exec i (s.setBr r)) (exec i (s'.setBr r)) := by
  have hbr := h.setBr r
  cases hf with
  | header hs =>
    split_ifs
    · exact .next { hbr with fsm := rfl, bfinal := fun _ _ => rfl, operands := trivial }
    · exact .next { hbr with fsm := rfl, bfinal := fun _ _ => rfl, operands := ⟨rfl, nofun⟩ }
    · exact .next { hbr with fsm := rfl, bfinal := fun _ _ => rfl, operands := trivial }
    · exact .next (hbr.raiseError _)
  | storedHeader hs =>
    refine hbr.finish ?_
    split
    · exact .error _
    · refine .ok { hbr with fsm := rfl, bfinal := fun _ _ => h.bfinal_eq hs, operands := ?_ }
      rename_i len nlen _ _ _ _
      by_cases h0 : BitVec.ofNat 16 len = 0
      · simp only [State.SameOperands, State.goto_fsm, if_pos h0]
      · simp only [State.SameOperands, State.goto_fsm, if_neg h0]
        rfl
  | storedByte hs => exact hbr.storedByte hs _
  | dynHeader hs =>
    exact .next { hbr with
      fsm := rfl, bfinal := fun _ _ => h.bfinal_eq hs, operands := ⟨⟨rfl, rfl⟩, rfl, rfl, rfl⟩ }
  | clLength hs => exact hbr.clLength hs _
  | cl hs => exact hbr.finish (hbr.putLens hs _ _)
  | cl16 hs => exact hbr.finish (hbr.repeatPrev hs)
  | cl17 hs => exact hbr.finish (hbr.zeroLens hs _ _)
  | cl18 hs => exact hbr.finish (hbr.zeroLens hs _ _)
  | lit => exact hbr.finish (hbr.outAppend _)
  | eob hs => exact .next { hbr with fsm := rfl, bfinal := fun _ _ => h.bfinal_eq hs, operands := trivial }
  | lengthCode hs _ hi =>
    rw [exec_lengthCode hi, exec_lengthCode hi]
    exact hbr.finish (hbr.lengthSymbol hs _)
  | lsym286 | lsym287 => exact .next (hbr.raiseError _)
  | distanceCode hs _ hi =>
    rw [exec_distanceCode hi, exec_distanceCode hi]
    exact hbr.finish (hbr.distanceSymbol hs _)

theorem dynClBuild (h : Twin s s') (hs : s.fsm = .dynClBuild) : Twin (dynClBuildStep s) (dynClBuildStep s') := by
  obtain ⟨hcounts, hlens⟩ : s.SameCounts s' ∧ s'.clLens = s.clLens := h.operands_of_fsm hs
  refine { h with fsm := rfl, bfinal := fun _ _ => h.bfinal_eq hs, operands := ⟨hcounts, rfl, ?_, ?_⟩ }
  · exact fun i hi => absurd hi (Nat.not_lt_zero i)
  · show (s.cl.build _).ReadsAs (s'.cl.build _)
    rw [hlens]
    exact HuffTable.readsAs_build _ _ (by simp)

theorem dynBuild (h : Twin s s') (hs : s.fsm = .dynBuild) : TwinResult (dynBuildStep s) (dynBuildStep s') := by
  obtain ⟨⟨hhlit, hhdist⟩, hlens⟩ : s.SameCounts s' ∧ ∀ i : Nat, i < s.totalLens → s'.lens[i]? = s.lens[i]? :=
    h.operands_of_fsm hs
  unfold State.totalLens at hlens
  rw [dynBuildStep, dynBuildStep, hhlit, hhdist]
  split
  · exact .error _
  · rename_i hcounts
    obtain ⟨hle, hle'⟩ : s.hlit.toNat ≤ 288 ∧ s.hdist.toNat ≤ 32 := by
      simpa [Config.llAlphaMax, Config.distAlphaMax] using hcounts
    have hlit_eq : s'.hlit.toNat = s.hlit.toNat := congrArg BitVec.toNat hhlit
    have hdist_eq : s'.hdist.toNat = s.hdist.toNat := congrArg BitVec.toNat hhdist
    have hll : s'.litlenLengths = s.litlenLengths := by
      rw [litlenLengths_eq_map_range (by omega), litlenLengths_eq_map_range (by omega), hhlit]
      refine List.map_congr_left fun i hi => ?_
      rw [hlens i (by have := List.mem_range.1 hi; omega)]
    have hdt : s'.distLengths = s.distLengths := by
      rw [distLengths_eq_map_range (by omega), distLengths_eq_map_range (by omega), hhlit, hhdist]
      refine List.map_congr_left fun i hi => ?_
      rw [hlens _ (by have := List.mem_range.1 hi; omega)]
    rw [hll, hdt]
    refine .ok { h with fsm := rfl, bfinal := fun _ _ => h.bfinal_eq hs, operands := ⟨rfl, fun _ => ⟨?_, ?_⟩⟩ }
    · exact HuffTable.readsAs_build _ _ (((List.length_take_le ..).trans hle).trans_lt (by decide))
    · exact HuffTable.readsAs_build _ _ (((List.length_take_le ..).trans hle').trans_lt (by decide))

theorem blockEnd (h : Twin s s') (hs : s.fsm = .blockEnd) : Twin (blockEndStep s) (blockEndStep s') := by
  rw [blockEndStep, blockEndStep, h.bfinal_eq hs]
  split
  · exact { h with fsm := rfl, bfinal := nofun, operands := trivial }
  · exact { h with fsm := rfl, bfinal := fun _ hne => absurd rfl hne, operands := trivial }

theorem internalStep (h : Twin s s') : TwinOutcome (internalStep s) (internalStep s') := by
  unfold Machine.internalStep
  rw [h.fsm]
  split
  case h_1 hs => exact .next (h.dynClBuild hs)
  case h_2 hs => exact h.finish (h.dynBuild hs)
  case h_3 hs => exact h.finish (h.copyStep hs)
  case h_4 hs => exact .next (h.blockEnd hs)
  case h_5 => exact .fault _
  all_goals exact .next h

/-- A step of the block leads twins to twins. -/
theorem blockStep (h : Twin s s') : TwinOutcome (blockStep s) (blockStep s') := by
  rw [Machine.blockStep, Machine.blockStep, h.fetch_eq]
  match hf : fetch s with
  | none => exact h.internalStep
  | some (.error e) => exact h.stop e
  | some (.ok (i, r)) => exact h.commit (h.exec (fetch_ok hf))

theorem step_next (h : Twin s s') {t t' : State} (ht : step s = .next t) (ht' : step s' = .next t') :
    Twin t t' := by
  have hstep := h.blockStep
  rw [← step_silent h.silent.1, ← step_silent h.silent.2, ht, ht'] at hstep
  cases hstep with
  | next htwin => exact htwin

theorem run_next (h : Twin s s') {k : Nat} {t t' : State} (ht : core.run k s = .next t)
    (ht' : core.run k s' = .next t') : Twin t t' := by
  induction k generalizing s s' with
  | zero =>
    cases ht
    cases ht'
    exact h
  | succ k ih =>
    obtain ⟨u, hu, hrun⟩ := core_run_next ht
    obtain ⟨u', hu', hrun'⟩ := core_run_next ht'
    exact ih (h.step_next hu hu') hrun hrun'

/-- Runs on the same input begin in twins: RUN_INIT sets what they show, and HDR has no operands (R372). -/
theorem of_runInit (hs : Startable s) (hs' : Startable s') (hlen : s.inLen = s'.inLen)
    (hcap : s.params.outCap = s'.params.outCap) (hin : ∀ a, a < s.inLen → s.inMem.read? a = s'.inMem.read? a) :
    Twin s.runInit s'.runInit where
  silent := ⟨hs.silent, hs'.silent⟩
  fsm := rfl
  errCode := rfl
  br := rfl
  inLen := hlen.symm
  outLen := rfl
  outCap := hcap.symm
  input a ha := (hin a ha).symm
  output a ha := absurd ha (Nat.not_lt_zero a)
  bfinal _ hne := absurd rfl hne
  operands := trivial

end Twin

/-- Settles O56: the runs begin in twins, and every step keeps them twins. -/
theorem runsAreIndependent : Obligations.RunsAreIndependent := by
  intro s s' hs hs' hlen hcap hin k t t' ht ht'
  have h := (Twin.of_runInit hs hs' hlen hcap hin).run_next ht ht'
  exact ⟨h.fsm.symm, h.errCode.symm, h.br.symm, h.outLen.symm, fun a ha => (h.output a ha).symm⟩

end Sys2Proof.Machine
end

section
/-! Encoding and decoding are inverse to each other (30_encoding.md sections 2 to 6), no value matches two rows
of a format, and the format of an element that a step takes is the one that STATE selects (R127). -/

namespace Sys2Proof

/-! ## Decoding an encoding -/

theorem decode_encode_blockHeader (f : BitVec 1) :
    decode .blockHeader f.toNat = .ok (.blockStored f) ∧ decode .blockHeader (f.toNat + 2) = .ok (.blockFixed f) ∧
      decode .blockHeader (f.toNat + 4) = .ok (.blockDynamic f) ∧
      decode .blockHeader (f.toNat + 6) = .ok (.blockReserved f) := by
  rcases f.eq_zero_or_eq_one with rfl | rfl <;> exact ⟨rfl, rfl, rfl, rfl⟩

theorem decode_encode_stored (len nlen : BitVec 16) :
    decode .storedHeader (len.toNat + nlen.toNat <<< 16) = .ok (.stored len nlen) := by
  rw [Nat.add_comm, Nat.shiftLeft_add_eq_or_of_lt len.isLt, Nat.lor_comm, decode_stored len.isLt nlen.isLt,
    BitVec.ofNat_toNat, BitVec.ofNat_toNat, BitVec.setWidth_eq, BitVec.setWidth_eq]

/-- Three fields that lie side by side, as R114 places them, are added or put together bit by bit alike. -/
theorem dynHeader_fields_or {a b : Nat} (ha : a < 2 ^ 5) (hb : b < 2 ^ 5) (c : Nat) :
    a ||| b <<< 5 ||| c <<< 10 = a + b <<< 5 + c <<< 10 := by
  have hlow : a ||| b <<< 5 = a + b <<< 5 := by
    rw [Nat.lor_comm, ← Nat.shiftLeft_add_eq_or_of_lt ha, Nat.add_comm]
  have hlt : a + b <<< 5 < 2 ^ 10 := by
    rw [Nat.shiftLeft_eq]
    omega
  rw [hlow, Nat.lor_comm, ← Nat.shiftLeft_add_eq_or_of_lt hlt, Nat.add_comm]

theorem decode_encode_dynhdr {hlit : BitVec 9} {hdist : BitVec 6} {hclen : BitVec 5}
    (h : (Instr.dynhdr hlit hdist hclen).wellFormed = true) :
    decode .dynamicHeader ((hlit.toNat - 257) + (hdist.toNat - 1) <<< 5 + (hclen.toNat - 4) <<< 10) =
      .ok (.dynhdr hlit hdist hclen) := by
  simp only [Instr.wellFormed, Bool.and_eq_true, decide_eq_true_eq] at h
  rw [← dynHeader_fields_or (by omega) (by omega), decode_dynamicHeader (by omega) (by omega) (by omega),
    Nat.sub_add_cancel (by omega), Nat.sub_add_cancel (by omega), Nat.sub_add_cancel (by omega)]
  simp

/-- Settles O1: a family of rows with operands by its own lemma, a row without operands by evaluation. -/
theorem encodeThenDecodeGivesInstr : Obligations.EncodeThenDecodeGivesInstr := by
  intro i hi
  cases i with
  | blockStored f => exact (decode_encode_blockHeader f).1
  | blockFixed f => exact (decode_encode_blockHeader f).2.1
  | blockDynamic f => exact (decode_encode_blockHeader f).2.2.1
  | blockReserved f => exact (decode_encode_blockHeader f).2.2.2
  | stored len nlen => exact decode_encode_stored len nlen
  | storedByte b => exact decode_storedData b
  | dynhdr => exact decode_encode_dynhdr hi
  | cllen l => exact (decode_clLength l.isLt).trans (by simp)
  | cl v => exact (decode_cl v.isLt).trans (by simp)
  | lit b => exact (decode_lit b.isLt).trans (by simp)
  | _ => rfl

/-! ## Encoding what was decoded -/

theorem encode_of_lengthCode {i : Instr} {c : Nat} (h : i.lengthCode? = some c) :
    encode i = { fmt := .litlenSymbol, value := 257 + c } ∧ c ≤ 28 := by
  unfold Instr.lengthCode? at h
  split at h
  · rename_i hv
    obtain ⟨hfmt, hlow, hhigh⟩ := hv
    obtain rfl := Option.some.inj h
    refine ⟨?_, by omega⟩
    rw [Nat.add_sub_cancel' hlow, ← hfmt]
  · cases h

theorem encode_of_distanceCode {i : Instr} {c : Nat} (h : i.distanceCode? = some c) :
    encode i = { fmt := .distanceSymbol, value := c } := by
  unfold Instr.distanceCode? at h
  split at h
  · rename_i hfmt
    cases h
    rw [← hfmt]
  · cases h

/-- An instruction that stands for the value of a format: one that the table's row makes and `encode` gives
back. -/
def Means (f : Format) (w : Nat) (i : Instr) : Prop :=
  decode f w = .ok i ∧ i.wellFormed = true ∧ encode i = { fmt := f, value := w }

/-- Only DYNHDR's operands have a check (R114). -/
theorem wellFormed_of_fmt_ne {i : Instr} (h : (encode i).fmt ≠ .dynamicHeader) : i.wellFormed = true := by
  cases i with
  | dynhdr => exact absurd rfl h
  | _ => rfl

theorem means_blockHeader {w : Nat} (h : w < 2 ^ 3) : ∃ i, Means .blockHeader w i := by
  interval_cases w <;> exact ⟨_, rfl, rfl, rfl⟩

theorem means_storedHeader {w : Nat} (h : w < 2 ^ 32) : ∃ i, Means .storedHeader w i := by
  have hw : w = w % 2 ^ 16 + (w / 2 ^ 16) <<< 16 := by
    rw [Nat.shiftLeft_eq, Nat.mul_comm, Nat.mod_add_div]
  have hlow : (BitVec.ofNat 16 (w % 2 ^ 16)).toNat = w % 2 ^ 16 := Machine.toNat_ofNat_of_lt (by omega)
  have hhigh : (BitVec.ofNat 16 (w / 2 ^ 16)).toNat = w / 2 ^ 16 := Machine.toNat_ofNat_of_lt (by omega)
  have hdec := decode_encode_stored (BitVec.ofNat 16 (w % 2 ^ 16)) (BitVec.ofNat 16 (w / 2 ^ 16))
  rw [hlow, hhigh, ← hw] at hdec
  refine ⟨_, hdec, rfl, ?_⟩
  rw [encode, hlow, hhigh, ← hw]

theorem means_storedData {w : Nat} (h : w < 2 ^ 8) : ∃ i, Means .storedData w i := by
  have hw : (BitVec.ofNat 8 w).toNat = w := Machine.toNat_ofNat_of_lt h
  have hdec := decode_storedData (BitVec.ofNat 8 w)
  rw [hw] at hdec
  exact ⟨_, hdec, rfl, by rw [encode, hw]⟩

theorem means_dynamicHeader {w : Nat} (h : w < 2 ^ 14) : ∃ i, Means .dynamicHeader w i := by
  have hw : w = w % 32 + (w / 32 % 32) <<< 5 + (w / 1024) <<< 10 := by
    rw [Nat.shiftLeft_eq, Nat.shiftLeft_eq]
    omega
  have hdec := decode_dynamicHeader (a := w % 32) (b := w / 32 % 32) (c := w / 1024) (by omega) (by omega) (by omega)
  rw [dynHeader_fields_or (by omega) (by omega), ← hw] at hdec
  have hlit : (BitVec.ofNat 9 (w % 32 + 257)).toNat = w % 32 + 257 := Machine.toNat_ofNat_of_lt (by omega)
  have hdist : (BitVec.ofNat 6 (w / 32 % 32 + 1)).toNat = w / 32 % 32 + 1 := Machine.toNat_ofNat_of_lt (by omega)
  have hclen : (BitVec.ofNat 5 (w / 1024 + 4)).toNat = w / 1024 + 4 := Machine.toNat_ofNat_of_lt (by omega)
  refine ⟨_, hdec, ?_, ?_⟩
  · rw [Instr.wellFormed, hlit, hdist, hclen]
    simp only [Bool.and_eq_true, decide_eq_true_eq]
    omega
  · rw [encode, hlit, hdist, hclen, Nat.add_sub_cancel, Nat.add_sub_cancel, Nat.add_sub_cancel, ← hw]

theorem means_clLength {w : Nat} (h : w < 2 ^ 3) : ∃ i, Means .clLength w i := by
  interval_cases w <;> exact ⟨_, rfl, rfl, rfl⟩

theorem means_clSymbol {w : Nat} (h : w < 19) : ∃ i, Means .clSymbol w i := by
  interval_cases w <;> exact ⟨_, rfl, rfl, rfl⟩

theorem means_litlenSymbol {w : Nat} (h : w < 288) : ∃ i, Means .litlenSymbol w i := by
  by_cases hlit : w < 256
  · have hw : (BitVec.ofNat 8 w).toNat = w := Machine.toNat_ofNat_of_lt hlit
    exact ⟨_, decode_lit hlit, rfl, by rw [encode, hw]⟩
  · by_cases hlen : 257 ≤ w ∧ w ≤ 285
    · obtain ⟨hlow, hhigh⟩ := hlen
      obtain ⟨i, hdec, hi⟩ := decode_lengthCode hlow hhigh
      have henc := (encode_of_lengthCode hi).1
      rw [Nat.add_sub_cancel' hlow] at henc
      exact ⟨i, hdec, wellFormed_of_fmt_ne (by simp [henc]), henc⟩
    · obtain rfl | rfl | rfl : w = 256 ∨ w = 286 ∨ w = 287 := by omega
      · exact ⟨_, decode_eob, rfl, rfl⟩
      · exact ⟨_, decode_lsym286, rfl, rfl⟩
      · exact ⟨_, decode_lsym287, rfl, rfl⟩

theorem means_distanceSymbol {w : Nat} (h : w < 2 ^ 5) : ∃ i, Means .distanceSymbol w i := by
  obtain ⟨i, hdec, hi⟩ := decode_distanceCode h
  have henc := encode_of_distanceCode hi
  exact ⟨i, hdec, wellFormed_of_fmt_ne (by simp [henc]), henc⟩

/-- Every stream value that the decoder takes has a meaning. -/
theorem exists_means {f : Format} {w : Nat} {i : Instr} (hf : f ≠ .hostCtrlWrite) (h : decode f w = .ok i) :
    ∃ j, Means f w j := by
  have hw : w < 2 ^ f.bits := (decode_ok.1 h).1
  cases f with
  | blockHeader => exact means_blockHeader hw
  | storedHeader => exact means_storedHeader hw
  | storedData => exact means_storedData hw
  | dynamicHeader => exact means_dynamicHeader hw
  | clLength => exact means_clLength hw
  | clSymbol =>
    refine means_clSymbol (not_le.1 fun habove => ?_)
    obtain ⟨e, he⟩ := decode_clSymbol_error habove
    cases h.symm.trans he
  | litlenSymbol =>
    refine means_litlenSymbol (not_le.1 fun habove => ?_)
    obtain ⟨e, he⟩ := decode_litlen_error habove
    cases h.symm.trans he
  | distanceSymbol => exact means_distanceSymbol hw
  | hostCtrlWrite => exact absurd rfl hf

/-- Settles O2: the value's meaning is what the decoder answers. -/
theorem decodedInstrEncodesBack : Obligations.DecodedInstrEncodesBack := by
  intro f w i hf h
  obtain ⟨j, hj, hwf, henc⟩ := exists_means hf h
  cases h.symm.trans hj
  exact ⟨hwf, henc⟩

/-! ## One row or a rejection -/

/-- Two rows that ask different values of a bit that both test. -/
def Row.Apart (r r' : Row) : Prop := r.pattern &&& r'.mask ≠ r'.pattern &&& r.mask

theorem Row.Apart.not_hits {r r' : Row} (h : r.Apart r') {w : Nat} (hr : r.hits w = true) : r'.hits w ≠ true := by
  intro hr'
  rw [Row.hits, beq_iff_eq] at hr hr'
  exact h (by rw [← hr, ← hr', Nat.and_right_comm])

/-- The rows of a format lie apart from each other. -/
theorem rows_pairwise_apart (f : Format) : f.rows.Pairwise Row.Apart := by
  unfold Row.Apart
  cases f <;> decide

theorem filter_length_le_one {α : Type} {R : α → α → Prop} {p : α → Bool} {l : List α} (hl : l.Pairwise R)
    (hR : ∀ a b, R a b → p a = true → p b ≠ true) : (l.filter p).length ≤ 1 := by
  have hpair := hl.filter p
  have hp : ∀ a, a ∈ l.filter p → p a = true := fun a ha => (List.mem_filter.1 ha).2
  match l.filter p, hpair, hp with
  | [], _, _ => exact Nat.zero_le 1
  | [_], _, _ => exact le_rfl
  | a :: b :: _, hpair, hp =>
    exact absurd (hp b (by simp)) (hR a b (List.rel_of_pairwise_cons hpair (by simp)) (hp a (by simp)))

/-- A value that fits the format and is no instruction is rejected by the format's name. -/
theorem decode_eq_rejection {f : Format} {w : Nat} (hw : w < 2 ^ f.bits) (h : ∃ e, decode f w = .error e) :
    decode f w = .error f.rejection := by
  obtain ⟨e, he⟩ := h
  rw [decode, if_neg (not_le.2 hw)] at he ⊢
  split at he
  · cases he
  · rfl

/-- Settles O3: rows that lie apart, and the rejection of each format. -/
theorem valuesHaveOneRowOrARejection : Obligations.ValuesHaveOneRowOrARejection :=
  ⟨fun f _ => filter_length_le_one (rows_pairwise_apart f) fun _ _ h => h.not_hits,
    fun _ hlow hhigh => decode_eq_rejection hhigh (decode_clSymbol_error hlow),
    fun _ hlow hhigh => decode_eq_rejection hhigh (decode_litlen_error hlow),
    fun _ heven hw => decode_eq_rejection hw (decode_ctrl_error heven),
    fun _ _ => decode_tooWide⟩

/-- Settles O4: each word by evaluation of the table. -/
theorem specWordsDecode : Obligations.SpecWordsDecode :=
  ⟨rfl, rfl, rfl, rfl, rfl, rfl, rfl, rfl, rfl, rfl⟩

end Sys2Proof

namespace Sys2Proof.Machine

/-! ## The format of the next element -/

/-- What a step takes is a value of a stream format, and STATE is the one that reads this format (R127). -/
theorem Fetches.decode_eq {s : State} {i : Instr} {r : BitReader} (h : Fetches s i r) :
    ∃ f w, f ≠ .hostCtrlWrite ∧ decode f w = .ok i ∧ stateReading f = s.fsm := by
  cases h with
  | header hs hf ht =>
    exact ⟨.blockHeader, _, nofun, decode_header _ _ (getBits_ok hf).2.1 (getBits_ok ht).2.1, hs.symm⟩
  | storedHeader hs hl hn =>
    exact ⟨.storedHeader, _, nofun, decode_stored (readU16le_lt hl) (readU16le_lt hn), hs.symm⟩
  | storedByte hs => exact ⟨.storedData, _, nofun, decode_storedData _, hs.symm⟩
  | dynHeader hs ha hb hc =>
    exact ⟨.dynamicHeader, _, nofun,
      decode_dynamicHeader (getBits_ok ha).2.1 (getBits_ok hb).2.1 (getBits_ok hc).2.1, hs.symm⟩
  | clLength hs hl => exact ⟨.clLength, _, nofun, decode_clLength (getBits_ok hl).2.1, hs.symm⟩
  | cl hs hv => exact ⟨.clSymbol, _, nofun, decode_cl hv, hs.symm⟩
  | cl16 hs => exact ⟨.clSymbol, _, nofun, decode_cl16, hs.symm⟩
  | cl17 hs => exact ⟨.clSymbol, _, nofun, decode_cl17, hs.symm⟩
  | cl18 hs => exact ⟨.clSymbol, _, nofun, decode_cl18, hs.symm⟩
  | lit hs hv => exact ⟨.litlenSymbol, _, nofun, decode_lit hv, hs.symm⟩
  | eob hs => exact ⟨.litlenSymbol, _, nofun, decode_eob, hs.symm⟩
  | lengthCode hs _ hi => exact ⟨.litlenSymbol, _, nofun, decode_of_lengthCode hi, hs.symm⟩
  | lsym286 hs => exact ⟨.litlenSymbol, _, nofun, decode_lsym286, hs.symm⟩
  | lsym287 hs => exact ⟨.litlenSymbol, _, nofun, decode_lsym287, hs.symm⟩
  | distanceCode hs _ hi => exact ⟨.distanceSymbol, _, nofun, decode_of_distanceCode hi, hs.symm⟩

/-- Settles O6: what was fetched encodes back to the format it was read in. -/
theorem fsmSelectsTheFormat : Obligations.FsmSelectsTheFormat := by
  intro s i r h
  obtain ⟨f, w, hf, hdec, hread⟩ := (fetch_ok h).decode_eq
  obtain ⟨hwf, henc⟩ := decodedInstrEncodesBack f w i hf hdec
  exact ⟨hwf, by rw [henc, hread]⟩

end Sys2Proof.Machine
end

section
/-! What BUILD writes and what DECODE and GET_BITS answer: ORDER is the symbols in the order of R37, and on a
loaded input the number of bits left decides the outcome (R171, R177, R201, R203 to R205). -/

namespace Sys2Proof.Machine

/-! ## The symbols in order -/

/-- The symbols below `m` of length `L`, by index. -/
def bucketSymbols (len : List Nat) (m L : Nat) : List Nat := (List.range m).filter fun s => len.getD s 0 = L

theorem bucketSymbols_succ (len : List Nat) (m L : Nat) :
    bucketSymbols len (m + 1) L = bucketSymbols len m L ++ if len.getD m 0 = L then [m] else [] := by
  simp only [bucketSymbols, List.range_succ, List.filter_append, List.filter_singleton]
  split_ifs <;> simp_all

theorem count_take_succ {len : List Nat} {m : Nat} (h : m < len.length) (L : Nat) :
    (len.take (m + 1)).count L = (len.take m).count L + if len.getD m 0 = L then 1 else 0 := by
  rw [List.take_add_one, List.count_append, List.getD_eq_getElem?_getD, List.getElem?_eq_getElem h]
  simp [List.count_singleton]

theorem length_bucketSymbols {len : List Nat} {m : Nat} (h : m ≤ len.length) (L : Nat) :
    (bucketSymbols len m L).length = (len.take m).count L := by
  induction m with
  | zero => rfl
  | succ m ih =>
    rw [bucketSymbols_succ, List.length_append, ih (Nat.le_of_succ_le h), count_take_succ h]
    split_ifs <;> rfl

/-- The symbol at place `j` has the length, and `j` symbols of that length before it. -/
theorem getElem?_bucketSymbols {len : List Nat} {m L j s : Nat} (h : m ≤ len.length)
    (hs : (bucketSymbols len m L)[j]? = some s) : len.getD s 0 = L ∧ (len.take s).count L = j := by
  induction m with
  | zero => cases hs
  | succ m ih =>
    rw [bucketSymbols_succ, List.getElem?_append] at hs
    split at hs
    · exact ih (Nat.le_of_succ_le h) hs
    · rename_i hj
      rw [length_bucketSymbols (Nat.le_of_succ_le h)] at hj hs
      split at hs
      · rename_i hL
        rw [List.getElem?_singleton] at hs
        split at hs
        · cases hs
          exact ⟨hL, by omega⟩
        · cases hs
      · cases hs

/-- The symbols of the lengths 1 to `k`, shorter lengths first, ties by index. -/
def symbolsUpTo (len : List Nat) (k : Nat) : List Nat := (List.range' 1 k).flatMap (bucketSymbols len len.length)

theorem symbolsInOrder_eq (len : List Nat) : symbolsInOrder len = symbolsUpTo len 15 := rfl

theorem symbolsUpTo_succ (len : List Nat) (k : Nat) :
    symbolsUpTo len (k + 1) = symbolsUpTo len k ++ bucketSymbols len len.length (k + 1) := by
  rw [symbolsUpTo, List.range'_concat, List.flatMap_append, List.flatMap_singleton, Nat.one_mul, Nat.add_comm 1 k,
    symbolsUpTo]

theorem length_symbolsUpTo (len : List Nat) (k : Nat) : (symbolsUpTo len k).length = bucketStart len (k + 1) := by
  induction k with
  | zero => rfl
  | succ k ih =>
    rw [symbolsUpTo_succ, List.length_append, ih, length_bucketSymbols le_rfl, List.take_length,
      ← bucketStart_succ k.succ_ne_zero]

/-- The symbol at place `i` is the one that BUILD places at index `i`. -/
theorem getElem?_symbolsUpTo {len : List Nat} {k i s : Nat} (hs : (symbolsUpTo len k)[i]? = some s) :
    len.getD s 0 ≠ 0 ∧ orderIndex len s = i := by
  induction k with
  | zero => cases hs
  | succ k ih =>
    rw [symbolsUpTo_succ, List.getElem?_append] at hs
    split at hs
    · exact ih hs
    · rename_i hi
      rw [length_symbolsUpTo] at hi hs
      obtain ⟨hL, hrank⟩ := getElem?_bucketSymbols le_rfl hs
      rw [orderIndex, hL, hrank]
      omega

theorem length_symbolsInOrder (len : List Nat) : (symbolsInOrder len).length = bucketStart len 16 :=
  length_symbolsUpTo len 15

/-! ## BUILD -/

section Build
variable {cw ow n : Nat} {len : List Nat} (t : HuffTable cw ow n)

theorem length_symbolsInOrder_le (hn : len.length ≤ n) : (symbolsInOrder len).length ≤ n := by
  rw [length_symbolsInOrder]
  have := bucketEnd_le_length len 16
  omega

theorem HuffTable.order_build_take (hn : len.length ≤ n) (how : n ≤ 2 ^ ow) (hlen : ∀ l, l ∈ len → l ≤ 15) :
    ((t.build len).order.toList.map BitVec.toNat).take (symbolsInOrder len).length = symbolsInOrder len := by
  refine List.ext_getElem? fun i => ?_
  rw [List.getElem?_take]
  split
  · rename_i hi
    obtain ⟨s, hget⟩ : ∃ s, (symbolsInOrder len)[i]? = some s := ⟨_, List.getElem?_eq_getElem hi⟩
    obtain ⟨hs, rfl⟩ := getElem?_symbolsUpTo hget
    obtain ⟨x, hx, rfl⟩ := HuffTable.orderAt_ok.1 (t.orderAt_build hn how hlen hs)
    rw [hget, List.getElem?_map, Vector.getElem?_toList, hx, Option.map_some]
  · rename_i hi
    rw [List.getElem?_eq_none (not_lt.1 hi)]

/-- No bucket reaches past the placed symbols, so BUILD writes nothing there (log 12). -/
theorem HuffTable.order_build_rest (hlen : ∀ l, l ∈ len → l ≤ 15) {i : Nat}
    (hi : (symbolsInOrder len).length ≤ i) : (t.build len).order[i]? = t.order[i]? := by
  rw [length_symbolsInOrder] at hi
  refine placeSymbols_of_not_awaits (by simpa [Nat.lt_succ_iff] using hlen) fun L hL ⟨_, hlt⟩ => ?_
  by_cases h16 : L < 16
  · rw [getD_bucketStarts len h16] at hlt
    have := bucketStart_add_count_le (len := len) hL h16
    omega
  · have hnot : L ∉ len := fun h => h16 (Nat.lt_succ_of_le (hlen L h))
    rw [List.count_eq_zero_of_not_mem hnot, List.getD_eq_default _ _ (by simpa using h16)] at hlt
    omega

end Build

/-- Settles O19: the counts by `countOf_build`, the order by the place that BUILD gives each symbol. -/
theorem buildSortsSymbols : Obligations.BuildSortsSymbols := by
  intro cw ow n t len hn hcw how hlen
  exact ⟨fun L hL => t.countOf_build len (Nat.lt_succ_of_le hL) (hn.trans_lt hcw), t.order_build_take hn how hlen,
    length_symbolsInOrder_le hn, fun i hi => t.order_build_rest hlen hi⟩

/-- Settles O20: the placed symbols are no more than the code lengths, and every codeword's index was filled. -/
theorem buildKeepsIndicesInBounds : Obligations.BuildKeepsIndicesInBounds := by
  intro cw ow n t len hn hcw
  have hlen : len.length < 2 ^ cw := hn.trans_lt hcw
  exact ⟨t.inBounds_build hn hlen, t.symbolsBelow_build hlen⟩

/-! ## GET_BITS and DECODE on a loaded input -/

section Loaded
variable {mem : Memory} {len n : Nat} {r : BitReader} (hm : ∀ a, a < len → (mem.read? a).isSome = true)
include hm

theorem getBits_of_bitsAhead (hn : n ≤ 25) (h : n ≤ r.bitsAhead len) :
    ∃ v r', getBits mem len n r = .ok (v, r') := by
  obtain ⟨hok, -⟩ := refill_loaded (mem := mem) (len := len) (n := n) (k := n) (acc := r.leftover)
    (held := r.cnt.toNat) (pos := r.pos) (by omega) fun a _ ha => hm a ha
  obtain ⟨p, hp⟩ := hok h
  exact ⟨_, _, by rw [getBits_eq hn, hp]⟩

theorem getBits_truncated (hn : n ≤ 25) (h : r.bitsAhead len < n) :
    getBits mem len n r = .error (.raise .truncated) := by
  obtain ⟨-, htrunc⟩ := refill_loaded (mem := mem) (len := len) (n := n) (k := n) (acc := r.leftover)
    (held := r.cnt.toNat) (pos := r.pos) (by omega) fun a _ ha => hm a ha
  rw [getBits_eq hn, htrunc h]

end Loaded

/-- Settles O13: the loop's two outcomes on a loaded input. -/
theorem getBitsSucceedsIffBitsRemain : Obligations.GetBitsSucceedsIffBitsRemain := by
  intro mem len n r hn hm
  refine ⟨fun h => ?_, getBits_truncated hm hn⟩
  obtain ⟨v, r', hget⟩ := getBits_of_bitsAhead hm hn h
  exact ⟨v, r', hget, (getBits_ok hget).2.1, (getBits_advance hget).ahead⟩

/-- Settles O14: at most 7 bits are left over, so no fewer bytes would have brought n bits. -/
theorem getBitsPullsLazily : Obligations.GetBitsPullsLazily := by
  intro mem len n v r r' h
  obtain ⟨-, -, hpos, hcnt, -, hclean, -⟩ := getBits_ok h
  have hleft : r'.cnt.toNat < 8 := r'.cnt.isLt
  exact ⟨by omega, hcnt, hclean⟩

/-- Settles O21: the outcomes of the loop for 15 code lengths from the first on. -/
theorem decodeOutcomes : Obligations.DecodeOutcomes := by
  intro cw ow n len t mem r ht hm
  refine (decodeLoop_loaded (t := t) (k := 15) (L := 1) (acc := 0) (pos := 0) (r := r) hm
    ((Nat.zero_add _).trans_le ht)).imp_left ?_
  rintro ⟨v, r', hd⟩
  obtain ⟨m, h1, h15, hadv, -, i, x, hi, hx⟩ := decodeLoop_ok hd
  have hahead := hadv.ahead
  exact ⟨v, r', hd, ⟨i, x, by rwa [Nat.zero_add] at hi, hx⟩, by omega, by omega⟩

end Sys2Proof.Machine
end

section
/-! A step of the block is exactly what `Completes` lists, or a raise; what that says of the next STATE (R240),
of the registers that each state writes (10_state.md sections 2 to 7), of the output (R84), and of the input bytes
that the step has read (R82, R98, R260). -/

namespace Sys2Proof.Machine

/-! ## A rule that applies is what the step does -/

section Step
variable {s t : State} {i : Instr} {r : BitReader}

theorem blockStep_of_exec (h : Fetches s i r) (hx : exec i (s.setBr r) = .next t) (ht : t.fsm ≠ .error) :
    blockStep s = .next t := by
  rw [blockStep_of_fetch h.fetch_eq, runElement, hx, commit_next ht]

theorem blockStep_internal (h : fetch s = none) : blockStep s = internalStep s := by
  rw [blockStep, h]

theorem blockStep_of_waiting (h : s.fsm.waiting = true) : blockStep s = .next s := by
  rcases (waiting_iff s.fsm).1 h with hs | hs | hs <;>
    rw [blockStep_internal (by rw [fetch, hs]), internalStep, hs]

theorem finish_of_ok {x : Result State} (h : x = .ok t) : finish s x = .next t := by
  rw [h, finish_ok]

theorem exec_storedByte_countStored {b : Byte} (h : s.stRem ≠ 0) (ho : s.outLen ≠ s.params.outCap) :
    exec (.storedByte b) s = .next (s.pushByte b).countStored := by
  rw [exec, execStoredByte, if_neg h, outAppend_ok.2 ⟨ho, rfl⟩, finish_ok]

end Step

theorem blockStep_copy {s : State} (hs : s.fsm = .copy) : blockStep s = finish s (copyStep s) := by
  rw [blockStep_internal (by rw [fetch, hs]), internalStep, hs]

/-- The converse of `blockStep_next` for a rule that completes. COPY reads below OUT_LEN alone, so there a
distance of 0 has to be ruled out. -/
theorem Completes.blockStep_eq {s t : State} (h : Completes s t) (hdist : s.fsm = .copy → 1 ≤ s.mDist.toNat) :
    blockStep s = .next t := by
  cases h with
  | waiting hs => exact blockStep_of_waiting hs
  | stored hs hf ht | fixed hs hf ht | dynamic hs hf ht => exact blockStep_of_exec (.header hs hf ht) rfl nofun
  | storedHeader hs hl hn hc =>
    rename_i len nlen r1 r2
    have hlen : (BitVec.ofNat 16 len).toNat = len := toNat_ofNat_of_lt (readU16le_lt hl)
    have hnlen : (BitVec.ofNat 16 nlen).toNat = nlen := toNat_ofNat_of_lt (readU16le_lt hn)
    have hzero : BitVec.ofNat 16 len = 0 ↔ len = 0 := by rw [← BitVec.toNat_inj, hlen]; rfl
    rw [blockStep_of_exec (.storedHeader hs hl hn) (exec_stored_match (by omega)) (ite_ne_error nofun nofun)]
    simp only [hzero]
    rfl
  | storedByte hs h0 hb ho =>
    rw [← hs]
    exact blockStep_of_exec (.storedByte hs hb) (exec_storedByte_countStored h0 ho)
      (ite_ne_error nofun (hs ▸ nofun))
  | dynHeader hs ha hb hc => exact blockStep_of_exec (.dynHeader hs ha hb hc) rfl nofun
  | clLength hs hl hv =>
    rw [← hs]
    refine blockStep_of_exec (.clLength hs hl) (finish_of_ok ?_) (ite_ne_error nofun (hs ▸ nofun))
    rw [State.setBr_clIdx, hv]
    rfl
  | lens hs hv hb =>
    obtain ⟨sym, r1, hd, hv⟩ := hv
    rw [← hs]
    obtain ⟨hsym, rfl, rfl, rfl⟩ | ⟨rfl, h0, hprev, hfit, x, hx, rfl⟩ | ⟨rfl, rfl, hfit, x, hx, rfl⟩ |
      ⟨rfl, rfl, hfit, x, hx, rfl⟩ := hv
    · exact blockStep_of_exec (.cl hs hsym hd) (finish_of_ok (putLens_ok.2 ⟨hb, rfl⟩))
        (ite_ne_error nofun (hs ▸ nofun))
    · exact blockStep_of_exec (.cl16 hs hd) (finish_of_ok (repeatPrev_ok.2
        ⟨h0, x, _, _, hx, hprev, fitLens_ok.2 ⟨hfit, putLens_ok.2 ⟨hb, rfl⟩⟩⟩)) (ite_ne_error nofun (hs ▸ nofun))
    · exact blockStep_of_exec (.cl17 hs hd) (finish_of_ok (zeroLens_ok.2
        ⟨x, _, hx, fitLens_ok.2 ⟨hfit, putLens_ok.2 ⟨hb, rfl⟩⟩⟩)) (ite_ne_error nofun (hs ▸ nofun))
    · exact blockStep_of_exec (.cl18 hs hd) (finish_of_ok (zeroLens_ok.2
        ⟨x, _, hx, fitLens_ok.2 ⟨hfit, putLens_ok.2 ⟨hb, rfl⟩⟩⟩)) (ite_ne_error nofun (hs ▸ nofun))
  | lit hs hv hd ho => exact blockStep_of_exec (.lit hs hv hd) (exec_lit_append ho) (hs ▸ nofun)
  | eob hs hd => exact blockStep_of_exec (.eob hs hd) rfl nofun
  | length hs hc hd hx =>
    obtain ⟨i, -, hi⟩ := decode_lengthCode (Nat.le_add_right 257 _) (Nat.add_le_add_left hc 257)
    rw [Nat.add_sub_cancel_left] at hi
    exact blockStep_of_exec (.lengthCode hs hc hi hd) (exec_lengthCode_of_getBits hi hx) nofun
  | distance hs hc hd hx ho =>
    have hc' := hc.trans (by decide : 30 < 32)
    obtain ⟨i, -, hi⟩ := decode_distanceCode hc'
    refine blockStep_of_exec (.distanceCode hs hc' hi hd) ?_ nofun
    exact (exec_distanceCode hi _).trans (finish_of_ok (distanceSymbol_of_getBits hc hx ho))
  | clBuild hs => rw [blockStep_internal (by rw [fetch, hs]), internalStep, hs]
  | build hs hl hd =>
    rw [blockStep_internal (by rw [fetch, hs]), internalStep, hs]
    refine finish_of_ok ?_
    rw [dynBuildStep, if_neg (by unfold Config.llAlphaMax Config.distAlphaMax; omega)]
    rfl
  | copy hs h0 hd ho hb =>
    rename_i b
    have hpos := hdist hs
    rw [blockStep_copy hs, ← hs]
    exact finish_of_ok (copyStep_ok.2 ⟨h0, hd, ho, b, by omega, hb, rfl⟩)
  | blockEnd hs =>
    rw [blockStep_internal (by rw [fetch, hs]), internalStep, hs]
    simp only [blockEndStep]
    split <;> rfl

/-- COPY goes on only where its distance is at least 1. -/
theorem mDist_pos_of_blockStep {s t : State} (h : blockStep s = .next t) (ht : t.fsm ≠ .error) (hs : s.fsm = .copy) :
    1 ≤ s.mDist.toNat := by
  rw [blockStep_copy hs, finish_next] at h
  rcases h with h | ⟨e, -, rfl⟩
  · obtain ⟨-, -, -, b, hlt, -⟩ := copyStep_ok.1 h
    omega
  · exact absurd rfl ht

/-! ## The input bytes that a step reads -/

theorem readByte_local {mem mem' : Memory} {len : Nat} {r r' : BitReader} {b : Byte}
    (h : readByte mem len r = .ok (b, r')) (hm : ∀ a, a < r'.pos → mem'.read? a = mem.read? a) :
    readByte mem' len r = .ok (b, r') := by
  obtain ⟨hpos, hb, rfl⟩ := readByte_ok.1 h
  exact readByte_ok.2 ⟨hpos, (hm _ (Nat.lt_succ_self _)).trans hb, rfl⟩

theorem readU16le_pos {mem : Memory} {len v : Nat} {r r' : BitReader} (h : readU16le mem len r = .ok (v, r')) :
    r'.pos = r.pos + 2 := by
  obtain ⟨lo, hi, -, -, -, -, rfl⟩ := readU16le_ok h
  rfl

theorem readU16le_local {mem mem' : Memory} {len v : Nat} {r r' : BitReader} (h : readU16le mem len r = .ok (v, r'))
    (hm : ∀ a, a < r'.pos → mem'.read? a = mem.read? a) : readU16le mem' len r = .ok (v, r') := by
  obtain ⟨lo, hi, hpos, hlo, hhi, rfl, rfl⟩ := readU16le_ok h
  exact readU16le_of_bytes hpos ((hm _ (Nat.lt_add_of_pos_right Nat.two_pos)).trans hlo)
    ((hm _ (Nat.lt_succ_self _)).trans hhi)

/-- GET_BITS after which the reader moves on to `p`. -/
theorem getBits_local_of_le {mem mem' : Memory} {len n v p : Nat} {r r' : BitReader}
    (h : getBits mem len n r = .ok (v, r')) (hp : r'.pos ≤ p) (hm : ∀ a, a < p → mem'.read? a = mem.read? a) :
    getBits mem' len n r = .ok (v, r') :=
  getBits_local h fun a _ ha => hm a (ha.trans_le hp)

theorem decodeSym_local_of_le {cw ow n : Nat} {t : HuffTable cw ow n} {mem mem' : Memory} {len v p : Nat}
    {r r' : BitReader} (h : decodeSym t mem len r = .ok (v, r')) (hp : r'.pos ≤ p)
    (hm : ∀ a, a < p → mem'.read? a = mem.read? a) : decodeSym t mem' len r = .ok (v, r') :=
  decodeLoop_local h fun a _ ha => hm a (ha.trans_le hp)

theorem getBits_pos_le {mem : Memory} {len n v : Nat} {r r' : BitReader} (h : getBits mem len n r = .ok (v, r')) :
    r.pos ≤ r'.pos :=
  (getBits_advance h).pos

/-- A rule applies as well to an input memory that reads the same below the `BR_POS` that it leaves. -/
theorem Completes.withInput {s t : State} {m : Memory} (h : Completes s t)
    (hm : ∀ a, a < t.br.pos → m.read? a = s.inMem.read? a) :
    Completes { s with inMem := m } { t with inMem := m } := by
  cases h with
  | waiting hs => exact .waiting hs
  | stored hs hf ht =>
    exact .stored hs (getBits_local_of_le hf (getBits_pos_le ht) hm) (getBits_local_of_le ht le_rfl hm)
  | fixed hs hf ht =>
    exact .fixed hs (getBits_local_of_le hf (getBits_pos_le ht) hm) (getBits_local_of_le ht le_rfl hm)
  | dynamic hs hf ht =>
    exact .dynamic hs (getBits_local_of_le hf (getBits_pos_le ht) hm) (getBits_local_of_le ht le_rfl hm)
  | storedHeader hs hl hn hc =>
    have hpos := readU16le_pos hn
    exact .storedHeader hs (readU16le_local hl fun a ha => hm a (ha.trans_le (by simp only [hpos]; omega)))
      (readU16le_local hn hm) hc
  | storedByte hs h0 hb ho => exact .storedByte hs h0 (readByte_local hb hm) ho
  | dynHeader hs ha hb hc =>
    exact .dynHeader hs (getBits_local_of_le ha ((getBits_pos_le hb).trans (getBits_pos_le hc)) hm)
      (getBits_local_of_le hb (getBits_pos_le hc) hm) (getBits_local_of_le hc le_rfl hm)
  | clLength hs hl hv => exact .clLength hs (getBits_local_of_le hl le_rfl hm) hv
  | clBuild hs => exact .clBuild hs
  | lens hs hv hb =>
    refine .lens hs ?_ hb
    obtain ⟨sym, r1, hd, hv⟩ := hv
    obtain ⟨hsym, rfl, hrest⟩ | ⟨rfl, h0, hprev, hfit, x, hx, hn⟩ | ⟨rfl, hz, hfit, x, hx, hn⟩ |
      ⟨rfl, hz, hfit, x, hx, hn⟩ := hv
    · exact ⟨sym, _, decodeSym_local_of_le hd le_rfl hm, .inl ⟨hsym, rfl, hrest⟩⟩
    · exact ⟨16, _, decodeSym_local_of_le hd (getBits_pos_le hx) hm,
        .inr (.inl ⟨rfl, h0, hprev, hfit, x, getBits_local_of_le hx le_rfl hm, hn⟩)⟩
    · exact ⟨17, _, decodeSym_local_of_le hd (getBits_pos_le hx) hm,
        .inr (.inr (.inl ⟨rfl, hz, hfit, x, getBits_local_of_le hx le_rfl hm, hn⟩))⟩
    · exact ⟨18, _, decodeSym_local_of_le hd (getBits_pos_le hx) hm,
        .inr (.inr (.inr ⟨rfl, hz, hfit, x, getBits_local_of_le hx le_rfl hm, hn⟩))⟩
  | build hs hl hd => exact .build hs hl hd
  | lit hs hv hd ho => exact .lit hs hv (decodeSym_local_of_le hd le_rfl hm) ho
  | eob hs hd => exact .eob hs (decodeSym_local_of_le hd le_rfl hm)
  | length hs hc hd hx =>
    exact .length hs hc (decodeSym_local_of_le hd (getBits_pos_le hx) hm) (getBits_local_of_le hx le_rfl hm)
  | distance hs hc hd hx ho =>
    exact .distance hs hc (decodeSym_local_of_le hd (getBits_pos_le hx) hm) (getBits_local_of_le hx le_rfl hm) ho
  | copy hs h0 hd ho hb => exact .copy hs h0 hd ho hb
  | blockEnd hs => exact .blockEnd hs

/-- Settles O57: the step completed a rule, the rule applies to the other input memory as well, and so it is what
the step does there. -/
theorem bytesPastTheReaderAreNotRead : Obligations.BytesPastTheReaderAreNotRead := by
  intro s t m h ht hm
  rcases blockStep_next h with hc | ⟨e, -, -, rfl⟩
  · have hdist := mDist_pos_of_blockStep h ht
    exact (hc.withInput hm).blockStep_eq hdist
  · exact absurd rfl ht

/-! ## The next STATE -/

/-- R240, for a rule that completes. -/
theorem Completes.fsm_mem_successors {s t : State} (h : Completes s t) : t.fsm ∈ s.fsm.successors := by
  cases h with
  | waiting hs => rcases (waiting_iff s.fsm).1 hs with hf | hf | hf <;> rw [hf] <;> decide
  | storedHeader hs | storedByte hs | clLength hs | lens hs | copy hs | blockEnd hs =>
    rw [hs]
    dsimp only
    split_ifs <;> decide
  | lit hs =>
    simp only [hs]
    decide
  | stored hs | fixed hs | dynamic hs | dynHeader hs | clBuild hs | build hs | eob hs | length hs | distance hs =>
    rw [hs]
    exact List.mem_of_elem_eq_true rfl

/-- Settles O8: a step completes a rule or enters ERROR, and START runs RUN_INIT. -/
theorem fsmFollowsTransitionTable : Obligations.FsmFollowsTransitionTable := by
  refine ⟨fun s t hs h => ?_, fun s hs hw => (step_silent hs).trans (blockStep_of_waiting hw),
    fun s v rest hs hv hw => ?_⟩
  · rw [step_silent hs] at h
    rcases blockStep_next h with hc | ⟨e, -, -, rfl⟩
    · exact .inr hc.fsm_mem_successors
    · exact .inl rfl
  · obtain ⟨hstart, -⟩ := startWriteBeginsARun s v rest hs
    exact ⟨_, hstart hv ((waiting_iff s.fsm).1 hw), rfl⟩

/-! ## The registers that a rule leaves alone -/

section Registers
variable {s t : State} (h : Completes s t)
include h

theorem Completes.header_flags_eq (hs : s.fsm ≠ .hdr) : t.bfinal = s.bfinal ∧ t.btype = s.btype := by
  cases h with
  | stored hf | fixed hf | dynamic hf => exact absurd hf hs
  | _ => exact ⟨rfl, rfl⟩

theorem Completes.tsel_eq (hs : s.fsm ≠ .hdr) (hs' : s.fsm ≠ .dynBuild) : t.tsel = s.tsel := by
  cases h with
  | stored hf | fixed hf | dynamic hf => exact absurd hf hs
  | build hf => exact absurd hf hs'
  | _ => rfl

theorem Completes.counts_eq (hs : s.fsm ≠ .dynHdr) :
    t.hlit = s.hlit ∧ t.hdist = s.hdist ∧ t.hclen = s.hclen := by
  cases h with
  | dynHeader hf => exact absurd hf hs
  | _ => exact ⟨rfl, rfl, rfl⟩

theorem Completes.clLens_eq (hs : s.fsm ≠ .dynHdr) (hs' : s.fsm ≠ .dynClLen) :
    t.clIdx = s.clIdx ∧ t.clLens = s.clLens := by
  cases h with
  | dynHeader hf => exact absurd hf hs
  | clLength hf => exact absurd hf hs'
  | _ => exact ⟨rfl, rfl⟩

theorem Completes.lens_eq (hs : s.fsm ≠ .dynLens) : t.lens = s.lens := by
  cases h with
  | lens hf => exact absurd hf hs
  | _ => rfl

theorem Completes.lk_eq (hs : s.fsm ≠ .dynLens) (hs' : s.fsm ≠ .dynClBuild) : t.lk = s.lk := by
  cases h with
  | lens hf => exact absurd hf hs
  | clBuild hf => exact absurd hf hs'
  | _ => rfl

theorem Completes.stRem_eq (hs : s.fsm ≠ .storedHdr) (hs' : s.fsm ≠ .storedCopy) : t.stRem = s.stRem := by
  cases h with
  | storedHeader hf => exact absurd hf hs
  | storedByte hf => exact absurd hf hs'
  | _ => rfl

theorem Completes.mLen_eq (hs : s.fsm ≠ .sym) : t.mLen = s.mLen := by
  cases h with
  | length hf => exact absurd hf hs
  | _ => rfl

theorem Completes.mDist_eq (hs : s.fsm ≠ .dist) : t.mDist = s.mDist := by
  cases h with
  | distance hf => exact absurd hf hs
  | _ => rfl

theorem Completes.mRem_eq (hs : s.fsm ≠ .dist) (hs' : s.fsm ≠ .copy) : t.mRem = s.mRem := by
  cases h with
  | distance hf => exact absurd hf hs
  | copy hf => exact absurd hf hs'
  | _ => rfl

theorem Completes.cl_eq (hs : s.fsm ≠ .dynClBuild) : t.cl = s.cl := by
  cases h with
  | clBuild hf => exact absurd hf hs
  | _ => rfl

theorem Completes.tables_eq (hs : s.fsm ≠ .dynBuild) : t.ll = s.ll ∧ t.dt = s.dt := by
  cases h with
  | build hf => exact absurd hf hs
  | _ => exact ⟨rfl, rfl⟩

/-- The states that read no element leave the reader alone. -/
theorem Completes.br_eq (hs : s.fsm = .dynClBuild ∨ s.fsm = .dynBuild ∨ s.fsm = .copy ∨ s.fsm = .blockEnd ∨
    s.fsm.waiting = true) : t.br = s.br := by
  cases h with
  | waiting | clBuild | build | copy | blockEnd => rfl
  | stored hf | fixed hf | dynamic hf | storedHeader hf | storedByte hf | dynHeader hf | clLength hf | lens hf
  | lit hf | eob hf | length hf | distance hf => exact absurd hs (by rw [hf]; decide)

/-- `BR_POS` never decreases. -/
theorem Completes.pos_le : s.br.pos ≤ t.br.pos := by
  cases h with
  | waiting | clBuild | build | copy | blockEnd => exact le_rfl
  | stored _ hf ht | fixed _ hf ht | dynamic _ hf ht => exact (getBits_pos_le hf).trans (getBits_pos_le ht)
  | storedHeader _ hl hn =>
    have hpos := readU16le_pos hl
    have hpos' := readU16le_pos hn
    rw [dropAlign_pos] at hpos
    dsimp only
    omega
  | storedByte _ _ hb =>
    obtain ⟨-, -, rfl⟩ := readByte_ok.1 hb
    exact Nat.le_succ _
  | dynHeader _ ha hb hc => exact ((getBits_pos_le ha).trans (getBits_pos_le hb)).trans (getBits_pos_le hc)
  | clLength _ hl => exact getBits_pos_le hl
  | lens _ hv =>
    obtain ⟨sym, r1, hd, hv⟩ := hv
    obtain ⟨m, -, hadv, -⟩ := decodeSym_ok hd
    obtain ⟨-, rfl, -⟩ | ⟨-, -, -, -, x, hx, -⟩ | ⟨-, -, -, x, hx, -⟩ | ⟨-, -, -, x, hx, -⟩ := hv
    · exact hadv.pos
    all_goals exact hadv.pos.trans (getBits_pos_le hx)
  | lit _ _ hd | eob _ hd =>
    obtain ⟨m, -, hadv, -⟩ := decodeSym_ok hd
    exact hadv.pos
  | length _ _ hd hx | distance _ _ hd hx =>
    obtain ⟨m, -, hadv, -⟩ := decodeSym_ok hd
    exact hadv.pos.trans (getBits_pos_le hx)

/-- The states whose rules append a byte. -/
theorem Completes.appending_fsm (hlen : t.outLen ≠ s.outLen) :
    s.fsm = .storedCopy ∨ s.fsm = .sym ∨ s.fsm = .copy := by
  cases h with
  | storedByte hf => exact .inl hf
  | lit hf => exact .inr (.inl hf)
  | copy hf => exact .inr (.inr hf)
  | _ => exact absurd rfl hlen

end Registers

/-- Settles O9: a raise writes ERR_CODE and STATE alone, and of the rules only those of the states named write a
register. -/
theorem registersKeepTheirWriters : Obligations.RegistersKeepTheirWriters := by
  intro s t h
  rcases blockStep_next h with hc | ⟨e, -, -, rfl⟩
  · obtain ⟨hparams, hhost, hmem, hlen⟩ := hc.keeps
    exact ⟨hc.header_flags_eq, hc.tsel_eq, hc.counts_eq, hc.clLens_eq, hc.lens_eq, hc.lk_eq, hc.stRem_eq, hc.mLen_eq,
      hc.mDist_eq, hc.mRem_eq, hc.cl_eq, hc.tables_eq, hc.pos_le, hc.br_eq, fun _ => hc.errCode_eq,
      hparams, hhost, hlen, hmem⟩
  · exact ⟨fun _ => ⟨rfl, rfl⟩, fun _ _ => rfl, fun _ => ⟨rfl, rfl, rfl⟩, fun _ _ => ⟨rfl, rfl⟩, fun _ => rfl,
      fun _ _ => rfl, fun _ _ => rfl, fun _ => rfl, fun _ => rfl, fun _ _ => rfl, fun _ => rfl,
      fun _ => ⟨rfl, rfl⟩, le_rfl, fun _ => rfl, fun hne => absurd rfl hne, rfl, rfl, rfl, rfl⟩

/-- Settles O10: a raise leaves the output alone, and a rule appends one byte at most. -/
theorem outputIsAppendOnly : Obligations.OutputIsAppendOnly := by
  intro s t h
  rcases blockStep_next h with hc | ⟨e, -, -, rfl⟩
  · rcases hc.output with ⟨hmem, hlen⟩ | ⟨-, hlen, b, hmem⟩
    · exact .inl ⟨hlen, hmem⟩
    · refine .inr ⟨hc.appending_fsm (by omega), hlen, by simp [hmem], fun a ha => by simp [hmem, ha]⟩
  · exact .inl ⟨rfl, rfl⟩

end Sys2Proof.Machine
end

section
/-! The invariant through every step of the machine, the host's moves included, and the runs on a loaded input,
which never stop with a fault. -/

namespace Sys2Proof.Machine

/-! ## The invariant in a waiting state -/

theorem not_waiting_of_fsm {s : State} {f : Fsm} {p : Prop} (ht : s.fsm.waiting = true) (hf : s.fsm = f)
    (hbusy : f.waiting = false := by rfl) : p := by
  rw [hf, hbusy] at ht
  cases ht

/-- A waiting state has no operands: the invariant asks of it only what it asks of every state. -/
theorem Inv.of_waiting {s : State} (hw : s.fsm.waiting = true) (hparams : s.params.Ok) (hinWf : s.inMem.wf)
    (houtWf : s.outMem.wf) (hinLen : s.inLen < 2 ^ s.params.addrW) (houtLen : s.outLen ≤ s.params.outCap)
    (hwritten : ∀ a, a < s.outLen → (s.outMem.read? a).isSome = true)
    (herr : s.fsm = .error ↔ s.errCode ≠ .none) (hclean : s.br.Clean) : Inv s where
  params := hparams
  inWf := hinWf
  outWf := houtWf
  inLen := hinLen
  outLen := houtLen
  outWritten := hwritten
  fsm hf := not_waiting_of_fsm hw hf
  errCode := herr
  clean := hclean
  reader hbusy := absurd (hw.symm.trans hbusy) nofun
  stored hf := not_waiting_of_fsm hw hf
  header := by rintro (hf | hf | hf | hf) <;> exact not_waiting_of_fsm hw hf
  clIdx hf := not_waiting_of_fsm hw hf
  lk hf := not_waiting_of_fsm hw hf
  clBounds hf := not_waiting_of_fsm hw hf
  clSymbols hf := not_waiting_of_fsm hw hf
  tables := by rintro (hf | hf | hf) <;> exact not_waiting_of_fsm hw hf
  mLen hf := not_waiting_of_fsm hw hf
  copy hf := not_waiting_of_fsm hw hf

theorem resetParams_ok : Config.resetParams.Ok := by
  unfold Params.Ok Config.resetParams
  decide

/-- The state after reset under any parameters that R7 allows. -/
theorem Inv.doReset {s : State} (hparams : s.params.Ok) : Inv s.doReset :=
  .of_waiting rfl hparams Memory.wf_nil Memory.wf_nil (Nat.two_pow_pos _) (Nat.zero_le _)
    (fun _ h => absurd h (Nat.not_lt_zero _)) (iff_of_false nofun (not_not_intro rfl)) BitReader.clean_empty

/-- Settles O52: the state after reset is what reset makes of it again. -/
theorem invariantHoldsAtReset : Obligations.InvariantHoldsAtReset :=
  Inv.doReset (s := State.reset) resetParams_ok

/-! ## The host's moves -/

/-- The invariant does not speak of the host's list. -/
theorem Inv.setHost {s : State} (h : Inv s) (rest : List HostAct) : Inv (s.setHost rest) :=
  { h with }

/-- BUSY is every state but the three that wait (R45). -/
theorem busy_eq_not_waiting (s : State) : s.busy = !s.fsm.waiting := by
  unfold State.busy
  cases s.fsm <;> decide

section Moves
variable {s : State}

theorem writeInLen_waiting (h : s.fsm.waiting = true) (v : Word) :
    s.writeInLen v = { s with inLen := v.toNat % 2 ^ s.params.addrW } := by
  rw [State.writeInLen, busy_eq_not_waiting, h]
  rfl

theorem writeInLen_busy (h : s.fsm.waiting = false) (v : Word) : s.writeInLen v = s := by
  rw [State.writeInLen, busy_eq_not_waiting, h]
  rfl

theorem hostWrite_inLen (v : Word) (s : State) : hostWrite 0x0C v s = .next (s.writeInLen v) := rfl

theorem hostWrite_readOnly {offset : Nat} (h : offset = 0x04 ∨ offset = 0x08 ∨ offset = 0x10 ∨ offset = 0x14)
    (v : Word) (s : State) : hostWrite offset v s = .next s := by
  rcases h with rfl | rfl | rfl | rfl <;> rfl

theorem hostLoad_waiting (h : s.fsm.waiting = true) {a : Nat} (ha : a < 2 ^ s.params.addrW) (b : Byte) :
    hostLoad a b s = .next { s with inMem := s.inMem.write a b } := by
  rw [hostLoad, busy_eq_not_waiting, h, if_neg nofun, if_neg (not_le.2 ha)]

theorem hostLoad_busy (h : s.fsm.waiting = false) (a : Nat) (b : Byte) :
    hostLoad a b s = .refused .hostLoadWhileBusy := by
  rw [hostLoad, busy_eq_not_waiting, h]
  rfl

end Moves

/-- INLEN is written only while the block waits, and takes no more than ADDR_W bits (R44). -/
theorem Inv.writeInLen {s : State} (h : Inv s) (v : Word) : Inv (s.writeInLen v) := by
  cases hw : s.fsm.waiting with
  | false =>
    rw [writeInLen_busy hw]
    exact h
  | true =>
    rw [writeInLen_waiting hw]
    exact .of_waiting hw h.params h.inWf h.outWf (Nat.mod_lt _ (Nat.two_pow_pos _)) h.outLen h.outWritten h.errCode
      h.clean

/-- A host load goes on only while the block waits, and keeps the input memory in canonical form. -/
theorem Inv.of_hostLoad {s t : State} {a : Nat} {b : Byte} (h : Inv s) (ht : hostLoad a b s = .next t) : Inv t := by
  obtain ⟨hbusy, -, rfl⟩ := hostLoad_next ht
  have hw : s.fsm.waiting = true := by simpa [busy_eq_not_waiting] using hbusy
  exact .of_waiting hw h.params (Memory.wf_write h.inWf a b) h.outWf h.inLen h.outLen
    h.outWritten h.errCode h.clean

theorem Inv.of_hostStep {s t : State} {a : HostAct} (h : Inv s) (ht : hostStep a s = .next t) : Inv t := by
  cases a with
  | pass => exact h.of_blockStep ht
  | write offset v =>
    rcases hostWrite_next ht with rfl | ⟨-, rfl⟩ | rfl
    · exact h
    · exact h.runInit
    · exact h.writeInLen v
  | load a b => exact h.of_hostLoad ht
  | reset =>
    cases ht
    exact .doReset h.params

/-- Settles O53: a step of the block, or one of the host's moves. -/
theorem everyStepKeepsInvariant : Obligations.EveryStepKeepsInvariant := by
  intro s t h ht
  cases hs : s.host with
  | nil =>
    rw [step_silent hs] at ht
    exact h.of_blockStep ht
  | cons a rest =>
    rw [step_host hs] at ht
    exact (h.setHost rest).of_hostStep ht

/-! ## Runs on a loaded input -/

/-- A state in which the next step is the block's and cannot stop with a fault. -/
structure LoadedAndSilent (s : State) : Prop where
  inv    : Inv s
  loaded : InputLoaded s
  silent : s.host = []

theorem LoadedAndSilent.step_next {s : State} (h : LoadedAndSilent s) : ∃ t, step s = .next t ∧ LoadedAndSilent t := by
  obtain ⟨t, ht⟩ := h.inv.exists_blockStep h.loaded
  obtain ⟨-, hhost, hmem, hlen⟩ := blockStep_keeps ht
  refine ⟨t, (step_silent h.silent).trans ht, h.inv.of_blockStep ht, ?_, hhost.trans h.silent⟩
  unfold InputLoaded
  rw [hmem, hlen]
  exact h.loaded

theorem LoadedAndSilent.run_next {s : State} (h : LoadedAndSilent s) (k : Nat) : ∃ t : State, core.run k s = .next t := by
  induction k generalizing s with
  | zero => exact ⟨s, core_run_zero s⟩
  | succ k ih =>
    obtain ⟨u, hstep, hu⟩ := h.step_next
    obtain ⟨t, hrun⟩ := ih hu
    exact ⟨t, (core_run_succ k hstep).trans hrun⟩

/-- Settles O54: every step goes on and leads to a state of the same kind. -/
theorem loadedRunsNeverFault : Obligations.LoadedRunsNeverFault :=
  fun _ hinv hloaded hsilent k => LoadedAndSilent.run_next ⟨hinv, hloaded, hsilent⟩ k

/-! ## The other host moves, in a step -/

/-- Settles O47: what each move does in the state whose list it was taken from. -/
theorem otherHostMoves : Obligations.OtherHostMoves := by
  intro s v rest
  refine ⟨fun hs hw => ?_, fun hs hw => ?_, fun offset ho hs => ?_, fun a b hs hw ha => ?_, fun a b hs hw => ?_⟩
  · rw [step_hostWrite hs, hostWrite_inLen, writeInLen_waiting (s := s.setHost rest) hw]
    rfl
  · rw [step_hostWrite hs, hostWrite_inLen, writeInLen_busy (s := s.setHost rest) hw]
    rfl
  · exact (step_hostWrite hs).trans (hostWrite_readOnly ho v _)
  · exact ⟨s.inMem.write a b, (step_host hs).trans (hostLoad_waiting (s := s.setHost rest) hw ha b), by simp,
      fun x hx => by simp [hx]⟩
  · exact (step_host hs).trans (hostLoad_busy (s := s.setHost rest) hw a b)

/-- Settles O46: the block waits in exactly the three states. -/
theorem startCompletes : Obligations.StartCompletes :=
  fun s => ⟨fun hw => exec_start_waiting ((waiting_iff s.fsm).2 hw),
    fun hidle hdone herr => exec_start_ignored fun hw => by simpa [hidle, hdone, herr] using (waiting_iff s.fsm).1 hw⟩

/-- Settles O49: the state that reset leaves, register by register. -/
theorem resetFromAnyState : Obligations.ResetFromAnyState := by
  intro s rest hs
  exact ⟨(s.setHost rest).doReset, step_host hs, rfl, rfl, rfl, rfl, rfl, rfl, rfl, rfl, rfl, rfl, rfl, rfl,
    blockStep_of_waiting rfl⟩

/-- Settles O5: `runElement` on the element fetched, and the host's list taken from its front. -/
theorem stepRunsFetchedInstr : Obligations.StepRunsFetchedInstr :=
  ⟨fun _ _ _ hs h => (step_silent hs).trans (blockStep_of_fetch h), fun _ _ hs => step_host hs,
    fun _ hs => step_silent hs⟩

end Sys2Proof.Machine
end

section
/-! The elements that complete, each as its meaning gives it (42_block_fsm.md, 43_lz77.md), and the two memories
read as data. -/

namespace Sys2Proof.Machine

/-! ## Memories -/

/-- The first address of a memory is not below the first of another that reads the same: it would hold a value
in the one alone. -/
theorem Memory.head_le_head {x x' : Nat} {v v' : Byte} {m m' : Memory} (hm' : Memory.wf ((x', v') :: m'))
    (h : ∀ a, Memory.read? ((x, v) :: m) a = Memory.read? ((x', v') :: m') a) : x' ≤ x := by
  by_contra hlt
  obtain ⟨hx', -⟩ := List.pairwise_cons.1 hm'
  have hnone : Memory.read? ((x', v') :: m') x = none := by
    refine Memory.read?_eq_none_of_lt fun c hc => ?_
    rcases List.mem_cons.1 hc with rfl | hc
    · exact not_le.1 hlt
    · exact (not_le.1 hlt).trans (hx' c hc)
  have hread := h x
  rw [hnone, Memory.read?, if_pos rfl] at hread
  cases hread

/-- A memory in canonical form is determined by what it reads. -/
theorem Memory.eq_of_read? {m m' : Memory} (hm : m.wf) (hm' : m'.wf) (h : ∀ a, m.read? a = m'.read? a) : m = m' := by
  induction m generalizing m' with
  | nil =>
    cases m' with
    | nil => rfl
    | cons c' m' => simpa [Memory.read?] using h c'.1
  | cons c m ih =>
    cases m' with
    | nil => simpa [Memory.read?] using h c.1
    | cons c' m' =>
      obtain ⟨x, v⟩ := c
      obtain ⟨x', v'⟩ := c'
      obtain rfl : x = x' := le_antisymm (Memory.head_le_head hm fun a => (h a).symm) (Memory.head_le_head hm' h)
      obtain ⟨hx, hrest⟩ := List.pairwise_cons.1 hm
      obtain ⟨hx', hrest'⟩ := List.pairwise_cons.1 hm'
      obtain rfl : v = v' := by simpa [Memory.read?] using h x
      refine congrArg (List.cons (x, v)) (ih hrest hrest' fun a => ?_)
      by_cases ha : x = a
      · subst ha
        rw [Memory.read?_eq_none_of_lt hx, Memory.read?_eq_none_of_lt hx']
      · simpa [Memory.read?, ha] using h a

/-- Settles O50: equal first addresses, equal bytes there, and equal rests. -/
theorem equalReadsAreEqualMemories : Obligations.EqualReadsAreEqualMemories :=
  fun _ _ hm hm' h => Memory.eq_of_read? hm hm' h

theorem mapM_eq_some_map {α β : Type} {l : List α} {f : α → Option β} {g : α → β}
    (h : ∀ a, a ∈ l → f a = some (g a)) : l.mapM f = some (l.map g) := by
  induction l with
  | nil => rfl
  | cons a l ih =>
    rw [List.mapM_cons, h a List.mem_cons_self, ih fun b hb => h b (List.mem_cons_of_mem a hb)]
    rfl

/-- The bytes of the output, where each of them has been written. -/
theorem outBytes_of_written {s : State} (h : ∀ a, a < s.outLen → (s.outMem.read? a).isSome = true) :
    ∃ bytes, s.outBytes = some bytes ∧ bytes.length = s.outLen ∧
      ∀ i, i < s.outLen → bytes[i]? = s.outMem.read? i := by
  have hread (a : Nat) (ha : a < s.outLen) : s.outMem.read? a = some ((s.outMem.read? a).getD 0) := by
    obtain ⟨b, hb⟩ := Option.isSome_iff_exists.1 (h a ha)
    rw [hb, Option.getD_some]
  refine ⟨_, mapM_eq_some_map fun a ha => hread a (List.mem_range.1 ha), by simp, fun i hi => ?_⟩
  rw [List.getElem?_map, List.getElem?_range hi, Option.map_some, ← hread i hi]

/-- Settles O51: in DONE the invariant gives every byte below OUT_LEN. -/
theorem resultIsTheOutputBytes : Obligations.ResultIsTheOutputBytes := by
  refine ⟨fun s hs => if_neg hs, fun s hinv hs => ?_⟩
  rw [State.result, if_pos hs]
  exact outBytes_of_written hinv.outWritten

/-! ## Block headers, stored blocks and the fixed fields of a dynamic header -/

/-- Settles O24: each meaning is its writes alone. -/
theorem blockHeadersComplete : Obligations.BlockHeadersComplete :=
  fun _ _ => ⟨rfl, rfl, rfl, rfl⟩

theorem toNat_eq_complement_iff {len nlen : BitVec 16} :
    len.toNat = 0xFFFF - nlen.toNat ↔ len.toNat + nlen.toNat = 0xFFFF := by
  have := nlen.isLt
  omega

/-- Settles O27: the fields are complements where they add up to 2^16 - 1, and the output has room or has none. -/
theorem storedElementsComplete : Obligations.StoredElementsComplete := by
  refine ⟨fun len nlen s h => ?_, fun len nlen s h => exec_stored_mismatch (mt toNat_eq_complement_iff.1 h),
    fun b s => exec_storedByte_append, fun b s => exec_storedByte_full⟩
  have hzero : len = 0 ↔ len.toNat = 0 := by rw [← BitVec.toNat_inj]; rfl
  simp only [exec_stored_match (toNat_eq_complement_iff.2 h), hzero]

/-- Settles O31: PERM has an entry for every index below 19. -/
theorem dynHeaderElementsComplete : Obligations.DynHeaderElementsComplete :=
  ⟨fun _ _ _ _ => rfl, fun _ _ => exec_cllen⟩

/-! ## Appending elements -/

/-- A meaning that ends outside ERROR was completed. -/
theorem ok_of_finish_next {s t : State} {x : Result State} (h : finish s x = .next t) (ht : t.fsm ≠ .error) :
    x = .ok t := by
  rcases finish_next.1 h with h | ⟨e, -, rfl⟩
  · exact h
  · exact absurd rfl ht

theorem lit_next {b : Byte} {s t : State} (h : exec (.lit b) s = .next t) (ht : t.fsm ≠ .error) :
    t = s.pushByte b :=
  (outAppend_ok.1 (ok_of_finish_next h ht)).2

theorem storedByte_next {b : Byte} {s t : State} (h : exec (.storedByte b) s = .next t) (ht : t.fsm ≠ .error) :
    t = (s.pushByte b).countStored := by
  have hok := ok_of_finish_next h ht
  split at hok
  · cases hok
  · split at hok
    · rename_i u hu
      obtain ⟨-, rfl⟩ := outAppend_ok.1 hu
      exact (Except.ok.inj hok).symm
    · cases hok

/-- Settles O28: both meanings push the byte, and neither count touches a memory. -/
theorem appendingElementsStoreOneByte : Obligations.AppendingElementsStoreOneByte := by
  intro b s t h ht
  have hpush : t = s.pushByte b ∨ t = (s.pushByte b).countStored :=
    h.imp (fun h => lit_next h ht) fun h => storedByte_next h ht
  rcases hpush with rfl | rfl <;> exact ⟨rfl, by simp, fun a ha => by simp [ha], fun _ => rfl⟩

/-! ## Code-length symbols -/

/-- Settles O34: CL_v writes its own length once, a repeat the length that it reads or 0, where its check of the
fit passes. -/
theorem clSymbolsComplete : Obligations.ClSymbolsComplete := by
  intro i s n base x r ht hi hx hfit
  have hlens (v : BitVec 4) (j : Nat) (hj : j < 320) : (fillLens s.lens s.lk.toNat v (x + base))[j]? =
      if s.lk.toNat ≤ j ∧ j < s.lk.toNat + (x + base) then some v else s.lens[j]? := by
    rw [getElem?_fillLens]
    simp only [hj, and_true]
  obtain ⟨⟨w, rfl⟩, rfl, rfl⟩ | ⟨rfl, h0, rfl, rfl⟩ | ⟨rfl, rfl, rfl⟩ | ⟨rfl, rfl, rfl⟩ := hi
  · obtain ⟨-, rfl, rfl⟩ := hx.resolve_right fun h => h.1 rfl
    exact ⟨w, _, fun _ h => Instr.cl.inj h, nofun, by simp, hlens w,
      finish_of_ok (putLens_ok.2 ⟨hfit.trans ht, rfl⟩)⟩
  · obtain ⟨-, hx⟩ := hx.resolve_left nofun
    have hprev : s.lens[s.lk.toNat - 1]? = some s.lens[s.lk.toNat - 1] := Vector.getElem?_eq_getElem (by omega)
    exact ⟨_, _, nofun, fun _ => hprev, by simp, hlens _,
      finish_of_ok (repeatPrev_ok.2 ⟨h0, x, r, _, hx, hprev, fitLens_fits (s := s.setBr r) ht hfit⟩)⟩
  · obtain ⟨-, hx⟩ := hx.resolve_left nofun
    exact ⟨0, _, nofun, nofun, fun _ => rfl, hlens 0,
      finish_of_ok (zeroLens_ok.2 ⟨x, r, hx, fitLens_fits (s := s.setBr r) ht hfit⟩)⟩
  · obtain ⟨-, hx⟩ := hx.resolve_left nofun
    exact ⟨0, _, nofun, nofun, fun _ => rfl, hlens 0,
      finish_of_ok (zeroLens_ok.2 ⟨x, r, hx, fitLens_fits (s := s.setBr r) ht hfit⟩)⟩

theorem finish_of_raise {s : State} {x : Result State} {e : ErrCode} (h : x = .error (.raise e)) :
    finish s x = .next (s.raiseError e) := by
  rw [h, finish_raise]

theorem zeroLens_of_getBits_error {n : Nat} {count : Nat → Nat} {s : State} {e : Stop}
    (h : getBits s.inMem s.inLen n s.br = .error e) : zeroLens n count s = .error e := by
  rw [zeroLens, State.getBits, h]

theorem repeatPrev_of_getBits_error {s : State} {e : Stop} (h0 : s.lk ≠ 0)
    (h : getBits s.inMem s.inLen 2 s.br = .error e) : repeatPrev s = .error e := by
  rw [repeatPrev, if_neg h0, State.getBits, h]

/-- Settles O33: the codeword, then the meaning, whose first checks are R250's and the extra bits'. -/
theorem dynLensStep : Obligations.DynLensStep := by
  intro s hs hfsm
  refine ⟨fun e hd => ?_, fun v r i hd hi => ?_, fun r hd h0 => ?_, fun v r n e hd hv hx => ?_⟩
  · exact step_of_fetch_raise hs (by simp only [fetch, hfsm, fetchClSymbol, hd])
  · have hfetch : fetch s = some (.ok (i, r)) := by simp only [fetch, hfsm, fetchClSymbol, hd, element, hi]
    exact (step_silent hs).trans (blockStep_of_fetch hfetch)
  · exact step_raises hs (.cl16 hfsm hd) (repeatsAreChecked.1 (s.setBr r) h0)
  · obtain ⟨rfl, h0, rfl⟩ | ⟨rfl, rfl⟩ | ⟨rfl, rfl⟩ := hv
    · exact step_raises hs (.cl16 hfsm hd) (finish_of_raise (repeatPrev_of_getBits_error h0 hx))
    · exact step_raises hs (.cl17 hfsm hd) (finish_of_raise (zeroLens_of_getBits_error hx))
    · exact step_raises hs (.cl18 hfsm hd) (finish_of_raise (zeroLens_of_getBits_error hx))

/-! ## Length and distance symbols -/

/-- Settles O38: the extra bits are left, so they are read. -/
theorem lengthSymbolsComplete : Obligations.LengthSymbolsComplete := by
  intro i c s hi hm hbits
  have := lenExtra_le c (encode_of_lengthCode hi).2
  obtain ⟨x, r, hx⟩ := getBits_of_bitsAhead hm (by omega) hbits
  exact ⟨x, r, (getBits_ok hx).2.1, hx, exec_lengthCode_of_getBits hi hx⟩

/-- Settles O41: no value of the extra bits gives a distance above that of the largest. -/
theorem distanceSymbolsComplete : Obligations.DistanceSymbolsComplete := by
  intro i c s hi hc hm hbits hfar
  have := distExtra_le c hc
  obtain ⟨x, r, hx⟩ := getBits_of_bitsAhead hm (by omega) hbits
  have hlt : x < 2 ^ distExtra c := (getBits_ok hx).2.1
  have hnear : distOf c x ≤ s.outLen := by
    rw [distOf_eq_base_add (Nat.sub_one_lt_of_lt hlt)] at hfar
    rw [distOf_eq_base_add hlt]
    omega
  exact ⟨x, r, hlt, hx, (exec_distanceCode hi s).trans (finish_of_ok (distanceSymbol_of_getBits hc hx hnear))⟩

end Sys2Proof.Machine
end
